-- ==== Sys2Proof/Word.lean ====
section
/-! DEFINITION. Word.lean: the words of the SBUS capture block, one name for each width the spec gives
(`00_scope.md` R7, R10; `10_state.md` R21 to R32; `30_encoding.md` R58). Every value is unsigned (R15). -/

namespace Sys2Proof

/-- A byte of an SBUS frame, or of the byte view of a ring entry (R46). -/
abbrev Byte := BitVec 8

/-- `CW = 9` (R7): a binary cursor, 0 to 511; 0 to 299 are the valid ones. -/
abbrev Cursor := BitVec 9

/-- A cursor in the offset Gray code of R73. -/
abbrev Code := BitVec 9

/-- A 16-bit field of an entry (R10): a `pin_value`, or a width in microseconds. -/
abbrev Half := BitVec 16

/-- A ring entry word, format ENTRY (R64). -/
abbrev Entry := BitVec 32

/-- A producer command word `{p_cmd, p_data}`, format PCMD (R59). -/
abbrev Command := BitVec 34

/-- An accumulator word, format ACCWORD: slot `k` is bit `k` (R67). -/
abbrev AccWord := BitVec 12

/-- The accumulator `acc[0..24]` (R30). -/
abbrev Acc := Vector AccWord 25

/-- The 25 bytes of a frame (R18, R32), byte 0 first. -/
abbrev Frame := Vector Byte 25

end Sys2Proof
end

