-- ==== Sys2Proof/Syntax.lean ====
section
/-! DEFINITION. Syntax.lean: one constructor for each row of `spec/opcode_table.json` (`30_encoding.md` section
10). The four PCMD rows are what the producer port takes at a `clk_p` edge; the three ENTRY rows are the classes of
ring entry, the consumer's "instructions" (`42_consumer.md`). A constructor carries EVERY bit of its word that the
row's match does not fix, the ignored ones too, so that encoding is the inverse of decoding. -/

namespace Sys2Proof

inductive Instr where
  /-- `P_NOP`, `op = 00` (R79). `data` is ignored (R63). -/
  | pNop (data : BitVec 32)
  /-- `P_PUSH pin, dt`, `op = 01` (R80): `pin = data[15:0]`, `dt = data[31:16]` (R61). -/
  | pPush (pin dt : Half)
  /-- `P_SET_WR v`, `op = 10` (R81): `v = data[8:0]`; `data[31:9]` is ignored (R62). -/
  | pSetWr (ignored : BitVec 23) (v : Cursor)
  /-- The reserved command, `op = 11` (R82). `data` is ignored (R63). -/
  | pReserved (data : BitVec 32)
  /-- `E_LOW`, `pin_value = 0x0001` (R104): `dt` is a low-phase width. -/
  | eLow (dt : Half)
  /-- `E_HIGH`, `pin_value = 0x0000` (R105): `dt` is a high-phase width. -/
  | eHigh (dt : Half)
  /-- `E_SKIP`, any other `pin_value` (R66, R106); `entry[31:16]` is ignored. -/
  | eSkip (ignored : Half) (pin : Half)
  deriving DecidableEq, Repr

end Sys2Proof
end

