-- ==== Sys2Proof/WellFormed.lean ====
section
/-! DEFINITION. WellFormed.lean: which terms of `Instr` stand for a word. Only `E_SKIP` has a bound: it is the
fallback row, selected exactly when `pin_value` is neither 0x0000 nor 0x0001 (R66, decision D9). -/

namespace Sys2Proof

/-- A `pin_value` of the SKIP class: 0x0002 to 0xFFFF (R66). -/
def isSkipPin (pin : Half) : Bool := pin != 0 && pin != 1

/-- The well-formed instructions: those some word of their format decodes to. -/
def Instr.wellFormed : Instr → Bool
  | .pNop _ => true
  | .pPush _ _ => true
  | .pSetWr _ _ => true
  | .pReserved _ => true
  | .eLow _ => true
  | .eHigh _ => true
  | .eSkip _ pin => isSkipPin pin

end Sys2Proof
end

