-- ==== Sys2Proof/Decode.lean ====
section
/-! DEFINITION. Decode.lean: the two encoded words of the block (`30_encoding.md` sections 2 and 3), their decoder,
total on every word, and the encoder written from the same tables; then the same on bytes, rejecting by name what is
no word of the format, and the host's view of a table word. -/

namespace Sys2Proof

/-- The two instruction formats of the opcode table (R59, R64). -/
inductive Format where
  | pcmd
  | entry
  deriving DecidableEq, Repr

/-- A word of one of the two formats. -/
inductive EncodedWord where
  /-- `{p_cmd[1:0], p_data[31:0]}` (R59). -/
  | pcmd (w : Command)
  /-- A ring entry (R64). -/
  | entry (w : Entry)
  deriving DecidableEq, Repr

/-- Why bytes are no instruction of a format. -/
inductive DecodeError where
  /-- Fewer bytes than the format's one fixed length (R58). -/
  | truncated
  /-- A bit above bit 33 of a command: the port has 34 wires (R39, R59; DESIGN CHOICE, log entry 12). -/
  | commandTooWide
  deriving DecidableEq, Repr

/-! ## Fields -/

/-- `pin_value = entry[15:0]` (R65). -/
def entryPin (e : Entry) : Half := e.extractLsb' 0 16

/-- `delta_t = entry[31:16]` (R65). -/
def entryDt (e : Entry) : Half := e.extractLsb' 16 16

/-- `{dt[15:0], pin[15:0]}` (R64). -/
def entryWord (pin dt : Half) : Entry := dt ++ pin

/-- `p_cmd[1:0]`, bits 33:32 (R59). -/
def commandOp (w : Command) : BitVec 2 := w.extractLsb' 32 2

/-- `p_data[31:0]`, bits 31:0 (R59). -/
def commandData (w : Command) : BitVec 32 := w.extractLsb' 0 32

/-- `{op, data}` (R59). -/
def commandWord (op : BitVec 2) (data : BitVec 32) : Command := op ++ data

/-! ## Words -/

/-- The producer command a 34-bit word selects, by exact match of `op` (R60). -/
def decodeCommand (w : Command) : Instr :=
  let data := commandData w
  if commandOp w = 0 then .pNop data
  else if commandOp w = 1 then .pPush (entryPin data) (entryDt data)
  else if commandOp w = 2 then .pSetWr (data.extractLsb' 9 23) (data.extractLsb' 0 9)
  else .pReserved data

/-- The class of a ring entry, by exact comparison of the whole `pin_value` (R66). -/
def decodeEntry (e : Entry) : Instr :=
  if entryPin e = 1 then .eLow (entryDt e)
  else if entryPin e = 0 then .eHigh (entryDt e)
  else .eSkip (entryDt e) (entryPin e)

/-- Every word of either format decodes (R70). -/
def decode : EncodedWord → Instr
  | .pcmd w => decodeCommand w
  | .entry w => decodeEntry w

/-- The word of an instruction, from the same tables (R59 to R66, and the opcode map of section 10). -/
def encode : Instr → EncodedWord
  | .pNop data => .pcmd (commandWord 0 data)
  | .pPush pin dt => .pcmd (commandWord 1 (entryWord pin dt))
  | .pSetWr ignored v => .pcmd (commandWord 2 (ignored ++ v))
  | .pReserved data => .pcmd (commandWord 3 data)
  | .eLow dt => .entry (entryWord 1 dt)
  | .eHigh dt => .entry (entryWord 0 dt)
  | .eSkip ignored pin => .entry (entryWord pin ignored)

/-! ## Bytes -/

/-- An instruction's format. -/
def Instr.format : Instr → Format
  | .pNop _ => .pcmd
  | .pPush _ _ => .pcmd
  | .pSetWr _ _ => .pcmd
  | .pReserved _ => .pcmd
  | .eLow _ => .entry
  | .eHigh _ => .entry
  | .eSkip _ _ => .entry

/-- The fixed length of a format in whole bytes (R58): 34 bits need five, 32 bits four. -/
def Format.byteCount : Format → Nat
  | .pcmd => 5
  | .entry => 4

/-- The `n` low bytes of a number, least significant first (the byte order of R46). -/
def bytesOfNat : Nat → Nat → List Byte
  | 0, _ => []
  | n + 1, w => BitVec.ofNat 8 w :: bytesOfNat n (w / 256)

/-- The number whose bytes these are, least significant first. -/
def natOfBytes : List Byte → Nat
  | [] => 0
  | b :: bs => b.toNat + 256 * natOfBytes bs

/-- The bytes of a word; for a command the spec gives no byte view (DESIGN CHOICE, log entry 12). -/
def EncodedWord.bytes : EncodedWord → List Byte
  | .pcmd w => bytesOfNat 5 w.toNat
  | .entry w => bytesOfNat 4 w.toNat

/-- The word of a format that the first bytes of a list hold, and the bytes after it. -/
def takeWord : Format → List Byte → Except DecodeError (EncodedWord × List Byte)
  | .pcmd, bs =>
    if bs.length < 5 then .error .truncated
    else
      let w := natOfBytes (bs.take 5)
      if 2 ^ 34 ≤ w then .error .commandTooWide
      else .ok (.pcmd (BitVec.ofNat 34 w), bs.drop 5)
  | .entry, bs =>
    if bs.length < 4 then .error .truncated
    else .ok (.entry (BitVec.ofNat 32 (natOfBytes (bs.take 4))), bs.drop 4)

/-- The instruction at the head of a list of bytes and the bytes after it, or the name of what is wrong. -/
def decodeBytes (f : Format) (bs : List Byte) : Except DecodeError (Instr × List Byte) :=
  match takeWord f bs with
  | .ok (w, rest) => .ok (decode w, rest)
  | .error e => .error e

/-! ## The host's view of a table row -/

/-- The format of a row of the opcode table by its width in whole bytes: 34 bits are 40 with the padding of the
fifth byte, an entry is 32. -/
def tableFormat (nbits : Nat) : Format := if nbits ≤ 32 then .entry else .pcmd

/-- The first `nbits` bits of `w`, laid out as bytes, with zeros up to the format's length. -/
def tableBytes (nbits w : Nat) : List Byte :=
  bytesOfNat (tableFormat nbits).byteCount (w % 2 ^ nbits)

/-- The instruction the decoder reads from a table row's bits; none where it refuses. -/
def decodeTableWord (nbits w : Nat) : Option Instr :=
  match decodeBytes (tableFormat nbits) (tableBytes nbits w) with
  | .ok (i, _) => some i
  | .error _ => none

end Sys2Proof
end

