-- ==== Sys2Proof/Config.lean ====
section
/-! DEFINITION. Config.lean: the parameters of `00_scope.md` section 4 and the values the spec leaves free.
A parameter the spec fixes is a numeral; a parameter or draw it leaves open is an `opaque` constant without a
body, so that no proof can see what it is. -/

namespace Sys2Proof.Config

/-- `CAPACITY` (R6): the ring holds 300 entries. -/
abbrev capacity : Nat := 300

/-- `GRAY_OFFSET = (512 - 300) / 2` (R8). -/
abbrev grayOffset : Nat := 106

/-- `BIT_US` (R11): one bit of the 100,000 bps line is 10 microseconds. -/
abbrev bitUs : Nat := 10

/-- `NWORDS` (R12): one accumulator word for each frame byte. -/
abbrev nWords : Nat := 25

/-- `SLOTS` (R12): bit slots of an accumulator word. -/
abbrev slots : Nat := 12

/-- `FRAME_BITS` (R12): the value of `bit_offset` that ends a frame. -/
abbrev frameBits : Nat := 300

/-- `LOW_LIMIT` (R12): the slot a low phase may not pass. -/
abbrev lowLimit : Nat := 10

/-- `BREAK` (R12): the remainder that a break must exceed. -/
abbrev breakLimit : Nat := 12

/-- The default of `SYNC_STAGES` (R9). The depth itself is open (at least 2): the chains of
`Machine/SyncChain.lean` may have any depth, and no rule of the model depends on it. -/
abbrev defaultSyncStages : Nat := 2

/-- `RAM_INIT` (R14, decision D2): what the 300 ring entries hold at power-up, constrained in no way.
A FREE VALUE of the entry's index (DESIGN CHOICE, log entry 1). -/
opaque ramInit : Nat → Entry

/-- `draw(32 bits)` (R16, R103, R155): the n-th unconstrained entry the machine draws. A FREE VALUE of the
draw counter `State.draws` (DESIGN CHOICE, log entry 2). -/
opaque freeEntry : Nat → Entry

/-- `RING_BASE / 4` (R44): `RING_BASE` is a platform parameter the spec leaves open, aligned to 4 bytes. A FREE
VALUE; only the byte view of R46 uses it (DESIGN CHOICE, log entry 3). -/
opaque ringBaseWord : Nat

/-- `RING_BASE` (R44): 4-byte aligned by construction. -/
def ringBase : Nat := 4 * ringBaseWord

end Sys2Proof.Config
end

