-- ==== Sys2Proof/Machine/Gray.lean ====
section
/-! DEFINITION. Machine/Gray.lean: the cursor code of `30_encoding.md` section 8 and the cursor's increment. -/

namespace Sys2Proof.Machine

/-- The reflected binary Gray code on 9 bits (R72). -/
def gray (x : BitVec 9) : Code := x ^^^ (x >>> 1)

/-- The inverse of `gray` (R72): bit `i` is the XOR of the code's bits `i` to 8, which is what
`b[8] = g[8]`, `b[i] = b[i+1] ^ g[i]` gives. -/
def ungray (g : Code) : BitVec 9 :=
  (List.range 9).foldl (fun b k => b ^^^ (g >>> k)) 0

/-- `E(v) = gray((v + 106) mod 512)` (R73). -/
def cursorEncode (v : Cursor) : Code := gray (v + BitVec.ofNat 9 Config.grayOffset)

/-- `D(g) = (ungray(g) + 406) mod 512` (R74). -/
def cursorDecode (g : Code) : Cursor := ungray g - BitVec.ofNat 9 Config.grayOffset

/-- A valid cursor: an index of the ring (R43). -/
def cursorValid (v : Cursor) : Bool := decide (v.toNat < Config.capacity)

/-- `(v + 1) mod 300` (R80, R107). -/
def cursorNext (v : Cursor) : Cursor := BitVec.ofNat 9 ((v.toNat + 1) % Config.capacity)

/-- The bitwise mixture of an old and a new code: bit by bit the new one where the mask is set (R90). -/
def mixCodes (old new m : Code) : Code := (old &&& ~~~m) ||| (new &&& m)

end Sys2Proof.Machine
end

