-- ==== Sys2Proof/Machine/State.lean ====
section
/-! DEFINITION. Machine/State.lean: all the state the spec gives the block (`10_state.md`), as plain data; the
inputs of the block (`10_state.md` section 7) as a schedule of agent steps the machine takes in order (R20, R71);
the reasons a step can stop; the state after reset (R154). -/

namespace Sys2Proof.Machine

/-! ## The inputs -/

/-- The two clock domains (R13). -/
inductive Domain where
  | producer
  | consumer
  deriving DecidableEq, Repr

/-- What a synchroniser step samples: the choice of R89 and R90, made by the schedule. -/
inductive SyncChoice where
  /-- `SYNC` with no index: a settled sample of the last element of the history (R71, R89). -/
  | latest
  /-- `SYNC` at index `k`: a settled sample (R89). -/
  | settled (k : Nat)
  /-- `SYNC_MIX k, m`: an aperture sample between elements `k-1` and `k`, bit by bit by the mask (R90). -/
  | mix (k : Nat) (m : Code)
  deriving DecidableEq, Repr

/-- One line of a schedule (R71, R77): one agent's step. The schedule is the block's input: it says which agent is
at its clock edge next (R20) and carries what that agent samples from outside (DESIGN CHOICE, log entry 4). -/
inductive Event where
  /-- `P`: a `clk_p` edge with this word on `{p_cmd, p_data}` (R39, R78). -/
  | p (command : Command)
  /-- `SW: SYNC` or `SW: SYNC_MIX` (R89, R90). -/
  | sw (choice : SyncChoice)
  /-- `C: STEP`, a `clk_c` edge (R97). -/
  | c
  /-- `C: DRAIN`: `C: STEP` repeated until the consumer holds (R77, R109). -/
  | drain
  /-- `SR: SYNC` or `SR: SYNC_MIX` (R92). -/
  | sr (choice : SyncChoice)
  /-- `RESET`, with the command that was on the producer port when `rst` rose (R154, R155; DEDUCED, log entry 16). -/
  | reset (port : Command)
  /-- `rst` rises and stays high: the reset of R154, with both domains held in reset (R153, R159). -/
  | rstRise (port : Command)
  /-- The domain's reset synchroniser releases at its own clock edge (R153, R156). -/
  | rstRelease (d : Domain)
  /-- A reset of one domain's state alone (R156). -/
  | resetOne (d : Domain)
  deriving DecidableEq, Repr

/-! ## The ghost log -/

/-- The three checks a frame word must pass (R131 to R133). -/
inductive WordCheck where
  | start
  | stop
  | parity
  deriving DecidableEq, Repr

/-- An entry of the `causes` log (R38, R140), with what the table of R140 says it records. -/
inductive Cause where
  /-- Code 1: a width that rounds to no bit (R113). -/
  | zeroWidth (lowW highW : Half)
  /-- Code 2: a low phase past slot 9 (R115), with `bit_offset` before the pair (DEDUCED, log entry 14). -/
  | lowOverrun (bitOffset l : Nat)
  /-- Code 3: a break before the frame's end (R120), with `bit_offset` after the high phase (DEDUCED, log entry 14). -/
  | midframeBreak (bitOffset rem : Nat)
  /-- Code 4: slot 300 reached without a break (R119). -/
  | frameOverrun (rem : Nat)
  /-- Code 5: the first failing word and, in it, the first failing check (R135, R144). -/
  | invalidFrame (word : Nat) (check : WordCheck)
  /-- Code 6: slot 300 reached with a break (R118), and whether the frame was valid. -/
  | complete (ok : Bool)
  /-- Code 32: a `P_PUSH` with a corrupt write cursor, and that cursor (R80). -/
  | pushDropped (w : Cursor)
  deriving DecidableEq, Repr

/-- Why the consumer has no step (R98 to R100); not logged, since a hold changes nothing (R140; DEDUCED, log entry
15). -/
inductive HoldReason where
  /-- Code 16: `rd == wc_seen`. -/
  | empty
  /-- Code 17: `rd != wc_seen`, and one of them is 300 or more. -/
  | cursorInvalid
  deriving DecidableEq, Repr

/-! ## The state -/

/-- The ring's bytes that have been written since power-up, in the byte view of R46 with addresses counted from
`RING_BASE`: byte `b` of entry `i` is at `4 * i + b`. Addresses strictly rise (DESIGN CHOICE, log entry 6). -/
abbrev Memory := List Host.Cell

structure State where
  /-- `ring[0..299]` (R21), as the bytes written since power-up; the rest is `RAM_INIT`. -/
  ring : Memory
  /-- `Wg`: the write cursor in Gray code (R22). -/
  wg : Code
  /-- `Rs[SYNC_STAGES]`: the last stage of the read-cursor synchroniser (R23, R88; log entry 9). -/
  rs : Code
  /-- `Ws[SYNC_STAGES]`: the last stage of the write-cursor synchroniser (R25, R88; log entry 9). -/
  ws : Code
  /-- `rd`: the read cursor (R27). -/
  rd : Cursor
  /-- `Rg`: the read cursor in Gray code (R28). -/
  rg : Code
  /-- `pending_low`: the last low width not yet paired (R29). -/
  pendingLow : Half
  /-- `acc[0..24]`: the accumulator (R30). -/
  acc : Acc
  /-- `bit_offset` (R31). -/
  bitOffset : BitVec 9
  /-- `frame_out[0..24]`: the last frame emitted (R32). -/
  frameOut : Frame
  /-- `frame_valid`: the strobe of the `clk_c` cycle after an emitting step (R32, R110). -/
  frameValid : Bool
  /-- `frames`: every frame emitted since reset, oldest first (R33). -/
  frames : List Frame
  /-- `Hw`: the values `Wg` has taken since reset, oldest first (R38). -/
  hw : List Code
  /-- `jw`: the index in `Hw` that the consumer's view last took (R38). -/
  jw : Nat
  /-- `Hr`: the values `Rg` has taken since reset, oldest first (R38). -/
  hr : List Code
  /-- `jr`: the index in `Hr` that the producer's view last took (R38). -/
  jr : Nat
  /-- `causes`: the ghost log of protocol resets and dropped pushes (R38, R140). -/
  causes : List Cause
  /-- The producer domain is held in reset: its reset synchroniser has not released (R153, R159; DEDUCED, log entry
  11). -/
  rstP : Bool
  /-- The consumer domain is held in reset (R153, R159; DEDUCED, log entry 11). -/
  rstC : Bool
  /-- The inputs still to come: the agent steps the machine takes next, in this order (R71; DESIGN CHOICE, log entry
  4). -/
  schedule : List Event
  /-- THE MODEL'S OWN: how many entries have been drawn (R16); the next draw is `Config.freeEntry draws`. -/
  draws : Nat
  deriving DecidableEq, Repr

/-! ## How a step can stop -/

/-- The hardware has no fault state, so no step of the model faults (R139, R152): there is no constructor. -/
inductive Fault where
  deriving DecidableEq, Repr

/-- What the model refuses. Each is safe: a refused schedule has no behaviour in the model, so nothing can be proved
of it. -/
inductive Refusal where
  /-- An instruction without a meaning yet; raised by `exec` alone. Safe. -/
  | notModelled (mnemonic : String)
  /-- `REFUSED_RESERVED`, code 48, with the command word (R69, R82, R140, R152); raised by the meaning of
  `P_RESERVED`. Safe: the spec tells a model to refuse it, so that no claim rests on what it does (log entry 7). -/
  | reservedCommand (word : Command)
  /-- A synchroniser line of the schedule names an index that R89 or R90 does not let it choose, so it is a step of
  no agent; raised by the fetch of a schedule line. Safe (log entry 10). -/
  | noSuchSample (choice : SyncChoice)
  /-- A reset of one domain's state alone (R156); raised by the fetch of a schedule line. Safe (log entry 11). -/
  | partialReset (d : Domain)
  deriving DecidableEq, Repr

/-! ## Reset -/

/-- `E(0) = 0x05F`, what every cursor code resets to (R22, R154). -/
abbrev resetCode : Code := 0x05F

/-- The state after `RESET` at power-up (R154): every register at its reset value, no entry written, nothing scheduled
and nothing drawn. -/
def State.reset : State where
  ring := []
  wg := resetCode
  rs := resetCode
  ws := resetCode
  rd := 0
  rg := resetCode
  pendingLow := 0
  acc := Vector.replicate 25 0
  bitOffset := 0
  frameOut := Vector.replicate 25 0
  frameValid := false
  frames := []
  hw := [resetCode]
  jw := 0
  hr := [resetCode]
  jr := 0
  causes := []
  rstP := false
  rstC := false
  schedule := []
  draws := 0

end Sys2Proof.Machine
end

