-- ==== Sys2Proof/Machine/Ops.lean ====
section
/-! DEFINITION. Machine/Ops.lean: the named operations over the ring and the registers that the meanings share:
ring access (`20_memory.md`), the two cursors and their histories, the protocol reset (the block's counterpart of
taking an exception, R141) and the strobe. -/

namespace Sys2Proof.Machine

/-! ## Bytes of the ring -/

/-- The bytes of the ring's address space, counted from `RING_BASE` (R42, R44). -/
abbrev ringBytes : Nat := 4 * Config.capacity

/-- The canonical form: addresses strictly rise. An unlisted address has no written byte, so no listed byte equals
what an unlisted address holds. -/
def Memory.rising : Memory → Bool
  | [] => true
  | [_] => true
  | c :: d :: rest => decide (c.1 < d.1) && Memory.rising (d :: rest)

/-- The canonical form inside the address space. -/
def Memory.wf (m : Memory) : Bool := m.rising && m.all fun c => decide (c.1 < ringBytes)

/-- The byte written at an address since power-up; none where nothing has been written. -/
def Memory.written : Memory → Nat → Option Byte
  | [], _ => none
  | c :: rest, a => if c.1 = a then some c.2 else Memory.written rest a

/-- Write one byte, keeping the canonical form. -/
def Memory.store : Memory → Nat → Byte → Memory
  | [], a, b => [(a, b)]
  | c :: rest, a, b =>
    if a < c.1 then (a, b) :: c :: rest
    else if a = c.1 then (a, b) :: rest
    else c :: Memory.store rest a b

/-- Byte `b` of an entry: little-endian (R46). -/
def entryByte (e : Entry) (b : Nat) : Byte := e.extractLsb' (8 * b) 8

/-- What an unlisted address reads as: its byte of `RAM_INIT` (R14, R21). -/
def unwrittenByte (a : Nat) : Byte := entryByte (Config.ramInit (a / 4)) (a % 4)

/-- Read one byte of the ring (R46, R102). -/
def Memory.readByte (m : Memory) (a : Nat) : Byte := (m.written a).getD (unwrittenByte a)

/-- `RingRead(i)` (R16, R45, R46): the whole entry, from its four bytes. -/
def ringRead (m : Memory) (i : Nat) : Entry :=
  m.readByte (4 * i + 3) ++ m.readByte (4 * i + 2) ++ m.readByte (4 * i + 1) ++ m.readByte (4 * i)

/-- `RingWrite(i, e)` (R16, R45, R46): the whole entry, as its four bytes. -/
def ringWrite (m : Memory) (i : Nat) (e : Entry) : Memory :=
  (((m.store (4 * i) (entryByte e 0)).store (4 * i + 1) (entryByte e 1)).store
    (4 * i + 2) (entryByte e 2)).store (4 * i + 3) (entryByte e 3)

/-- The ring in a platform's byte address space (R44, R46): the byte at `RING_BASE + a`, where the ring has one. -/
def platformByte (m : Memory) (address : Nat) : Option Byte :=
  if Config.ringBase ≤ address ∧ address < Config.ringBase + ringBytes then
    some (m.readByte (address - Config.ringBase))
  else none

/-! ## The cursors -/

/-- The binary write cursor `W = D(Wg)` (R22). -/
def State.writeCursor (s : State) : Cursor := cursorDecode s.wg

/-- `Wg <- g`, with the new value appended to `Hw` (R38, R80, R81). -/
def State.setWg (s : State) (g : Code) : State := { s with wg := g, hw := s.hw ++ [g] }

/-- The cursor advance of R107: `rd <- (rd + 1) mod 300`, `Rg <- E(rd)`, and the new `Rg` appended to `Hr` (R97). -/
def State.advanceRead (s : State) : State :=
  { s with
    rd := cursorNext s.rd
    rg := cursorEncode (cursorNext s.rd)
    hr := s.hr ++ [cursorEncode (cursorNext s.rd)] }

/-- The consumer's view takes an element of `Hw` (R89, R90): the last stage and the index taken. -/
def State.setWriteView (s : State) (g : Code) (k : Nat) : State := { s with ws := g, jw := k }

/-- The producer's view takes an element of `Hr` (R92). -/
def State.setReadView (s : State) (g : Code) (k : Nat) : State := { s with rs := g, jr := k }

/-! ## The decoder's registers and the strobe -/

/-- `pending_low <- w` (R29, R104, R105). -/
def State.setPendingLow (s : State) (w : Half) : State := { s with pendingLow := w }

/-- Append to the ghost log (R38). -/
def State.log (s : State) (cause : Cause) : State := { s with causes := s.causes ++ [cause] }

/-- The accumulator of the decoder's initial state (R30). -/
def accZero : Acc := Vector.replicate 25 0

/-- `reset_decoder(cause)` (R122), the protocol reset: `acc` and `bit_offset` go to zero and the cause is logged. It
saves nothing, changes no mode and sends control nowhere, and there is no return from it (R141, R142). -/
def State.resetDecoder (s : State) (cause : Cause) : State :=
  { s with acc := accZero, bitOffset := 0, causes := s.causes ++ [cause] }

/-- The decoder stays in `Accumulating(bit_offset)` with this accumulator (R121). -/
def State.accumulate (s : State) (acc : Acc) (bitOffset : Nat) : State :=
  { s with acc := acc, bitOffset := BitVec.ofNat 9 bitOffset }

/-- `frame_valid` falls at the `clk_c` edge that ends the strobe's cycle (R32, R110; DEDUCED, log entry 5). -/
def State.endStrobe (s : State) : State := { s with frameValid := false }

/-- The emission of R136: `frame_out <- f`, `emit(f)`, and `frame_valid` is 1 in the cycle that follows. -/
def State.emit (s : State) (f : Frame) : State :=
  { s with frameOut := f, frames := s.frames ++ [f], frameValid := true }

/-! ## Inputs -/

/-- The inputs still to come. -/
def State.withSchedule (s : State) (schedule : List Event) : State := { s with schedule := schedule }

/-- `draw(32 bits)` (R16): the next unconstrained entry. -/
def State.drawn (s : State) : Entry := Config.freeEntry s.draws

/-- The draw has been taken. -/
def State.afterDraw (s : State) : State := { s with draws := s.draws + 1 }

end Sys2Proof.Machine
end

