-- ==== Sys2Proof/Machine/Operands.lean ====
section
/-! DEFINITION. Machine/Operands.lean: how a width becomes a bit count and how a bit position in the frame is taken
apart (`43_bit_decoder.md` R112, R114), and the low phase's slots (R116). -/

namespace Sys2Proof.Machine

/-- `bits(w) = (zext_17(w) + 5) div 10` (R112): the nearest whole number of bit times, halves up. -/
def bits (w : Half) : Nat := (w.toNat + Config.bitUs / 2) / Config.bitUs

/-- `bi = bit_offset div 12` (R114): the accumulator word. -/
def wordIndex (bitOffset : Nat) : Nat := bitOffset / Config.slots

/-- `bw = bit_offset mod 12` (R114): the slot in that word. -/
def slotIndex (bitOffset : Nat) : Nat := bitOffset % Config.slots

/-- `((1 << L) - 1) << bw` (R116), formed only when `bw + L <= 10`. -/
def lowMask (bw l : Nat) : AccWord := BitVec.ofNat 12 (((1 <<< l) - 1) <<< bw)

/-- `acc[bi]`; there is no word past 24, and none is read in a reachable state (R114, R125; DESIGN CHOICE, log entry
13). -/
def accWord (acc : Acc) (bi : Nat) : AccWord := acc[bi]?.getD 0

/-- `acc[bi] <- acc[bi] | mask` (R116). -/
def orLow (acc : Acc) (bi bw l : Nat) : Acc := acc.setIfInBounds bi (accWord acc bi ||| lowMask bw l)

end Sys2Proof.Machine
end

