-- ==== Sys2Proof/Machine/Flags.lean ====
section
/-! DEFINITION. Machine/Flags.lean: the block has no flags or condition codes (R36); here are the outputs that are
pure functions of the state (`10_state.md` R24, R26, R34, `30_encoding.md` R68), the consumer's two cursor checks
(`42_consumer.md` R98 to R100) and the cause codes of `60_exceptions.md` R140. -/

namespace Sys2Proof.Machine

/-- `wc_seen = D(Ws[SYNC_STAGES])` (R26): the consumer's view of the write cursor. -/
def State.wcSeen (s : State) : Cursor := cursorDecode s.ws

/-- `rd_seen_p = D(Rs[SYNC_STAGES])` (R24): the producer's view of the read cursor. -/
def State.rdSeenP (s : State) : Cursor := cursorDecode s.rs

/-- `wc_invalid` (R34). -/
def State.wcInvalid (s : State) : Bool :=
  s.rd != s.wcSeen && (!cursorValid s.wcSeen || !cursorValid s.rd)

/-- The consumer's checks in their order (R97, R143): EMPTY first, then CURSOR_INVALID; none when it has a step. -/
def State.holdReason (s : State) : Option HoldReason :=
  if s.rd = s.wcSeen then some .empty
  else if cursorValid s.wcSeen && cursorValid s.rd then none
  else some .cursorInvalid

/-- The lapping race of R103: the producer's own cursor is the index being read. -/
def State.lapping (s : State) : Bool := s.writeCursor == s.rd

/-- The producer's estimate of the unconsumed entries, `(D(Wg) - rd_seen_p) mod 300` (R83). -/
def State.unconsumedEstimate (s : State) : Nat :=
  (s.writeCursor.toNat + Config.capacity - s.rdSeenP.toNat) % Config.capacity

/-- `frame_out[199:0]` (R40, R68): byte `i` is bits `8i+7 : 8i`. -/
def frameBus (f : Frame) : BitVec 200 := BitVec.ofNat 200 (natOfBytes f.toList)

/-- The numeric code of a logged cause (R140). -/
def Cause.code : Cause → Nat
  | .zeroWidth _ _ => 1
  | .lowOverrun _ _ => 2
  | .midframeBreak _ _ => 3
  | .frameOverrun _ => 4
  | .invalidFrame _ _ => 5
  | .complete _ => 6
  | .pushDropped _ => 32

/-- The numeric code of a hold (R140). -/
def HoldReason.code : HoldReason → Nat
  | .empty => 16
  | .cursorInvalid => 17

/-- The numeric code of the reserved command's refusal (R140); the other refusals have none. -/
def Refusal.code : Refusal → Option Nat
  | .reservedCommand _ => some 48
  | .noSuchSample _ => none
  | .partialReset _ => none
  | _ => none

end Sys2Proof.Machine
end

