-- ==== Sys2Proof/Machine/Validator.lean ====
section
/-! DEFINITION. Machine/Validator.lean: the frame validator (`44_frame_validator.md`), a pure function of the
accumulator (R129), and the emission it decides. -/

namespace Sys2Proof.Machine

/-- `inv = ~acc & 0xFFF` (R130). -/
def invert (w : AccWord) : AccWord := ~~~w

/-- Start check (R131): slot 0 is 0 after inversion. -/
def startPasses (inv : AccWord) : Bool := !inv.getLsbD 0

/-- Stop check (R132): slots 10 and 11 are 1 after inversion. -/
def stopPasses (inv : AccWord) : Bool := inv.getLsbD 10 && inv.getLsbD 11

/-- Byte extraction (R134): `inv[8:1]`, slot 1 the least significant bit. -/
def dataByte (inv : AccWord) : Byte := inv.extractLsb' 1 8

/-- `popcount` (R15). -/
def popcount (b : Byte) : Nat := (List.range 8).countP fun k => b.getLsbD k

/-- Parity check (R133): `popcount(inv[8:1]) mod 2 == inv[9]`. -/
def parityPasses (inv : AccWord) : Bool := decide (popcount (dataByte inv) % 2 = (inv.getLsbD 9).toNat)

/-- The first check an accumulator word fails, in the order start, stop, parity (R144); none when it passes all. -/
def wordFailure (w : AccWord) : Option WordCheck :=
  if !startPasses (invert w) then some .start
  else if !stopPasses (invert w) then some .stop
  else if !parityPasses (invert w) then some .parity
  else none

/-- The lowest-index failing word of a list whose first word has index `i`, and its first failing check (R144). -/
def firstFailure : Nat → List AccWord → Option (Nat × WordCheck)
  | _, [] => none
  | i, w :: rest =>
    match wordFailure w with
    | some check => some (i, check)
    | none => firstFailure (i + 1) rest

/-- The 25 bytes `f[i] = inv[i][8:1]` (R134). -/
def frameBytes (acc : Acc) : Frame :=
  ⟨⟨acc.toList.map fun w => dataByte (invert w)⟩, by simp⟩

/-- `validate(acc)` (R129 to R135): the frame when every word passes every check, else the failure the log records. -/
def validate (acc : Acc) : Except (Nat × WordCheck) Frame :=
  match firstFailure 0 acc.toList with
  | some failure => .error failure
  | none => .ok (frameBytes acc)

/-- `validate_and_emit(acc)` (R129, R135, R136), followed by the decoder reset that ends every completion (R118): a
valid frame is emitted whole, an invalid one discarded whole. -/
def State.completeFrame (s : State) (acc : Acc) : State :=
  match validate acc with
  | .ok f => (s.emit f).resetDecoder (.complete true)
  | .error (word, check) => (s.log (.invalidFrame word check)).resetDecoder (.complete false)

end Sys2Proof.Machine
end

