-- ==== Sys2Proof/Machine/Decoder.lean ====
section
/-! DEFINITION. Machine/Decoder.lean: the pulse-to-bit decoder (`43_bit_decoder.md`). What a pulse pair does is
decided by a pure function of the accumulator, the position and the two widths; then the state takes it. -/

namespace Sys2Proof.Machine

/-- What one pulse pair does to the decoder. -/
inductive PulseResult where
  /-- The decoder stays in `Accumulating(bit_offset)` (R121). -/
  | accumulate (acc : Acc) (bitOffset : Nat)
  /-- A protocol reset with its cause (R113, R115, R119, R120). -/
  | violation (cause : Cause)
  /-- The frame's 300 slots are filled and followed by a break (R118): this accumulator goes to the validator. -/
  | complete (acc : Acc)
  deriving DecidableEq, Repr

/-- After the high phase (R118 to R121): `bitOffset` may be 300 here (R124). -/
def afterHigh (acc : Acc) (bitOffset rem : Nat) : PulseResult :=
  if bitOffset = Config.frameBits then
    if Config.breakLimit < rem then .complete acc
    else .violation (.frameOverrun rem)
  else if Config.breakLimit < rem then .violation (.midframeBreak bitOffset rem)
  else .accumulate acc bitOffset

/-- The high phase of `h` slots after a low phase that ended at slot `bw2` of word `bi` (R117): it ends inside the
word, or is capped at the word's end with the rest as the remainder. -/
def highPhase (acc : Acc) (bi bw2 h : Nat) : PulseResult :=
  if bw2 + h < Config.slots then afterHigh acc (Config.slots * bi + bw2 + h) 0
  else afterHigh acc (Config.slots * (bi + 1)) (bw2 + h - Config.slots)

/-- `process_pulse(low_w, high_w)` (R111) on `acc` and `bit_offset`: both counts first (R113), then the low phase
(R115, R116), then the high phase. -/
def pulse (acc : Acc) (bitOffset : Nat) (lowW highW : Half) : PulseResult :=
  if bits lowW = 0 ∨ bits highW = 0 then .violation (.zeroWidth lowW highW)
  else if Config.lowLimit < slotIndex bitOffset + bits lowW then .violation (.lowOverrun bitOffset (bits lowW))
  else
    highPhase (orLow acc (wordIndex bitOffset) (slotIndex bitOffset) (bits lowW))
      (wordIndex bitOffset) (slotIndex bitOffset + bits lowW) (bits highW)

/-- The state takes what a pulse pair does. -/
def State.applyPulse (s : State) : PulseResult → State
  | .accumulate acc bitOffset => s.accumulate acc bitOffset
  | .violation cause => s.resetDecoder cause
  | .complete acc => s.completeFrame acc

/-- `process_pulse(low_w, high_w)` (R111). -/
def State.processPulse (s : State) (lowW highW : Half) : State :=
  s.applyPulse (pulse s.acc s.bitOffset.toNat lowW highW)

end Sys2Proof.Machine
end

