-- ==== Sys2Proof/Machine/Consumer.lean ====
section
/-! DEFINITION. Machine/Consumer.lean: the meanings of the entry classes (`42_consumer.md` section 2). Each is what
the consumer step of R97 does with an entry of its class once both cursor checks have passed, at one `clk_c` edge: the
last strobe ends there (R32, R110), and the cursor advances (R107). -/

namespace Sys2Proof.Machine

/-- `E_LOW` (R104): `pending_low <- dt`, then the cursor advance. -/
def execELow (dt : Half) (s : State) : Host.Outcome State Fault Refusal :=
  .next (s.endStrobe.setPendingLow dt).advanceRead

/-- `E_HIGH` (R105): the pending low width is taken and cleared, the pair goes to the decoder, then the cursor
advance. -/
def execEHigh (dt : Half) (s : State) : Host.Outcome State Fault Refusal :=
  .next ((s.endStrobe.setPendingLow 0#16).processPulse s.pendingLow dt).advanceRead

/-- `E_SKIP` (R106): the cursor advance only. -/
def execESkip (_ignored _pin : Half) (s : State) : Host.Outcome State Fault Refusal :=
  .next s.endStrobe.advanceRead

end Sys2Proof.Machine
end

