-- ==== Sys2Proof/Machine/Producer.lean ====
section
/-! DEFINITION. Machine/Producer.lean: the meanings of the producer commands (`40_producer.md`). Each takes one
`clk_p` edge and never waits on the consumer (R78). -/

namespace Sys2Proof.Machine

/-- `P_NOP` (R79): nothing changes; `data` is ignored (R63). -/
def execPNop (_data : BitVec 32) (s : State) : Host.Outcome State Fault Refusal :=
  .next s

/-- A push at a valid write cursor `w` (R80): the entry at `w` and the cursor after it, in one step (R48, R51). -/
def State.push (s : State) (w : Cursor) (e : Entry) : State :=
  { s with ring := ringWrite s.ring w.toNat e }.setWg (cursorEncode (cursorNext w))

/-- `P_PUSH pin, dt` (R80): dropped, and logged, when the write cursor is corrupt. -/
def execPPush (pin dt : Half) (s : State) : Host.Outcome State Fault Refusal :=
  if cursorValid s.writeCursor then .next (s.push s.writeCursor (entryWord pin dt))
  else .next (s.log (.pushDropped s.writeCursor))

/-- `P_SET_WR v` (R81): any cursor, the corrupt ones too; `data[31:9]` is ignored (R62). -/
def execPSetWr (_ignored : BitVec 23) (v : Cursor) (s : State) : Host.Outcome State Fault Refusal :=
  if cursorEncode v = s.wg then .next s
  else .next (s.setWg (cursorEncode v))

/-- The reserved command (R69, R82): the model refuses the schedule, with the command word (R140, code 48). -/
def execPReserved (data : BitVec 32) (_s : State) : Host.Outcome State Fault Refusal :=
  .refused (.reservedCommand (commandWord 3 data))

end Sys2Proof.Machine
end

