-- ==== Sys2Proof/Machine/Dispatch.lean ====
section
/-! DEFINITION. Machine/Dispatch.lean: one arm for each constructor of `Instr`, each a direct call of its meaning. -/

namespace Sys2Proof.Machine

def exec (i : Instr) (s : State) : Host.Outcome State Fault Refusal :=
  match i with
  -- producer commands (40_producer.md)
  | .pNop data => Sys2Proof.Machine.execPNop data s
  | .pPush pin dt => Sys2Proof.Machine.execPPush pin dt s
  | .pSetWr ignored v => Sys2Proof.Machine.execPSetWr ignored v s
  | .pReserved data => Sys2Proof.Machine.execPReserved data s
  -- entry classes (42_consumer.md)
  | .eLow dt => Sys2Proof.Machine.execELow dt s
  | .eHigh dt => Sys2Proof.Machine.execEHigh dt s
  | .eSkip ignored pin => Sys2Proof.Machine.execESkip ignored pin s

end Sys2Proof.Machine
end

