-- ==== Sys2Proof/Machine/Reset.lean ====
section
/-! DEFINITION. Machine/Reset.lean: the reset of `70_reset_and_hazards.md` section 1. -/

namespace Sys2Proof.Machine

/-- The registers and the ghost state at their reset values; the ring, the inputs to come and the draw counter are
not reset (R154). -/
def State.resetRegisters (s : State) : State :=
  { State.reset with
    ring := s.ring
    rstP := s.rstP
    rstC := s.rstC
    schedule := s.schedule
    draws := s.draws }

/-- The index of an entry whose write `rst` cuts (R155): that of a `P_PUSH` on the port of a producer domain out of
reset, at a valid write cursor. -/
def State.cutIndex (s : State) (port : Command) : Option Nat :=
  match decodeCommand port with
  | .pPush _ _ => if !s.rstP && cursorValid s.writeCursor then some s.writeCursor.toNat else none
  | _ => none

/-- `rst` rises (R153, R154): the registers take their reset values at once, no command or consumer step takes place
at that edge, and an entry whose write is cut becomes a draw (R155). -/
def State.riseReset (s : State) (port : Command) : State :=
  match s.cutIndex port with
  | some w => ({ s with ring := ringWrite s.ring w s.drawn }.afterDraw).resetRegisters
  | none => s.resetRegisters

/-- `RESET` (R154): `rst` rises and is released, as if at once (R159). -/
def State.pulseReset (s : State) (port : Command) : State :=
  { s.riseReset port with rstP := false, rstC := false }

/-- `rst` rises and stays: both domains are held in reset (R153, R159). -/
def State.holdReset (s : State) (port : Command) : State :=
  { s.riseReset port with rstP := true, rstC := true }

/-- One domain's reset synchroniser releases (R153, R156). -/
def State.releaseReset (s : State) : Domain → State
  | .producer => { s with rstP := false }
  | .consumer => { s with rstC := false }

end Sys2Proof.Machine
end

