-- ==== Sys2Proof/Machine/Sync.lean ====
section
/-! DEFINITION. Machine/Sync.lean: the abstract step of the cursor synchronisers (`41_cdc_sync.md` section 2), once
for both directions, and the two agents that take it. -/

namespace Sys2Proof.Machine

/-- The sample of a history `h` whose last taken element is `j`: the code the last stage takes and the new index;
none where the choice is not one that R89 or R90 allows.
A settled sample takes an element from `j` on (R89); an aperture sample takes, bit by bit, the old or the new code of
a change after `j` (R90). -/
def sample (h : List Code) (j : Nat) : SyncChoice → Option (Code × Nat)
  | .latest => if j ≤ h.length - 1 then h[h.length - 1]?.map fun g => (g, h.length - 1) else none
  | .settled k => if j ≤ k then h[k]?.map fun g => (g, k) else none
  | .mix k m =>
    if j < k then
      match h[k - 1]?, h[k]? with
      | some old, some new => some (mixCodes old new m, k)
      | _, _ => none
    else none

/-- The `SW` step (R89, R90). -/
def State.sampleWrite (s : State) (choice : SyncChoice) : Option State :=
  (sample s.hw s.jw choice).map fun (g, k) => s.setWriteView g k

/-- The `SR` step (R92). -/
def State.sampleRead (s : State) (choice : SyncChoice) : Option State :=
  (sample s.hr s.jr choice).map fun (g, k) => s.setReadView g k

end Sys2Proof.Machine
end

