-- ==== Sys2Proof/Machine/Fetch.lean ====
section
/-! DEFINITION. Machine/Fetch.lean: the block fetches no program (R35, R56). What it runs next is the next agent step
of the schedule: a producer edge runs the command on the port (R78), a consumer edge runs the entry at the read cursor
(R97), and the other agents' steps are taken here. -/

namespace Sys2Proof.Machine

/-- What the next agent step comes to. -/
inductive Fetched where
  /-- The agent runs this instruction in this state. -/
  | run (i : Instr) (s : State)
  /-- The agent's step runs no instruction: this is the state after it. -/
  | done (s : State)
  /-- The line of the schedule is no step the model takes. -/
  | refuse (r : Refusal)
  deriving DecidableEq, Repr

/-- The entry the consumer reads (R97, R102): the ring's, or a draw in the lapping race (R103). -/
def State.readEntry (s : State) : Entry :=
  if s.lapping then s.drawn else ringRead s.ring s.rd.toNat

/-- The state after the entry has been read: reading has no side effect on the ring (R49); a draw is counted. -/
def State.afterRead (s : State) : State :=
  if s.lapping then s.afterDraw else s

/-- A consumer edge (R97): while it holds, nothing changes (R98, R99), but that the strobe of an earlier step ends
(R32); else the entry at `rd` is run. -/
def State.consumerEdge (s : State) : Fetched :=
  match s.holdReason with
  | some _ => .done s.endStrobe
  | none => .run (decodeEntry s.readEntry) s.afterRead

/-- The next agent step, its line already taken off the schedule. While a domain is held in reset its agents take no
step, and a command is lost (R84, R156, R159). -/
def State.takeEvent (s : State) : Event → Fetched
  | .p command => if s.rstP then .done s else .run (decodeCommand command) s
  | .sw choice =>
    if s.rstC then .done s
    else match s.sampleWrite choice with
      | some t => .done t
      | none => .refuse (.noSuchSample choice)
  | .c => if s.rstC then .done s else s.consumerEdge
  | .drain =>
    if s.rstC then .done s
    else match s.consumerEdge with
      | .run i t => .run i (t.withSchedule (.drain :: t.schedule))
      | .done t => .done t
      | .refuse r => .refuse r
  | .sr choice =>
    if s.rstP then .done s
    else match s.sampleRead choice with
      | some t => .done t
      | none => .refuse (.noSuchSample choice)
  | .reset port => .done (s.pulseReset port)
  | .rstRise port => .done (s.holdReset port)
  | .rstRelease d => .done (s.releaseReset d)
  | .resetOne d => .refuse (.partialReset d)

/-- The next agent step of the schedule. When nothing is scheduled no agent is at a clock edge, and nothing happens
(R150, R152; log entry 4). -/
def State.fetch (s : State) : Fetched :=
  match s.schedule with
  | [] => .done s
  | event :: rest => (s.withSchedule rest).takeEvent event

/-! ## Placing an instruction -/

/-- `Wg <- g` as a producer step would do it: the history grows only by a change (R38). -/
def State.placeWg (s : State) (g : Code) : State := if s.wg = g then s else s.setWg g

/-- Place a command: the next step is a producer edge with this word on the port, out of reset (DESIGN CHOICE, log
entry 8). -/
def State.placeCommand (s : State) (w : Command) : State :=
  { s with rstP := false, schedule := .p w :: s.schedule }

/-- Place an entry: it stands at the read cursor, the producer's cursor is just past it and the consumer sees that
cursor, so that the next step, a consumer edge out of reset, reads exactly it (DESIGN CHOICE, log entry 8). -/
def State.placeEntry (s : State) (e : Entry) : State :=
  let rd : Cursor := if cursorValid s.rd then s.rd else 0
  let s := { s with ring := ringWrite s.ring rd.toNat e, rd := rd, rg := cursorEncode rd }
  let s := s.placeWg (cursorEncode (cursorNext rd))
  { s with
    ws := s.wg
    jw := s.hw.length - 1
    rstC := false
    schedule := .c :: s.schedule }

end Sys2Proof.Machine
end

