-- ==== Sys2Proof/Machine/Step.lean ====
section
/-! DEFINITION. Machine/Step.lean: one step of the machine is one atomic step of one agent (R17, R20). -/

namespace Sys2Proof.Machine

/-- One agent step, the next of the schedule. -/
def step (s : State) : Host.Outcome State Fault Refusal :=
  match s.fetch with
  | .run i t => exec i t
  | .done t => .next t
  | .refuse r => .refused r

/-- `s` with a table row's word placed so that the very next step runs it: a command on the producer port, or an
entry at the consumer's read cursor. A word that is none of its row's format leaves `s` as it is. -/
def State.withFetchWord (s : State) (nbits w : Nat) : State :=
  match takeWord (tableFormat nbits) (tableBytes nbits w) with
  | .ok (.pcmd c, _) => s.placeCommand c
  | .ok (.entry e, _) => s.placeEntry e
  | .error _ => s

end Sys2Proof.Machine
end

