-- ==== Sys2Proof/Machine/Saturated.lean ====
section
/-! DEFINITION. Machine/Saturated.lean: the decoder arithmetic an implementation may use instead (`43_bit_decoder.md`
R126, decision D35): `L` saturated at 11, `rem` at 13, and `H`, which only matters up to the 24 slots that reach a
remainder of 13 from `bw2 = 1`, at 24 (DEDUCED, log entry 17). It is compared with `pulse`; the machine does not run it. -/

namespace Sys2Proof.Machine

/-- What a pulse pair does to the hardware's own registers: the ghost log's records left out. -/
inductive PulseEffect where
  | accumulate (acc : Acc) (bitOffset : Nat)
  | reset (causeCode : Nat)
  | complete (acc : Acc)
  deriving DecidableEq, Repr

/-- Leave out what only the ghost log records. -/
def PulseResult.effect : PulseResult → PulseEffect
  | .accumulate acc bitOffset => .accumulate acc bitOffset
  | .violation cause => .reset cause.code
  | .complete acc => .complete acc

/-- `highPhase` with the remainder saturated at 13. -/
def highPhaseSaturated (acc : Acc) (bi bw2 h : Nat) : PulseResult :=
  if bw2 + h < Config.slots then afterHigh acc (Config.slots * bi + bw2 + h) 0
  else afterHigh acc (Config.slots * (bi + 1)) (min (bw2 + h - Config.slots) 13)

/-- `process_pulse` in saturating arithmetic (R126). -/
def pulseSaturated (acc : Acc) (bitOffset : Nat) (lowW highW : Half) : PulseResult :=
  let l := min (bits lowW) 11
  let h := min (bits highW) 24
  if l = 0 ∨ h = 0 then .violation (.zeroWidth lowW highW)
  else if Config.lowLimit < slotIndex bitOffset + l then .violation (.lowOverrun bitOffset l)
  else
    highPhaseSaturated (orLow acc (wordIndex bitOffset) (slotIndex bitOffset) l)
      (wordIndex bitOffset) (slotIndex bitOffset + l) h

end Sys2Proof.Machine
end

