-- ==== Sys2Proof/Machine/Schedule.lean ====
section
/-! DEFINITION. Machine/Schedule.lean: the schedule notation of `30_encoding.md` R71 and R77, as lists of agent steps;
`C: DRAIN` is an event of its own (`Event.drain`). `P: FRAME f, gap` is built as `95_test_vectors.md` section 1
describes. -/

namespace Sys2Proof.Machine

/-- `P: NOP` (`0x000000000`). -/
def schedNop : Event := .p 0

/-- `P: PUSH pin, dt` (`{01, dt, pin}`). -/
def schedPush (pin dt : Half) : Event := .p (commandWord 1 (entryWord pin dt))

/-- `P: SET_WR v` (`{10, 23'b0, v}`). -/
def schedSetWr (v : Cursor) : Event := .p (commandWord 2 ((0 : BitVec 23) ++ v))

/-- `RESET`, with no command on the port. -/
def schedReset : Event := .reset 0

/-- `P: PAIR lo, hi`: `P: PUSH 1, lo` then `P: PUSH 0, hi` (R77). -/
def schedPair (lo hi : Half) : List Event := [schedPush 1 lo, schedPush 0 hi]

/-- The width a producer writes for a phase of so many microseconds: saturated at 65535 (R166). -/
def phaseWidth (us : Nat) : Half := BitVec.ofNat 16 (min us 65535)

/-- The 12 logical levels of a byte, in time order (`95_test_vectors.md` section 1; R67): start bit 0, the data bits
with the least significant first, even parity, two stop bits. -/
def uartLevels (b : Byte) : List Bool :=
  [false, b.getLsbD 0, b.getLsbD 1, b.getLsbD 2, b.getLsbD 3, b.getLsbD 4, b.getLsbD 5, b.getLsbD 6, b.getLsbD 7,
    decide (popcount b % 2 = 1), true, true]

/-- The levels of a frame with no idle time between bytes and `gap` more 1 levels after the last stop bit. -/
def frameLevels (f : List Byte) (gap : Nat) : List Bool :=
  f.flatMap uartLevels ++ List.replicate gap true

/-- Put a level before a list of runs. -/
def consRun (l : Bool) : List (Bool × Nat) → List (Bool × Nat)
  | [] => [(l, 1)]
  | (m, n) :: rest => if l = m then (m, n + 1) :: rest else (l, 1) :: (m, n) :: rest

/-- The runs of equal level, in time order. -/
def levelRuns : List Bool → List (Bool × Nat)
  | [] => []
  | l :: rest => consRun l (levelRuns rest)

/-- Each run of 0s with the run of 1s after it: the pulse pairs, in bit times. -/
def pairRuns : List (Bool × Nat) → List (Nat × Nat)
  | (false, lo) :: (true, hi) :: rest => (lo, hi) :: pairRuns rest
  | _ => []

/-- The pulse pairs of a frame, in bit times. -/
def framePairs (f : List Byte) (gap : Nat) : List (Nat × Nat) := pairRuns (levelRuns (frameLevels f gap))

/-- `P: FRAME f, gap` (R77): the `P: PAIR` lines, at 10 microseconds a bit. -/
def schedFrame (f : Frame) (gap : Nat) : List Event :=
  (framePairs f.toList gap).flatMap fun (lo, hi) =>
    schedPair (phaseWidth (Config.bitUs * lo)) (phaseWidth (Config.bitUs * hi))

end Sys2Proof.Machine
end

