-- ==== Sys2Proof/Machine/SyncChain.lean ====
section
/-! DEFINITION. Machine/SyncChain.lean: the RTL of a cursor synchroniser (`41_cdc_sync.md` R85, R86), a chain of any
depth, with the aperture behaviour R90 gives its first stage. `State` keeps only the last stage, as R88 says a model
does; this chain is what the abstract steps of `Machine/Sync.lean` stand for, and statements compare the two. -/

namespace Sys2Proof.Machine

/-- What a stage holds: a code, and the index in the source's history of the change it sampled last. -/
structure StageSample where
  code : Code
  index : Nat
  deriving DecidableEq, Repr

/-- `Ws[1..SYNC_STAGES]` or `Rs[1..SYNC_STAGES]` (R23, R25), stage 1 first. -/
abbrev SyncChain := List StageSample

/-- Every stage at `E(0)` (R23, R25, R154). -/
def SyncChain.reset (stages : Nat) : SyncChain := List.replicate stages { code := resetCode, index := 0 }

/-- What stage 1 takes at an edge from a source register with history `h` (R85, R90): its value, or, where the edge
falls while the source is changing, bit by bit the old or the new one. -/
def firstStage (h : List Code) : Option Code → StageSample
  | none => { code := h.getLast?.getD resetCode, index := h.length - 1 }
  | some m =>
    { code := mixCodes (h[h.length - 2]?.getD resetCode) (h.getLast?.getD resetCode) m, index := h.length - 1 }

/-- One edge of the receiving clock (R85, R86): stage 1 samples the source, every other stage its predecessor. -/
def SyncChain.edge (h : List Code) (aperture : Option Code) (c : SyncChain) : SyncChain :=
  firstStage h aperture :: c.dropLast

/-- The last stage, the only one the receiving domain reads (R85, R86). -/
def SyncChain.last (c : SyncChain) : StageSample := c.getLast?.getD { code := resetCode, index := 0 }

/-- Edges at which the source is not changing. -/
def SyncChain.settledEdges (h : List Code) : Nat → SyncChain → SyncChain
  | 0, c => c
  | n + 1, c => SyncChain.settledEdges h n (c.edge h none)

end Sys2Proof.Machine
end

