-- ==== Sys2Proof/Safety.lean ====
section
/-! DEFINITION. Safety.lean: the terms claims use. The invariants the spec states of every state reachable from
reset, the queue that the ring implements (R53), a legal synchroniser chain, and a run of consumed entries. -/

namespace Sys2Proof.Machine

/-! ## Invariants -/

/-- `rd < 300` (R27) and `Rg = E(rd)` (R28). -/
structure CursorInv (s : State) : Prop where
  rd_valid : s.rd.toNat < Config.capacity
  rg_code : s.rg = cursorEncode s.rd

/-- A code that a synchroniser whose view last took element `j` of the history `h` may show (R91, item 1): that
element, or a bitwise mixture of the one before it and that element. -/
def ViewOf (h : List Code) (j : Nat) (g : Code) : Prop :=
  h[j]? = some g ∨
    (0 < j ∧ ∃ old new m, h[j - 1]? = some old ∧ h[j]? = some new ∧ g = mixCodes old new m)

/-- Consecutive elements are a valid cursor's code and the code of the cursor after it (R92, R107). -/
def Consecutive (h : List Code) : Prop :=
  ∀ k old new, h[k]? = some old → h[k + 1]? = some new →
    ∃ v : Cursor, v.toNat < Config.capacity ∧ old = cursorEncode v ∧ new = cursorEncode (cursorNext v)

/-- The histories start at `E(0)` and end at their register, and each view shows what R91 and R92 say it may. -/
structure HistoryInv (s : State) : Prop where
  hw_first : s.hw.head? = some resetCode
  hw_last : s.hw.getLast? = some s.wg
  ws_view : ViewOf s.hw s.jw s.ws
  hr_first : s.hr.head? = some resetCode
  hr_last : s.hr.getLast? = some s.rg
  hr_steps : Consecutive s.hr
  rs_view : ViewOf s.hr s.jr s.rs
  rs_held : s.rs ∈ s.hr

/-- The decoder's invariants (R125, items 1 to 5). -/
structure DecoderInv (acc : Acc) (bitOffset : Nat) : Prop where
  offset_lt : bitOffset < Config.frameBits
  slot_ne_one : slotIndex bitOffset = 0 ∨ 2 ≤ slotIndex bitOffset
  later_zero : ∀ i, (h : i < 25) → wordIndex bitOffset < i → acc[i] = 0
  fresh_zero : ∀ h : wordIndex bitOffset < 25, slotIndex bitOffset = 0 → acc[wordIndex bitOffset] = 0
  started : ∀ i, (h : i < 25) → i < wordIndex bitOffset → acc[i].getLsbD 0 = true
  current_started : ∀ h : wordIndex bitOffset < 25, slotIndex bitOffset ≠ 0 →
    acc[wordIndex bitOffset].getLsbD 0 = true
  stops_clear : ∀ i, (h : i < 25) → acc[i].getLsbD 10 = false ∧ acc[i].getLsbD 11 = false

/-- `frame_out` is the last frame emitted, or zero before the first, and the strobe is up only after an emission
(R32, R33). -/
structure OutputInv (s : State) : Prop where
  out_last : s.frameOut = s.frames.getLast?.getD (Vector.replicate 25 0)
  strobe : s.frameValid = true → s.frames ≠ []

/-- A domain held in reset has its registers at their reset values (R153, R154, R159). -/
structure HeldInv (s : State) : Prop where
  producer : s.rstP = true → s.wg = resetCode ∧ s.hw = [resetCode] ∧ s.rs = resetCode ∧ s.jr = 0
  consumer : s.rstC = true →
    s.rd = 0 ∧ s.rg = resetCode ∧ s.hr = [resetCode] ∧ s.ws = resetCode ∧ s.jw = 0 ∧ s.pendingLow = 0 ∧
      s.acc = accZero ∧ s.bitOffset = 0 ∧ s.frameOut = Vector.replicate 25 0 ∧ s.frameValid = false ∧ s.frames = []

/-- The invariants of every state reachable from reset. -/
structure Inv (s : State) : Prop where
  ring_wf : s.ring.wf = true
  cursor : CursorInv s
  history : HistoryInv s
  decoder : DecoderInv s.acc s.bitOffset.toNat
  output : OutputInv s
  held : HeldInv s

/-! ## The ring as a queue -/

/-- The valid cursor `n mod 300`. -/
def cursorAt (n : Nat) : Cursor := BitVec.ofNat 9 (n % Config.capacity)

/-- How many elements of `Hw` the consumer's view has not taken yet. -/
def State.lag (s : State) : Nat := s.hw.length - 1 - s.jw

/-- The ring holds the queue `q` of pushed and not yet consumed entries, oldest first, fewer than 300 of them (R53):
they stand from `rd` on, the write cursor is just past them, the changes the consumer's view has still to take are the
pushes of the last of them, and the view is at the cursor it last took or the one before. -/
structure RingQueue (s : State) (q : List Entry) : Prop where
  short : q.length < Config.capacity
  rd_valid : s.rd.toNat < Config.capacity
  write : s.wg = cursorEncode (cursorAt (s.rd.toNat + q.length))
  entries : ∀ i e, q[i]? = some e → ringRead s.ring ((s.rd.toNat + i) % Config.capacity) = e
  view_in : s.jw < s.hw.length
  lag_le : s.lag ≤ q.length
  history : ∀ i, i ≤ s.lag →
    s.hw[s.hw.length - 1 - i]? = some (cursorEncode (cursorAt (s.rd.toNat + q.length - i)))
  seen : s.wcSeen = cursorAt (s.rd.toNat + q.length - s.lag) ∨
    (s.lag < q.length ∧ s.wcSeen = cursorAt (s.rd.toNat + q.length - s.lag - 1))

/-! ## Runs -/

/-- Run instructions one after the other, stopping at the first that does not answer a next state. -/
def execAll : List Instr → State → Host.Outcome State Fault Refusal
  | [], s => .next s
  | i :: rest, s =>
    match exec i s with
    | .next t => execAll rest t
    | .fault f => .fault f
    | .refused r => .refused r

/-- The entries of pulse pairs as the consumer runs them: an `E_LOW` and an `E_HIGH` for each pair (R71, R77). -/
def pairInstrs (pairs : List (Half × Half)) : List Instr :=
  pairs.flatMap fun (lo, hi) => [.eLow lo, .eHigh hi]

/-! ## Frame words, slot by slot -/

/-- A word passes the start, stop and parity checks (R131 to R133), read on the accumulator before inversion, where a
0 level is stored as 1. -/
structure WordPasses (w : AccWord) : Prop where
  start : w.getLsbD 0 = true
  stop : w.getLsbD 10 = false ∧ w.getLsbD 11 = false
  parity : (!w.getLsbD 9) = (!w.getLsbD 1 ^^ !w.getLsbD 2 ^^ !w.getLsbD 3 ^^ !w.getLsbD 4 ^^ !w.getLsbD 5 ^^
    !w.getLsbD 6 ^^ !w.getLsbD 7 ^^ !w.getLsbD 8)

/-- The frame an accumulator holds: data bit `k` of byte `i` is slot `k + 1` of word `i`, inverted (R130, R134). -/
def FrameOf (acc : Acc) (f : Frame) : Prop :=
  ∀ i, (h : i < 25) → ∀ k, k < 8 → f[i].getLsbD k = !acc[i].getLsbD (k + 1)

/-- Word `word` is the lowest that fails, and `check` the first of start, stop, parity that fails in it (R144), read on
the accumulator before inversion. -/
structure FirstFailureOf (acc : Acc) (word : Nat) (check : WordCheck) : Prop where
  word_lt : word < 25
  earlier_pass : ∀ i, (hi : i < word) → WordPasses acc[i]
  start_iff : check = .start ↔ acc[word].getLsbD 0 = false
  stop_iff : check = .stop ↔
    acc[word].getLsbD 0 = true ∧ ¬ (acc[word].getLsbD 10 = false ∧ acc[word].getLsbD 11 = false)
  parity_fails : check = .parity → ¬ WordPasses acc[word]

/-- The accumulator with slots `bw` to `bw + l - 1` of word `bi` set besides (R116). -/
def LowPhaseOr (acc acc' : Acc) (bi bw l : Nat) : Prop :=
  ∀ i, (h : i < 25) → ∀ k, k < 12 →
    acc'[i].getLsbD k = (acc[i].getLsbD k || (decide (i = bi) && decide (bw ≤ k) && decide (k < bw + l)))

/-! ## Legal synchroniser chains -/

/-- A stage holds a code its index allows, and an aperture sample only where every later stage is still older. -/
def LegalChain (h : List Code) : SyncChain → Prop
  | [] => False
  | [g] => g.index < h.length ∧ ViewOf h g.index g.code
  | g :: older :: rest =>
    g.index < h.length ∧ ViewOf h g.index g.code ∧ older.index ≤ g.index ∧
      (h[g.index]? = some g.code ∨ older.index < g.index) ∧ LegalChain h (older :: rest)

/-- An edge can fall while the source is changing only if stage 1 has not sampled that change yet (R90). -/
def ApertureAllowed (h : List Code) (c : SyncChain) : Option Code → Prop
  | none => True
  | some _ => ∃ g, c.head? = some g ∧ g.index < h.length - 1

end Sys2Proof.Machine
end

