-- ==== Sys2Proof/Certificates/Slice0/Obligations.lean ====
section
/-! DEFINITION. Obligations.lean: the statements for the provers, each formalising rules of spec/ (its docstring says
which, and names the log entry where a clause is the model's own choice). -/

open Sys2Proof Sys2Proof.Machine

/-! ## Encoding -/

/-- Decode and encode agree, in both directions and on bytes (30_encoding.md sections 2 and 3, R58 to R66, R70): the
bytes of a well-formed instruction, whatever follows them, decode to it and leave the rest; every word of either format
decodes to a well-formed instruction whose word it is. -/
def Obligations.DecodeEncodeRoundTrip : Prop :=
  (∀ (i : Instr) (rest : List Byte), i.wellFormed = true →
    decode (encode i) = i ∧ decodeBytes i.format ((encode i).bytes ++ rest) = .ok (i, rest)) ∧
  (∀ w : EncodedWord, (decode w).wellFormed = true ∧ encode (decode w) = w)

/-- R60: the command code is decoded by exact match of the two bits, and every 34-bit word is `{op, data}`. -/
def Obligations.CommandCodeSelectsRow : Prop :=
  (∀ w : Command, ∃ (op : BitVec 2) (data : BitVec 32), w = op ++ data) ∧
  ∀ data : BitVec 32,
    decodeCommand ((0 : BitVec 2) ++ data) = .pNop data ∧
    decodeCommand ((1 : BitVec 2) ++ data) = .pPush (data.extractLsb' 0 16) (data.extractLsb' 16 16) ∧
    decodeCommand ((2 : BitVec 2) ++ data) = .pSetWr (data.extractLsb' 9 23) (data.extractLsb' 0 9) ∧
    decodeCommand ((3 : BitVec 2) ++ data) = .pReserved data

/-- R66: the entry class is decided by exact comparison of the whole 16-bit `pin_value`. -/
def Obligations.EntryClassByWholePin : Prop :=
  ∀ pin dt : Half,
    (pin = 0x0001 → decodeEntry (dt ++ pin) = .eLow dt) ∧
    (pin = 0x0000 → decodeEntry (dt ++ pin) = .eHigh dt) ∧
    (pin ≠ 0x0001 → pin ≠ 0x0000 → decodeEntry (dt ++ pin) = .eSkip dt pin)

/-- Words written out from the opcode table (95_test_vectors.md section 3.2, 42_consumer.md examples) decode to the
instructions they stand for; a 35th bit is no command. -/
def Obligations.WrittenWordsDecode : Prop :=
  decodeTableWord 40 0x000000000 = some (.pNop 0) ∧
  decodeTableWord 40 0x1000A0001 = some (.pPush 1 10) ∧
  decodeTableWord 40 0x20000012C = some (.pSetWr 0 300) ∧
  decodeTableWord 40 0x300000000 = some (.pReserved 0) ∧
  decodeTableWord 32 0x000A0001 = some (.eLow 10) ∧
  decodeTableWord 32 0x00140000 = some (.eHigh 20) ∧
  decodeTableWord 32 0x12340002 = some (.eSkip 0x1234 2) ∧
  decodeTableWord 40 0x400000000 = none

/-! ## The step runs the decoded instruction -/

/-- R78 and R97: a producer edge out of reset runs the command on the port; a consumer edge out of reset whose checks
pass runs the entry at the read cursor, which is a draw in the lapping race (R103); a drain does the same and stays
scheduled. The line is taken off the schedule first. -/
def Obligations.StepRunsDecodedInstruction : Prop :=
  ∀ (s : State) (rest : List Event),
    (∀ w : Command, s.schedule = .p w :: rest → s.rstP = false →
      step s = exec (decodeCommand w) { s with schedule := rest }) ∧
    (s.schedule = .c :: rest → s.rstC = false → s.holdReason = none →
      (s.writeCursor ≠ s.rd →
        step s = exec (decodeEntry (ringRead s.ring s.rd.toNat)) { s with schedule := rest }) ∧
      (s.writeCursor = s.rd →
        step s = exec (decodeEntry (Config.freeEntry s.draws))
          { s with schedule := rest, draws := s.draws + 1 })) ∧
    (s.schedule = .drain :: rest → s.rstC = false → s.holdReason = none →
      (s.writeCursor ≠ s.rd → step s = exec (decodeEntry (ringRead s.ring s.rd.toNat)) s) ∧
      (s.writeCursor = s.rd →
        step s = exec (decodeEntry (Config.freeEntry s.draws)) { s with draws := s.draws + 1 }))

/-- A word placed by `withFetchWord` is what the very next step runs (the interface's promise; log entry 8): a command
in the state with the producer domain out of reset, an entry in a state that differs only where placing an entry needs
it to. -/
def Obligations.PlacedWordRunsNext : Prop :=
  (∀ (s : State) (w : Command),
    step (s.withFetchWord 40 w.toNat) = exec (decodeCommand w) { s with rstP := false }) ∧
  (∀ (s : State) (e : Entry), ∃ t : State,
    step (s.withFetchWord 32 e.toNat) = exec (decodeEntry e) t ∧
    t.schedule = s.schedule ∧ t.pendingLow = s.pendingLow ∧ t.acc = s.acc ∧ t.bitOffset = s.bitOffset ∧
    t.frames = s.frames ∧ t.frameOut = s.frameOut ∧ t.frameValid = s.frameValid ∧ t.causes = s.causes ∧
    t.hr = s.hr ∧ t.rs = s.rs ∧ t.draws = s.draws ∧ (s.rd.toNat < 300 → t.rd = s.rd))

/-! ## Producer commands -/

/-- R79: `P_NOP` leaves everything unchanged. -/
def Obligations.NopChangesNothing : Prop :=
  ∀ (data : BitVec 32) (s : State), exec (.pNop data) s = .next s

/-- R80: `P_PUSH` at a valid cursor writes the entry at it, every other byte of the ring unchanged, and publishes the
cursor after it, one bit of `Wg` changing; at a corrupt cursor it only logs `PUSH_DROPPED`. Nothing else changes. -/
def Obligations.PushWritesThenPublishes : Prop :=
  ∀ (pin dt : Half) (s : State),
    ((cursorDecode s.wg).toNat < 300 →
      ∃ ring' : Memory,
        exec (.pPush pin dt) s = .next { s with
          ring := ring'
          wg := cursorEncode (BitVec.ofNat 9 (((cursorDecode s.wg).toNat + 1) % 300))
          hw := s.hw ++ [cursorEncode (BitVec.ofNat 9 (((cursorDecode s.wg).toNat + 1) % 300))] } ∧
        ringRead ring' (cursorDecode s.wg).toNat = dt ++ pin ∧
        (∀ a, a < 4 * (cursorDecode s.wg).toNat ∨ 4 * (cursorDecode s.wg).toNat + 4 ≤ a →
          ring'.readByte a = s.ring.readByte a) ∧
        ∃ k < 9, s.wg ^^^ cursorEncode (BitVec.ofNat 9 (((cursorDecode s.wg).toNat + 1) % 300)) =
          BitVec.twoPow 9 k) ∧
    (300 ≤ (cursorDecode s.wg).toNat →
      exec (.pPush pin dt) s = .next { s with causes := s.causes ++ [.pushDropped (cursorDecode s.wg)] })

/-- R81: `P_SET_WR` sets `Wg` to the code of any 9-bit cursor, valid or not, and appends it to the history; a value
equal to the current cursor changes nothing. -/
def Obligations.SetWrMovesWriteCursor : Prop :=
  ∀ (ignored : BitVec 23) (v : Cursor) (s : State),
    (cursorEncode v = s.wg → exec (.pSetWr ignored v) s = .next s) ∧
    (cursorEncode v ≠ s.wg →
      exec (.pSetWr ignored v) s = .next { s with wg := cursorEncode v, hw := s.hw ++ [cursorEncode v] })

/-- R82, R69, R140 (code 48): the model refuses the reserved command in every state, with the command word. -/
def Obligations.ReservedCommandRefused : Prop :=
  ∀ (data : BitVec 32) (s : State),
    exec (.pReserved data) s = .refused (.reservedCommand ((3 : BitVec 2) ++ data))

/-! ## Entry classes -/

/-- R104 with the cursor advance of R107: `E_LOW` remembers its width and advances; nothing else changes but that an
earlier strobe ends (R32; the model's reading of it is log entry 5). -/
def Obligations.LowEntryRemembersWidth : Prop :=
  ∀ (dt : Half) (s : State),
    exec (.eLow dt) s = .next { s with
      pendingLow := dt
      rd := BitVec.ofNat 9 ((s.rd.toNat + 1) % 300)
      rg := cursorEncode (BitVec.ofNat 9 ((s.rd.toNat + 1) % 300))
      hr := s.hr ++ [cursorEncode (BitVec.ofNat 9 ((s.rd.toNat + 1) % 300))]
      frameValid := false }

/-- R106 with the cursor advance of R107: `E_SKIP` only advances (and an earlier strobe ends, log entry 5). -/
def Obligations.SkipEntryOnlyAdvances : Prop :=
  ∀ (ignored pin : Half) (s : State),
    exec (.eSkip ignored pin) s = .next { s with
      rd := BitVec.ofNat 9 ((s.rd.toNat + 1) % 300)
      rg := cursorEncode (BitVec.ofNat 9 ((s.rd.toNat + 1) % 300))
      hr := s.hr ++ [cursorEncode (BitVec.ofNat 9 ((s.rd.toNat + 1) % 300))]
      frameValid := false }

/-- R105, R107, R110 and the frame of `E_HIGH`: in every state it answers a next state, with the pending width cleared
and the cursor advanced; it touches only the decoder, the frame outputs and the ghost log besides, and either emits one
frame and raises the strobe or leaves the frame outputs with the strobe down. -/
def Obligations.HighEntryPairsAndAdvances : Prop :=
  ∀ (dt : Half) (s : State), ∃ t : State,
    exec (.eHigh dt) s = .next t ∧
    t.pendingLow = 0 ∧
    t.rd = BitVec.ofNat 9 ((s.rd.toNat + 1) % 300) ∧
    t.rg = cursorEncode t.rd ∧
    t.hr = s.hr ++ [t.rg] ∧
    t.ring = s.ring ∧ t.wg = s.wg ∧ t.rs = s.rs ∧ t.ws = s.ws ∧ t.hw = s.hw ∧ t.jw = s.jw ∧ t.jr = s.jr ∧
    t.rstP = s.rstP ∧ t.rstC = s.rstC ∧ t.schedule = s.schedule ∧ t.draws = s.draws ∧
    (∃ logged, t.causes = s.causes ++ logged) ∧
    ((t.frameValid = false ∧ t.frames = s.frames ∧ t.frameOut = s.frameOut) ∨
      (t.frameValid = true ∧ t.frames = s.frames ++ [t.frameOut]))

/-! ## The decoder, through `E_HIGH` -/

/-- R113: a count of zero resets the decoder and stores nothing of the pair. -/
def Obligations.ZeroCountResetsDecoder : Prop :=
  ∀ (dt : Half) (s : State),
    (s.pendingLow.toNat + 5) / 10 = 0 ∨ (dt.toNat + 5) / 10 = 0 →
    ∃ t : State, exec (.eHigh dt) s = .next t ∧
      (∀ i, (h : i < 25) → t.acc[i] = 0) ∧ t.bitOffset = 0 ∧
      t.causes = s.causes ++ [.zeroWidth s.pendingLow dt] ∧
      t.frames = s.frames ∧ t.frameOut = s.frameOut ∧ t.frameValid = false

/-- R115: a low phase past slot 9 resets the decoder; the rest of the pair is not processed (R123). -/
def Obligations.LowOverrunResetsDecoder : Prop :=
  ∀ (dt : Half) (s : State),
    1 ≤ (s.pendingLow.toNat + 5) / 10 → 1 ≤ (dt.toNat + 5) / 10 →
    10 < s.bitOffset.toNat % 12 + (s.pendingLow.toNat + 5) / 10 →
    ∃ t : State, exec (.eHigh dt) s = .next t ∧
      (∀ i, (h : i < 25) → t.acc[i] = 0) ∧ t.bitOffset = 0 ∧
      t.causes = s.causes ++ [.lowOverrun s.bitOffset.toNat ((s.pendingLow.toNat + 5) / 10)] ∧
      t.frames = s.frames ∧ t.frameOut = s.frameOut ∧ t.frameValid = false

/-- R116, R117 and R121: a pair that ends inside its word, or runs past the end of a word before the last by at most
12 bit times, sets exactly the slots of its low phase and moves `bit_offset` past its high phase, or to the next
word. -/
def Obligations.PairAccumulatesSlots : Prop :=
  ∀ (dt : Half) (s : State) (bi bw l h : Nat),
    s.bitOffset.toNat < 300 →
    bi = s.bitOffset.toNat / 12 → bw = s.bitOffset.toNat % 12 →
    l = (s.pendingLow.toNat + 5) / 10 → h = (dt.toNat + 5) / 10 →
    1 ≤ l → 1 ≤ h → bw + l ≤ 10 →
    (bw + l + h < 12 →
      ∃ t : State, exec (.eHigh dt) s = .next t ∧ LowPhaseOr s.acc t.acc bi bw l ∧
        t.bitOffset.toNat = s.bitOffset.toNat + l + h ∧ t.causes = s.causes ∧
        t.frames = s.frames ∧ t.frameOut = s.frameOut ∧ t.frameValid = false) ∧
    (12 ≤ bw + l + h → bw + l + h - 12 ≤ 12 → bi < 24 →
      ∃ t : State, exec (.eHigh dt) s = .next t ∧ LowPhaseOr s.acc t.acc bi bw l ∧
        t.bitOffset.toNat = 12 * (bi + 1) ∧ t.causes = s.causes ∧
        t.frames = s.frames ∧ t.frameOut = s.frameOut ∧ t.frameValid = false)

/-- R119 and R120: a break before slot 300, and slot 300 reached without a break, reset the decoder, and nothing is
validated. -/
def Obligations.MisplacedBreakResetsDecoder : Prop :=
  ∀ (dt : Half) (s : State) (bi bw l h : Nat),
    s.bitOffset.toNat < 300 →
    bi = s.bitOffset.toNat / 12 → bw = s.bitOffset.toNat % 12 →
    l = (s.pendingLow.toNat + 5) / 10 → h = (dt.toNat + 5) / 10 →
    1 ≤ l → 1 ≤ h → bw + l ≤ 10 → 12 ≤ bw + l + h →
    (bi < 24 → 12 < bw + l + h - 12 →
      ∃ t : State, exec (.eHigh dt) s = .next t ∧
        (∀ i, (hi : i < 25) → t.acc[i] = 0) ∧ t.bitOffset = 0 ∧
        t.causes = s.causes ++ [.midframeBreak (12 * (bi + 1)) (bw + l + h - 12)] ∧
        t.frames = s.frames ∧ t.frameOut = s.frameOut ∧ t.frameValid = false) ∧
    (bi = 24 → bw + l + h - 12 ≤ 12 →
      ∃ t : State, exec (.eHigh dt) s = .next t ∧
        (∀ i, (hi : i < 25) → t.acc[i] = 0) ∧ t.bitOffset = 0 ∧
        t.causes = s.causes ++ [.frameOverrun (bw + l + h - 12)] ∧
        t.frames = s.frames ∧ t.frameOut = s.frameOut ∧ t.frameValid = false)

/-- R118, R135 and R136: slot 300 reached with a break hands the accumulator, with the pair's low phase in it, to the
validator, and the decoder resets whatever it finds. A frame all of whose words pass is emitted; one with a failing
word is discarded whole, the frame outputs keep the last frame, and the log records the failure the validator names. -/
def Obligations.CompletionValidatesThenResets : Prop :=
  ∀ (dt : Half) (s : State) (bw l h : Nat),
    s.bitOffset.toNat < 300 → s.bitOffset.toNat / 12 = 24 → bw = s.bitOffset.toNat % 12 →
    l = (s.pendingLow.toNat + 5) / 10 → h = (dt.toNat + 5) / 10 →
    1 ≤ l → 1 ≤ h → bw + l ≤ 10 → 12 ≤ bw + l + h → 12 < bw + l + h - 12 →
    ∃ (t : State) (acc' : Acc), exec (.eHigh dt) s = .next t ∧ LowPhaseOr s.acc acc' 24 bw l ∧
      (∀ i, (hi : i < 25) → t.acc[i] = 0) ∧ t.bitOffset = 0 ∧
      ((∀ i, (hi : i < 25) → WordPasses acc'[i]) →
        FrameOf acc' t.frameOut ∧ t.frames = s.frames ++ [t.frameOut] ∧ t.frameValid = true ∧
        t.causes = s.causes ++ [.complete true]) ∧
      ((∃ i, ∃ hi : i < 25, ¬ WordPasses acc'[i]) →
        t.frameOut = s.frameOut ∧ t.frames = s.frames ∧ t.frameValid = false ∧
        ∃ word check, validate acc' = .error (word, check) ∧
          t.causes = s.causes ++ [.invalidFrame word check, .complete false])

/-- R112: the bit count of a width is the nearest whole number of 10 microsecond bit times, a half rounded up. -/
def Obligations.WidthRoundsHalfUp : Prop :=
  ∀ w : Half, 10 * bits w ≤ w.toNat + 5 ∧ w.toNat + 5 < 10 * bits w + 10

/-- R127: a phase of `n` bit times measured within `10n - 5` to `10n + 4` microseconds counts `n` bits (R112). -/
def Obligations.WidthInBandCountsItsBits : Prop :=
  ∀ (w : Half) (n : Nat), 1 ≤ n → 10 * n - 5 ≤ w.toNat → w.toNat ≤ 10 * n + 4 → bits w = n

/-- R126: in saturating arithmetic the decoder's hardware effect is the same, for every accumulator, position and pair
of widths. -/
def Obligations.SaturatedDecoderAgrees : Prop :=
  ∀ (acc : Acc) (bitOffset : Nat) (lowW highW : Half),
    (pulseSaturated acc bitOffset lowW highW).effect = (pulse acc bitOffset lowW highW).effect

/-- R125, items 1 to 6: the decoder's invariants hold at reset, every step keeps them, and under them the pair falls in
one of the 25 words and its low phase ends at slot 1 to 10 where it is stored. -/
def Obligations.DecoderInvariantsKept : Prop :=
  DecoderInv State.reset.acc State.reset.bitOffset.toNat ∧
  (∀ s t : State, DecoderInv s.acc s.bitOffset.toNat → step s = .next t → DecoderInv t.acc t.bitOffset.toNat) ∧
  (∀ s : State, DecoderInv s.acc s.bitOffset.toNat → s.bitOffset.toNat / 12 ≤ 24) ∧
  (∀ (acc : Acc) (n : Nat) (lowW highW : Half), DecoderInv acc n →
    pulse acc n lowW highW ≠ .violation (.zeroWidth lowW highW) →
    pulse acc n lowW highW ≠ .violation (.lowOverrun n (bits lowW)) →
    1 ≤ n % 12 + bits lowW ∧ n % 12 + bits lowW ≤ 10)

/-! ## The validator -/

/-- R130 to R134: the validator accepts exactly the accumulators all of whose words pass the start, stop and parity
checks, and the frame it gives is the data slots, slot 1 the least significant bit. -/
def Obligations.ValidatorAcceptsExactlyPassingWords : Prop :=
  ∀ (acc : Acc) (f : Frame),
    validate acc = .ok f ↔ (∀ i, (h : i < 25) → WordPasses acc[i]) ∧ FrameOf acc f

/-- R144: the failure the validator names, and the one the completing `E_HIGH` records in the log, are the lowest
failing word and, in it, the first failing check of start, stop, parity. -/
def Obligations.RejectionNamesFirstFailure : Prop :=
  (∀ (acc : Acc) (word : Nat) (check : WordCheck), validate acc = .error (word, check) →
    FirstFailureOf acc word check) ∧
  (∀ (dt : Half) (s : State) (acc' : Acc) (bw l h : Nat),
    s.bitOffset.toNat < 300 → s.bitOffset.toNat / 12 = 24 → bw = s.bitOffset.toNat % 12 →
    l = (s.pendingLow.toNat + 5) / 10 → h = (dt.toNat + 5) / 10 →
    1 ≤ l → 1 ≤ h → bw + l ≤ 10 → 12 ≤ bw + l + h → 12 < bw + l + h - 12 →
    LowPhaseOr s.acc acc' 24 bw l → (∃ i, ∃ hi : i < 25, ¬ WordPasses acc'[i]) →
    ∃ (t : State) (word : Nat) (check : WordCheck), exec (.eHigh dt) s = .next t ∧
      t.causes = s.causes ++ [.invalidFrame word check, .complete false] ∧ FirstFailureOf acc' word check)

/-- R138: from a state that meets the decoder's invariants, a completed frame can be rejected for parity alone. -/
def Obligations.OnlyParityRejectsDecodedFrame : Prop :=
  ∀ (dt : Half) (s t : State) (word : Nat) (check : WordCheck),
    DecoderInv s.acc s.bitOffset.toNat → exec (.eHigh dt) s = .next t →
    t.causes = s.causes ++ [.invalidFrame word check, .complete false] → check = .parity

/-- R68: `frame_out[8i+7 : 8i]` is frame byte `i`. -/
def Obligations.FrameBusCarriesBytes : Prop :=
  ∀ (f : Frame) (i : Nat) (h : i < 25) (k : Nat), k < 8 → (frameBus f).getLsbD (8 * i + k) = f[i].getLsbD k

/-! ## Frames on the line -/

/-- R127, R137, R164 (and S1 of 95_test_vectors.md): from the decoder's initial state, the pulse pairs of ANY 25 bytes,
sent with no idle time between bytes and a break of at least 13 bit times, each width within its jitter band, emit
exactly those bytes, whatever byte 0 is, and leave the decoder in its initial state. -/
def Obligations.TransmittedFrameIsEmitted : Prop :=
  ∀ (f : Frame) (gap : Nat) (widths : List (Half × Half)) (s : State),
    13 ≤ gap → s.acc = accZero → s.bitOffset = 0 →
    widths.map (fun w => (bits w.1, bits w.2)) = framePairs f.toList gap →
    ∃ t : State, execAll (pairInstrs widths) s = .next t ∧
      t.frames = s.frames ++ [f] ∧ t.frameOut = f ∧ t.frameValid = true ∧
      t.causes = s.causes ++ [.complete true] ∧ t.acc = accZero ∧ t.bitOffset = 0

/-- R164, item 2: the same pairs with a break of 12 bit times or fewer lose the frame with `FRAME_OVERRUN`. -/
def Obligations.ShortBreakLosesFrame : Prop :=
  ∀ (f : Frame) (gap : Nat) (widths : List (Half × Half)) (s : State),
    gap ≤ 12 → s.acc = accZero → s.bitOffset = 0 →
    widths.map (fun w => (bits w.1, bits w.2)) = framePairs f.toList gap →
    ∃ t : State, execAll (pairInstrs widths) s = .next t ∧
      t.frames = s.frames ∧ t.frameOut = s.frameOut ∧ t.causes = s.causes ++ [.frameOverrun gap] ∧
      t.acc = accZero ∧ t.bitOffset = 0

/-- R172: a frame is at most 125 pulse pairs, so at most 250 ring entries. -/
def Obligations.FrameFitsTheRing : Prop :=
  ∀ (f : Frame) (gap : Nat), (framePairs f.toList gap).length ≤ 125 ∧ (schedFrame f gap).length ≤ 250

/-! ## The consumer's checks and holds -/

/-- R98, R99 and R100: while the read cursor equals the view, or one of them is no valid cursor, a consumer edge or a
drain takes no step: everything keeps its value, but that the strobe of an earlier step ends at the edge (R32; the
model's reading is log entry 5). -/
def Obligations.HoldChangesNothing : Prop :=
  ∀ (s : State) (rest : List Event),
    s.schedule = .c :: rest ∨ s.schedule = .drain :: rest → s.rstC = false →
    (s.rd = cursorDecode s.ws ∨
      (s.rd ≠ cursorDecode s.ws ∧ (300 ≤ (cursorDecode s.ws).toNat ∨ 300 ≤ s.rd.toNat))) →
    step s = .next { s with schedule := rest, frameValid := false }

/-- R98 and R99: a hold is lifted only by an `SW` step. -/
def Obligations.HoldLiftedOnlyByWriteView : Prop :=
  ∀ s t : State, s.holdReason ≠ none → step s = .next t → t.holdReason = none →
    ∃ choice rest, s.schedule = .sw choice :: rest

/-- R34: `wc_invalid` is `(rd != wc_seen) and (wc_seen >= 300 or rd >= 300)`, 1 exactly when the consumer holds for an
invalid cursor. -/
def Obligations.WcInvalidShowsCursorHold : Prop :=
  ∀ s : State,
    (s.wcInvalid = true ↔
      s.rd ≠ cursorDecode s.ws ∧ (300 ≤ (cursorDecode s.ws).toNat ∨ 300 ≤ s.rd.toNat)) ∧
    (s.wcInvalid = true ↔ s.holdReason = some .cursorInvalid)

/-- R103: in the lapping race the value read is a draw, whatever the ring holds; the next draw is a fresh one. -/
def Obligations.LappingReadIsDrawn : Prop :=
  ∀ (s : State) (rest : List Event) (ring' : Memory),
    s.schedule = .c :: rest → s.rstC = false → s.holdReason = none → cursorDecode s.wg = s.rd →
    ∃ t : State,
      exec (decodeEntry (Config.freeEntry s.draws)) { s with schedule := rest, draws := s.draws + 1 } = .next t ∧
      step s = .next t ∧ step { s with ring := ring' } = .next { t with ring := ring' } ∧ t.draws = s.draws + 1

/-- R107: every consumer step that does not hold ends with the cursor advanced by one modulo 300, `Rg` its code and the
history one longer. -/
def Obligations.ConsumedEntryAdvancesCursor : Prop :=
  ∀ (s : State) (rest : List Event),
    s.schedule = .c :: rest ∨ s.schedule = .drain :: rest → s.rstC = false → s.holdReason = none →
    ∃ t : State, step s = .next t ∧
      t.rd = BitVec.ofNat 9 ((s.rd.toNat + 1) % 300) ∧ t.rg = cursorEncode t.rd ∧ t.hr = s.hr ++ [t.rg]

/-! ## Cursor code and synchronisers -/

/-- R74, with the count of R76: `D(g) = (ungray(g) + 406) mod 512`, `E` and `D` are inverse bijections on 9-bit values,
the all-zero code is the invalid 406, and exactly 212 codes decode to no valid cursor. -/
def Obligations.CursorCodeIsBijective : Prop :=
  (∀ g : Code, (cursorDecode g).toNat = ((ungray g).toNat + 406) % 512) ∧
  (∀ v : Cursor, cursorDecode (cursorEncode v) = v) ∧ (∀ g : Code, cursorEncode (cursorDecode g) = g) ∧
  cursorDecode 0x000 = 406 ∧
  ((List.range 512).countP fun n => decide (300 ≤ (cursorDecode (BitVec.ofNat 9 n)).toNat)) = 212

/-- R75: the codes of consecutive cursors, the wrap from 299 to 0 included, differ in exactly one bit. -/
def Obligations.CursorIncrementChangesOneBit : Prop :=
  ∀ v : Cursor, v.toNat < 300 → ∃ k < 9,
    cursorEncode v ^^^ cursorEncode (BitVec.ofNat 9 ((v.toNat + 1) % 300)) = BitVec.twoPow 9 k

/-- R89: a settled sample at an index from the last one taken on shows exactly that element of the history; with no
index named it is the last element (R71); and no `SW` sample takes an element older than the one taken before. -/
def Obligations.SettledSampleShowsHistory : Prop :=
  (∀ (s t : State) (rest : List Event) (choice : SyncChoice),
    s.schedule = .sw choice :: rest → step s = .next t → s.jw ≤ t.jw) ∧
  ∀ (s : State) (rest : List Event), s.rstC = false →
    (∀ (k : Nat) (g : Code), s.schedule = .sw (.settled k) :: rest → s.jw ≤ k → s.hw[k]? = some g →
      step s = .next { s with schedule := rest, ws := g, jw := k }) ∧
    (∀ g : Code, s.schedule = .sw .latest :: rest → s.jw ≤ s.hw.length - 1 → s.hw.getLast? = some g →
      step s = .next { s with schedule := rest, ws := g, jw := s.hw.length - 1 })

/-- R90: an aperture sample takes, bit by bit, the old code where the mask is 0 and the new one where it is 1. -/
def Obligations.ApertureSampleMixesCodes : Prop :=
  ∀ (s : State) (rest : List Event) (k : Nat) (m old new : Code),
    s.rstC = false → s.schedule = .sw (.mix k m) :: rest → s.jw < k →
    s.hw[k - 1]? = some old → s.hw[k]? = some new →
    ∃ g : Code, step s = .next { s with schedule := rest, ws := g, jw := k } ∧
      ∀ i, i < 9 → g.getLsbD i = if m.getLsbD i then new.getLsbD i else old.getLsbD i

/-- R92: the read-cursor synchroniser takes the same two steps on its own history, the settled one with no index named
too (R71). -/
def Obligations.ReadViewSamplesAlike : Prop :=
  ∀ (s : State) (rest : List Event), s.rstP = false →
    (∀ (k : Nat) (g : Code), s.schedule = .sr (.settled k) :: rest → s.jr ≤ k → s.hr[k]? = some g →
      step s = .next { s with schedule := rest, rs := g, jr := k }) ∧
    (∀ g : Code, s.schedule = .sr .latest :: rest → s.jr ≤ s.hr.length - 1 → s.hr.getLast? = some g →
      step s = .next { s with schedule := rest, rs := g, jr := s.hr.length - 1 }) ∧
    (∀ (k : Nat) (m old new : Code), s.schedule = .sr (.mix k m) :: rest → s.jr < k →
      s.hr[k - 1]? = some old → s.hr[k]? = some new →
      step s = .next { s with schedule := rest, rs := (old &&& ~~~m) ||| (new &&& m), jr := k })

/-- R89, R90 and R92: no step but a reset moves a view back in its history, and a sample at an index that the rules do
not let a synchroniser choose, an older one or one past the end, answers no next state (that the answer is a refusal is
the model's choice, log entry 10). -/
def Obligations.ViewIndexNeverFalls : Prop :=
  (∀ s t : State, step s = .next t →
    (∀ port rest, s.schedule ≠ .reset port :: rest ∧ s.schedule ≠ .rstRise port :: rest) →
    s.jw ≤ t.jw ∧ s.jr ≤ t.jr) ∧
  (∀ (s : State) (rest : List Event) (k : Nat), s.rstC = false →
    (s.schedule = .sw (.settled k) :: rest → k < s.jw ∨ s.hw.length ≤ k →
      step s = .refused (.noSuchSample (.settled k))) ∧
    (∀ m : Code, s.schedule = .sw (.mix k m) :: rest → k ≤ s.jw ∨ s.hw.length ≤ k →
      step s = .refused (.noSuchSample (.mix k m)))) ∧
  (∀ (s : State) (rest : List Event) (k : Nat), s.rstP = false →
    (s.schedule = .sr (.settled k) :: rest → k < s.jr ∨ s.hr.length ≤ k →
      step s = .refused (.noSuchSample (.settled k))) ∧
    (∀ m : Code, s.schedule = .sr (.mix k m) :: rest → k ≤ s.jr ∨ s.hr.length ≤ k →
      step s = .refused (.noSuchSample (.mix k m))))

/-- R91, item 2: a mixture of a push's old and new code is one of the two, at every cursor, the wrap included. -/
def Obligations.PushMixtureIsHeldValue : Prop :=
  ∀ (v : Cursor) (m : Code), v.toNat < 300 →
    mixCodes (cursorEncode v) (cursorEncode (BitVec.ofNat 9 ((v.toNat + 1) % 300))) m = cursorEncode v ∨
    mixCodes (cursorEncode v) (cursorEncode (BitVec.ofNat 9 ((v.toNat + 1) % 300))) m =
      cursorEncode (BitVec.ofNat 9 ((v.toNat + 1) % 300))

/-- R85, R86 and R88: every edge of a synchroniser chain of any depth, settled or in the aperture, keeps the chain
legal, and its last stage does what some abstract step of R89 or R90 does: the abstract step admits every delay and
every aperture sample the chain can produce. -/
def Obligations.ChainEdgeIsAbstractStep : Prop :=
  ∀ (h : List Code) (c : SyncChain) (aperture : Option Code),
    LegalChain h c → ApertureAllowed h c aperture →
    LegalChain h (c.edge h aperture) ∧
    ∃ choice : SyncChoice,
      sample h c.last.index choice = some ((c.edge h aperture).last.code, (c.edge h aperture).last.index)

/-- R93 and R94 for the chain: once the source has stopped changing, as many edges as there are stages bring its value
to the last stage. -/
def Obligations.ChainSettlesInItsDepth : Prop :=
  ∀ (h : List Code) (c : SyncChain) (g : Code), c ≠ [] → h.getLast? = some g →
    (SyncChain.settledEdges h c.length c).last = { code := g, index := h.length - 1 }

/-! ## The ring as a queue -/

/-- R51 to R53: the ring is a queue. While the producer only pushes and idles and never gets 300 entries ahead, a push
appends its entry, a consumer step that does not hold runs exactly the oldest entry and removes it, and no synchroniser
step changes the queue. -/
def Obligations.RingIsQueue : Prop :=
  ∀ (s t : State) (q : List Entry) (rest : List Event), RingQueue s q → step s = .next t →
    (∀ data : BitVec 32, s.schedule = .p ((0 : BitVec 2) ++ data) :: rest → RingQueue t q) ∧
    (∀ e : Entry, s.schedule = .p ((1 : BitVec 2) ++ e) :: rest → s.rstP = false → q.length < 299 →
      RingQueue t (q ++ [e])) ∧
    (∀ choice, s.schedule = .sw choice :: rest ∨ s.schedule = .sr choice :: rest → RingQueue t q) ∧
    (s.schedule = .c :: rest → s.rstC = false →
      (s.holdReason = none ∧ ∃ e q', q = e :: q' ∧
        exec (decodeEntry e) { s with schedule := rest } = .next t ∧ RingQueue t q') ∨
      (s.holdReason = some .empty ∧ RingQueue t q))

/-- R53, R94 and R109: once the consumer's view takes the last cursor, a drain runs exactly the queued entries, each
once, in push order, with the values pushed, and ends with the ring empty: `q.length + 2` steps (the sample, the entries
and the hold) give what running the queue's instructions gives. -/
def Obligations.DrainRunsQueueInOrder : Prop :=
  ∀ (s : State) (q : List Entry) (rest : List Event),
    RingQueue s q → s.rstC = false → s.schedule = .sw .latest :: .drain :: rest →
    ∃ t : State,
      execAll (q.map decodeEntry) { s with schedule := rest, ws := s.wg, jw := s.hw.length - 1 } = .next t ∧
      Host.Core.run Sys2Proof.core (q.length + 2) s = .next { t with frameValid := false } ∧
      t.rd = t.writeCursor ∧ RingQueue t []

/-- R57 and R163: 300 pushes go once round the ring: the entries replace whatever was unread, and the write cursor is
where it was, so that no sample of it shows them. -/
def Obligations.FullLapIsInvisible : Prop :=
  ∀ (s : State) (entries : List Entry), entries.length = 300 → (cursorDecode s.wg).toNat < 300 →
    ∃ t : State,
      execAll (entries.map fun e => .pPush (e.extractLsb' 0 16) (e.extractLsb' 16 16)) s = .next t ∧
      t.wg = s.wg ∧ t.rd = s.rd ∧ t.ws = s.ws ∧ t.holdReason = s.holdReason ∧
      ∀ i e, entries[i]? = some e → ringRead t.ring (((cursorDecode s.wg).toNat + i) % 300) = e

/-- R83, with the bound its claim needs: while the unconsumed entries and the staleness of the view are together fewer
than 300, the producer's estimate is their sum, so an upper bound on the unconsumed entries. -/
def Obligations.EstimateBoundsUnconsumed : Prop :=
  ∀ (s : State) (q : List Entry) (stale : Nat), RingQueue s q → q.length + stale < 300 →
    s.rs = cursorEncode (cursorAt (s.rd.toNat + 300 - stale)) →
    s.unconsumedEstimate = q.length + stale ∧ q.length ≤ s.unconsumedEstimate

/-! ## Reset -/

/-- R154: `RESET` gives every register its reset value and leaves the ring, when it cuts no push; after it the consumer
holds on an empty ring and `wc_invalid` is 0. (The schedule and the draw counter are the model's own, log entries 2 and
4.) -/
def Obligations.ResetGivesResetValues : Prop :=
  ∀ (s : State) (rest : List Event) (port : Command),
    s.schedule = .reset port :: rest →
    (port.extractLsb' 32 2 ≠ (1 : BitVec 2) ∨ 300 ≤ (cursorDecode s.wg).toNat ∨ s.rstP = true) →
    ∃ t : State, step s = .next t ∧
      t.wg = 0x05F ∧ t.rs = 0x05F ∧ t.ws = 0x05F ∧ t.rd = 0 ∧ t.rg = 0x05F ∧ t.pendingLow = 0 ∧
      (∀ i, (h : i < 25) → t.acc[i] = 0) ∧ t.bitOffset = 0 ∧ (∀ i, (h : i < 25) → t.frameOut[i] = 0) ∧
      t.frameValid = false ∧ t.frames = [] ∧ t.hw = [0x05F] ∧ t.jw = 0 ∧ t.hr = [0x05F] ∧ t.jr = 0 ∧
      t.causes = [] ∧ t.ring = s.ring ∧ t.rstP = false ∧ t.rstC = false ∧ t.schedule = rest ∧
      t.holdReason = some .empty ∧ t.wcInvalid = false

/-- R155: a `P_PUSH` on the port when `rst` rises does not take place, and the entry at its index becomes a draw; every
other byte of the ring is kept, and the registers take their reset values. -/
def Obligations.ResetCutsPushIntoDraw : Prop :=
  ∀ (s : State) (rest : List Event) (e : Entry),
    s.schedule = .reset ((1 : BitVec 2) ++ e) :: rest → s.rstP = false → (cursorDecode s.wg).toNat < 300 →
    ∃ ring' : Memory,
      step s = .next { State.reset with ring := ring', schedule := rest, draws := s.draws + 1 } ∧
      ringRead ring' (cursorDecode s.wg).toNat = Config.freeEntry s.draws ∧
      ∀ a, a < 4 * (cursorDecode s.wg).toNat ∨ 4 * (cursorDecode s.wg).toNat + 4 ≤ a →
        ring'.readByte a = s.ring.readByte a

/-- R153, R154, R156 and R159: when `rst` rises, every register takes its reset value at once and both domains are held
in reset; the ring is kept, but for the entry whose push it cuts, which becomes a draw (R155); a release then clears one
domain's flag and changes nothing else. (The flags and the port's place in the event are the model's, log entries 11 and
16; the draw's form is log entry 2.) -/
def Obligations.RiseHoldsDomainsUntilReleased : Prop :=
  (∀ (s : State) (rest : List Event) (port : Command), s.schedule = .rstRise port :: rest →
    ∃ t : State, step s = .next t ∧
      t.wg = 0x05F ∧ t.rs = 0x05F ∧ t.ws = 0x05F ∧ t.rd = 0 ∧ t.rg = 0x05F ∧ t.pendingLow = 0 ∧
      (∀ i, (h : i < 25) → t.acc[i] = 0) ∧ t.bitOffset = 0 ∧ (∀ i, (h : i < 25) → t.frameOut[i] = 0) ∧
      t.frameValid = false ∧ t.frames = [] ∧ t.hw = [0x05F] ∧ t.jw = 0 ∧ t.hr = [0x05F] ∧ t.jr = 0 ∧
      t.causes = [] ∧ t.rstP = true ∧ t.rstC = true ∧ t.schedule = rest ∧
      (port.extractLsb' 32 2 ≠ (1 : BitVec 2) ∨ 300 ≤ (cursorDecode s.wg).toNat ∨ s.rstP = true →
        t.ring = s.ring ∧ t.draws = s.draws) ∧
      (port.extractLsb' 32 2 = (1 : BitVec 2) → (cursorDecode s.wg).toNat < 300 → s.rstP = false →
        ringRead t.ring (cursorDecode s.wg).toNat = Config.freeEntry s.draws ∧ t.draws = s.draws + 1 ∧
        ∀ a, a < 4 * (cursorDecode s.wg).toNat ∨ 4 * (cursorDecode s.wg).toNat + 4 ≤ a →
          t.ring.readByte a = s.ring.readByte a)) ∧
  (∀ (s : State) (rest : List Event),
    (s.schedule = .rstRelease .producer :: rest → step s = .next { s with schedule := rest, rstP := false }) ∧
    (s.schedule = .rstRelease .consumer :: rest → step s = .next { s with schedule := rest, rstC := false }))

/-- R156: a reset of one domain's state alone is refused, in every state (the event is the model's form of it, log entry
11). -/
def Obligations.PartialResetRefused : Prop :=
  ∀ (s : State) (rest : List Event) (d : Domain),
    s.schedule = .resetOne d :: rest → step s = .refused (.partialReset d)

/-- R84 and R159: while a domain is held in reset, a command on the port is lost and no agent of the domain takes a
step. -/
def Obligations.HeldDomainTakesNoStep : Prop :=
  ∀ (s : State) (rest : List Event),
    (s.rstP = true → ∀ w choice, s.schedule = .p w :: rest ∨ s.schedule = .sr choice :: rest →
      step s = .next { s with schedule := rest }) ∧
    (s.rstC = true → ∀ choice, s.schedule = .c :: rest ∨ s.schedule = .drain :: rest ∨
      s.schedule = .sw choice :: rest → step s = .next { s with schedule := rest })

/-! ## The whole machine -/

/-- R139 and R152: no step faults; a step is refused only for a reserved command (R69), a reset of one domain alone
(R156), or an index no synchroniser step may choose. (That last refusal is the model's choice, log entry 10: R139 and
R152 know no such line.) -/
def Obligations.StopsAreOnlyNamedRefusals : Prop :=
  ∀ s : State,
    (∀ f : Fault, step s ≠ .fault f) ∧
    (∀ r : Refusal, step s = .refused r →
      (∃ (data : BitVec 32) (rest : List Event), s.schedule = .p ((3 : BitVec 2) ++ data) :: rest ∧
        r = .reservedCommand ((3 : BitVec 2) ++ data)) ∨
      (∃ choice rest, s.schedule = .sw choice :: rest ∧ r = .noSuchSample choice ∧
        sample s.hw s.jw choice = none) ∨
      (∃ choice rest, s.schedule = .sr choice :: rest ∧ r = .noSuchSample choice ∧
        sample s.hr s.jr choice = none) ∨
      (∃ d rest, s.schedule = .resetOne d :: rest ∧ r = .partialReset d))

/-- R50: each field has one writer. In a step that is no reset, the ring and `Wg` change only by `P`; `rd`, `Rg`,
`pending_low`, `acc`, `bit_offset`, `frame_out` and `frame_valid` only by `C`; `Ws` only by `SW`; `Rs` only by `SR`. -/
def Obligations.SingleWriterPerField : Prop :=
  ∀ s t : State, step s = .next t →
    (∀ port rest, s.schedule ≠ .reset port :: rest ∧ s.schedule ≠ .rstRise port :: rest) →
    ((t.ring ≠ s.ring ∨ t.wg ≠ s.wg) → ∃ w rest, s.schedule = .p w :: rest) ∧
    ((t.rd ≠ s.rd ∨ t.rg ≠ s.rg ∨ t.pendingLow ≠ s.pendingLow ∨ t.acc ≠ s.acc ∨ t.bitOffset ≠ s.bitOffset ∨
      t.frameOut ≠ s.frameOut ∨ t.frameValid ≠ s.frameValid) →
        ∃ rest, s.schedule = .c :: rest ∨ s.schedule = .drain :: rest) ∧
    (t.ws ≠ s.ws → ∃ choice rest, s.schedule = .sw choice :: rest) ∧
    (t.rs ≠ s.rs → ∃ choice rest, s.schedule = .sr choice :: rest)

/-- R36, R38 and decision D28: nothing in the block reads the frame outputs or the ghost log; two states that differ
only there take steps that differ only there. -/
def Obligations.OutputsAreNeverReadBack : Prop :=
  ∀ (s t : State) (frameOut : Frame) (frameValid : Bool) (frames : List Frame) (causes : List Cause),
    step s = .next t →
    ∃ (frameOut' : Frame) (frameValid' : Bool) (frames' : List Frame) (causes' : List Cause),
      step { s with frameOut := frameOut, frameValid := frameValid, frames := frames, causes := causes } =
        .next { t with frameOut := frameOut', frameValid := frameValid', frames := frames', causes := causes' }

/-- The invariants of every reachable state (R27, R28, R32, R33, R91 item 1, R92, R125, R153, R159, and the ring's
canonical form) are kept by every step from every state that meets them. -/
def Obligations.StepKeepsInvariants : Prop :=
  ∀ s t : State, Inv s → step s = .next t → Inv t

/-- The invariants hold at reset (R154). -/
def Obligations.ResetMeetsInvariants : Prop := Inv State.reset

/-- R44 and R46: in the byte view, byte `b` of entry `i` is at `RING_BASE + 4i + b`, little-endian, with `RING_BASE`
4-byte aligned; an address outside the ring has no byte. -/
def Obligations.ByteViewIsLittleEndian : Prop :=
  Config.ringBase % 4 = 0 ∧
  (∀ (m : Memory) (i : Nat) (e : Entry) (b : Nat), i < 300 → b < 4 →
    platformByte (ringWrite m i e) (Config.ringBase + 4 * i + b) = some (e.extractLsb' (8 * b) 8)) ∧
  (∀ (m : Memory) (a : Nat), a < Config.ringBase ∨ Config.ringBase + 1200 ≤ a → platformByte m a = none)

/-- R14, R21 and R102: an entry none of whose bytes has been written since power-up reads as `RAM_INIT` holds it, at
reset every entry does, and a consumer edge that reads such an entry runs it. -/
def Obligations.UnwrittenEntryReadsRamInit : Prop :=
  (∀ (m : Memory) (i : Nat), (∀ b < 4, m.written (4 * i + b) = none) → ringRead m i = Config.ramInit i) ∧
  (∀ i : Nat, ringRead State.reset.ring i = Config.ramInit i) ∧
  (∀ (s : State) (rest : List Event), s.schedule = .c :: rest → s.rstC = false → s.holdReason = none →
    s.writeCursor ≠ s.rd → (∀ b < 4, s.ring.written (4 * s.rd.toNat + b) = none) →
    step s = exec (decodeEntry (Config.ramInit s.rd.toNat)) { s with schedule := rest })
end

