-- ==== Sys2Proof/Laws/Decode.lean ====
section
/-! SUPPORT. Laws/Decode.lean: taking apart what was put together: the fields of words, and words of bytes. -/

namespace Sys2Proof

/-! ## Fields -/

theorem extractLsb'_append_low {m n : Nat} (x : BitVec m) (y : BitVec n) : (x ++ y).extractLsb' 0 n = y := by
  apply BitVec.eq_of_getLsbD_eq
  intro i hi
  simp [BitVec.getLsbD_append, hi]

theorem extractLsb'_append_high {m n : Nat} (x : BitVec m) (y : BitVec n) : (x ++ y).extractLsb' n m = x := by
  apply BitVec.eq_of_getLsbD_eq
  intro i hi
  simp [BitVec.getLsbD_append, hi]

theorem append_extractLsb' {m n : Nat} (w : BitVec (m + n)) : w.extractLsb' n m ++ w.extractLsb' 0 n = w := by
  apply BitVec.eq_of_getLsbD_eq
  intro i hi
  simp only [BitVec.getLsbD_append, BitVec.getLsbD_extractLsb']
  by_cases h : i < n
  · simp [h]
  · simp [h, show i - n < m by omega, show n + (i - n) = i by omega]

@[simp] theorem entryPin_entryWord (pin dt : Half) : entryPin (entryWord pin dt) = pin := extractLsb'_append_low dt pin

@[simp] theorem entryDt_entryWord (pin dt : Half) : entryDt (entryWord pin dt) = dt := extractLsb'_append_high dt pin

@[simp] theorem entryWord_fields (e : Entry) : entryWord (entryPin e) (entryDt e) = e :=
  append_extractLsb' (m := 16) (n := 16) e

@[simp] theorem commandData_commandWord (op : BitVec 2) (data : BitVec 32) :
    commandData (commandWord op data) = data := extractLsb'_append_low op data

@[simp] theorem commandOp_commandWord (op : BitVec 2) (data : BitVec 32) :
    commandOp (commandWord op data) = op := extractLsb'_append_high op data

@[simp] theorem commandWord_fields (w : Command) : commandWord (commandOp w) (commandData w) = w :=
  append_extractLsb' (m := 2) (n := 32) w

/-! ## Words of given fields -/

theorem decodeCommand_commandWord_nop (data : BitVec 32) : decodeCommand (commandWord 0 data) = .pNop data := by
  simp [decodeCommand]

theorem decodeCommand_commandWord_push (pin dt : Half) :
    decodeCommand (commandWord 1 (entryWord pin dt)) = .pPush pin dt := by
  simp [decodeCommand]

theorem decodeCommand_commandWord_reserved (data : BitVec 32) :
    decodeCommand (commandWord 3 data) = .pReserved data := by
  simp [decodeCommand]

theorem decodeEntry_low (dt : Half) : decodeEntry (entryWord 1 dt) = .eLow dt := by
  simp [decodeEntry]

theorem decodeEntry_high (dt : Half) : decodeEntry (entryWord 0 dt) = .eHigh dt := by
  simp [decodeEntry]

/-! ## Bytes -/

theorem bytesOfNat_length (n w : Nat) : (bytesOfNat n w).length = n := by
  induction n generalizing w with
  | zero => rfl
  | succ n ih => simp [bytesOfNat, ih]

/-- The bytes of a number that fits give it back. -/
theorem natOfBytes_bytesOfNat (n w : Nat) (h : w < 256 ^ n) : natOfBytes (bytesOfNat n w) = w := by
  induction n generalizing w with
  | zero => simp [bytesOfNat, natOfBytes] at h ⊢; omega
  | succ n ih =>
    have hdiv : w / 256 < 256 ^ n := Nat.div_lt_of_lt_mul (by rw [Nat.pow_succ] at h; omega)
    simp only [bytesOfNat, natOfBytes, ih _ hdiv, BitVec.toNat_ofNat]
    omega

/-- The word at the head of its own bytes. -/
theorem takeWord_pcmd (w : Command) (rest : List Byte) :
    takeWord .pcmd (bytesOfNat 5 w.toNat ++ rest) = .ok (.pcmd w, rest) := by
  have hlen := bytesOfNat_length 5 w.toNat
  have hval := natOfBytes_bytesOfNat 5 w.toNat (by have := w.isLt; omega)
  have htake : (bytesOfNat 5 w.toNat ++ rest).take 5 = bytesOfNat 5 w.toNat := by rw [List.take_left' hlen]
  have hdrop : (bytesOfNat 5 w.toNat ++ rest).drop 5 = rest := by rw [List.drop_left' hlen]
  simp only [takeWord, List.length_append, hlen, htake, hdrop, hval]
  rw [if_neg (by omega), if_neg (by have := w.isLt; omega)]
  simp

theorem takeWord_entry (e : Entry) (rest : List Byte) :
    takeWord .entry (bytesOfNat 4 e.toNat ++ rest) = .ok (.entry e, rest) := by
  have hlen := bytesOfNat_length 4 e.toNat
  have hval := natOfBytes_bytesOfNat 4 e.toNat (by have := e.isLt; omega)
  have htake : (bytesOfNat 4 e.toNat ++ rest).take 4 = bytesOfNat 4 e.toNat := by rw [List.take_left' hlen]
  have hdrop : (bytesOfNat 4 e.toNat ++ rest).drop 4 = rest := by rw [List.drop_left' hlen]
  simp only [takeWord, List.length_append, hlen, htake, hdrop, hval]
  rw [if_neg (by omega)]
  simp

end Sys2Proof
end

