-- ==== Sys2Proof/Laws/State.lean ====
section
/-! SUPPORT. Laws/State.lean: for each named update of the state, what each field holds after it. -/

namespace Sys2Proof.Machine

variable (s : State)

/-! `State.setWg` -/

@[simp] theorem State.setWg_ring (g : Code) : (s.setWg g).ring = s.ring := rfl
@[simp] theorem State.setWg_wg (g : Code) : (s.setWg g).wg = g := rfl
@[simp] theorem State.setWg_rs (g : Code) : (s.setWg g).rs = s.rs := rfl
@[simp] theorem State.setWg_ws (g : Code) : (s.setWg g).ws = s.ws := rfl
@[simp] theorem State.setWg_rd (g : Code) : (s.setWg g).rd = s.rd := rfl
@[simp] theorem State.setWg_rg (g : Code) : (s.setWg g).rg = s.rg := rfl
@[simp] theorem State.setWg_pendingLow (g : Code) : (s.setWg g).pendingLow = s.pendingLow := rfl
@[simp] theorem State.setWg_acc (g : Code) : (s.setWg g).acc = s.acc := rfl
@[simp] theorem State.setWg_bitOffset (g : Code) : (s.setWg g).bitOffset = s.bitOffset := rfl
@[simp] theorem State.setWg_frameOut (g : Code) : (s.setWg g).frameOut = s.frameOut := rfl
@[simp] theorem State.setWg_frameValid (g : Code) : (s.setWg g).frameValid = s.frameValid := rfl
@[simp] theorem State.setWg_frames (g : Code) : (s.setWg g).frames = s.frames := rfl
@[simp] theorem State.setWg_hw (g : Code) : (s.setWg g).hw = s.hw ++ [g] := rfl
@[simp] theorem State.setWg_jw (g : Code) : (s.setWg g).jw = s.jw := rfl
@[simp] theorem State.setWg_hr (g : Code) : (s.setWg g).hr = s.hr := rfl
@[simp] theorem State.setWg_jr (g : Code) : (s.setWg g).jr = s.jr := rfl
@[simp] theorem State.setWg_causes (g : Code) : (s.setWg g).causes = s.causes := rfl
@[simp] theorem State.setWg_rstP (g : Code) : (s.setWg g).rstP = s.rstP := rfl
@[simp] theorem State.setWg_rstC (g : Code) : (s.setWg g).rstC = s.rstC := rfl
@[simp] theorem State.setWg_schedule (g : Code) : (s.setWg g).schedule = s.schedule := rfl
@[simp] theorem State.setWg_draws (g : Code) : (s.setWg g).draws = s.draws := rfl

/-! `State.advanceRead` -/

@[simp] theorem State.advanceRead_ring : (s.advanceRead).ring = s.ring := rfl
@[simp] theorem State.advanceRead_wg : (s.advanceRead).wg = s.wg := rfl
@[simp] theorem State.advanceRead_rs : (s.advanceRead).rs = s.rs := rfl
@[simp] theorem State.advanceRead_ws : (s.advanceRead).ws = s.ws := rfl
@[simp] theorem State.advanceRead_rd : (s.advanceRead).rd = cursorNext s.rd := rfl
@[simp] theorem State.advanceRead_rg : (s.advanceRead).rg = cursorEncode (cursorNext s.rd) := rfl
@[simp] theorem State.advanceRead_pendingLow : (s.advanceRead).pendingLow = s.pendingLow := rfl
@[simp] theorem State.advanceRead_acc : (s.advanceRead).acc = s.acc := rfl
@[simp] theorem State.advanceRead_bitOffset : (s.advanceRead).bitOffset = s.bitOffset := rfl
@[simp] theorem State.advanceRead_frameOut : (s.advanceRead).frameOut = s.frameOut := rfl
@[simp] theorem State.advanceRead_frameValid : (s.advanceRead).frameValid = s.frameValid := rfl
@[simp] theorem State.advanceRead_frames : (s.advanceRead).frames = s.frames := rfl
@[simp] theorem State.advanceRead_hw : (s.advanceRead).hw = s.hw := rfl
@[simp] theorem State.advanceRead_jw : (s.advanceRead).jw = s.jw := rfl
@[simp] theorem State.advanceRead_hr : (s.advanceRead).hr = s.hr ++ [cursorEncode (cursorNext s.rd)] := rfl
@[simp] theorem State.advanceRead_jr : (s.advanceRead).jr = s.jr := rfl
@[simp] theorem State.advanceRead_causes : (s.advanceRead).causes = s.causes := rfl
@[simp] theorem State.advanceRead_rstP : (s.advanceRead).rstP = s.rstP := rfl
@[simp] theorem State.advanceRead_rstC : (s.advanceRead).rstC = s.rstC := rfl
@[simp] theorem State.advanceRead_schedule : (s.advanceRead).schedule = s.schedule := rfl
@[simp] theorem State.advanceRead_draws : (s.advanceRead).draws = s.draws := rfl

/-! `State.log` -/

@[simp] theorem State.log_ring (cause : Cause) : (s.log cause).ring = s.ring := rfl
@[simp] theorem State.log_wg (cause : Cause) : (s.log cause).wg = s.wg := rfl
@[simp] theorem State.log_rs (cause : Cause) : (s.log cause).rs = s.rs := rfl
@[simp] theorem State.log_ws (cause : Cause) : (s.log cause).ws = s.ws := rfl
@[simp] theorem State.log_rd (cause : Cause) : (s.log cause).rd = s.rd := rfl
@[simp] theorem State.log_rg (cause : Cause) : (s.log cause).rg = s.rg := rfl
@[simp] theorem State.log_pendingLow (cause : Cause) : (s.log cause).pendingLow = s.pendingLow := rfl
@[simp] theorem State.log_acc (cause : Cause) : (s.log cause).acc = s.acc := rfl
@[simp] theorem State.log_bitOffset (cause : Cause) : (s.log cause).bitOffset = s.bitOffset := rfl
@[simp] theorem State.log_frameOut (cause : Cause) : (s.log cause).frameOut = s.frameOut := rfl
@[simp] theorem State.log_frameValid (cause : Cause) : (s.log cause).frameValid = s.frameValid := rfl
@[simp] theorem State.log_frames (cause : Cause) : (s.log cause).frames = s.frames := rfl
@[simp] theorem State.log_hw (cause : Cause) : (s.log cause).hw = s.hw := rfl
@[simp] theorem State.log_jw (cause : Cause) : (s.log cause).jw = s.jw := rfl
@[simp] theorem State.log_hr (cause : Cause) : (s.log cause).hr = s.hr := rfl
@[simp] theorem State.log_jr (cause : Cause) : (s.log cause).jr = s.jr := rfl
@[simp] theorem State.log_causes (cause : Cause) : (s.log cause).causes = s.causes ++ [cause] := rfl
@[simp] theorem State.log_rstP (cause : Cause) : (s.log cause).rstP = s.rstP := rfl
@[simp] theorem State.log_rstC (cause : Cause) : (s.log cause).rstC = s.rstC := rfl
@[simp] theorem State.log_schedule (cause : Cause) : (s.log cause).schedule = s.schedule := rfl
@[simp] theorem State.log_draws (cause : Cause) : (s.log cause).draws = s.draws := rfl

/-! `State.resetDecoder` -/

@[simp] theorem State.resetDecoder_ring (cause : Cause) : (s.resetDecoder cause).ring = s.ring := rfl
@[simp] theorem State.resetDecoder_wg (cause : Cause) : (s.resetDecoder cause).wg = s.wg := rfl
@[simp] theorem State.resetDecoder_rs (cause : Cause) : (s.resetDecoder cause).rs = s.rs := rfl
@[simp] theorem State.resetDecoder_ws (cause : Cause) : (s.resetDecoder cause).ws = s.ws := rfl
@[simp] theorem State.resetDecoder_rd (cause : Cause) : (s.resetDecoder cause).rd = s.rd := rfl
@[simp] theorem State.resetDecoder_rg (cause : Cause) : (s.resetDecoder cause).rg = s.rg := rfl
@[simp] theorem State.resetDecoder_pendingLow (cause : Cause) : (s.resetDecoder cause).pendingLow = s.pendingLow := rfl
@[simp] theorem State.resetDecoder_acc (cause : Cause) : (s.resetDecoder cause).acc = accZero := rfl
@[simp] theorem State.resetDecoder_bitOffset (cause : Cause) : (s.resetDecoder cause).bitOffset = 0 := rfl
@[simp] theorem State.resetDecoder_frameOut (cause : Cause) : (s.resetDecoder cause).frameOut = s.frameOut := rfl
@[simp] theorem State.resetDecoder_frameValid (cause : Cause) : (s.resetDecoder cause).frameValid = s.frameValid := rfl
@[simp] theorem State.resetDecoder_frames (cause : Cause) : (s.resetDecoder cause).frames = s.frames := rfl
@[simp] theorem State.resetDecoder_hw (cause : Cause) : (s.resetDecoder cause).hw = s.hw := rfl
@[simp] theorem State.resetDecoder_jw (cause : Cause) : (s.resetDecoder cause).jw = s.jw := rfl
@[simp] theorem State.resetDecoder_hr (cause : Cause) : (s.resetDecoder cause).hr = s.hr := rfl
@[simp] theorem State.resetDecoder_jr (cause : Cause) : (s.resetDecoder cause).jr = s.jr := rfl
@[simp] theorem State.resetDecoder_causes (cause : Cause) : (s.resetDecoder cause).causes = s.causes ++ [cause] := rfl
@[simp] theorem State.resetDecoder_rstP (cause : Cause) : (s.resetDecoder cause).rstP = s.rstP := rfl
@[simp] theorem State.resetDecoder_rstC (cause : Cause) : (s.resetDecoder cause).rstC = s.rstC := rfl
@[simp] theorem State.resetDecoder_schedule (cause : Cause) : (s.resetDecoder cause).schedule = s.schedule := rfl
@[simp] theorem State.resetDecoder_draws (cause : Cause) : (s.resetDecoder cause).draws = s.draws := rfl

/-! `State.accumulate` -/

@[simp] theorem State.accumulate_ring (acc : Acc) (n : Nat) : (s.accumulate acc n).ring = s.ring := rfl
@[simp] theorem State.accumulate_wg (acc : Acc) (n : Nat) : (s.accumulate acc n).wg = s.wg := rfl
@[simp] theorem State.accumulate_rs (acc : Acc) (n : Nat) : (s.accumulate acc n).rs = s.rs := rfl
@[simp] theorem State.accumulate_ws (acc : Acc) (n : Nat) : (s.accumulate acc n).ws = s.ws := rfl
@[simp] theorem State.accumulate_rd (acc : Acc) (n : Nat) : (s.accumulate acc n).rd = s.rd := rfl
@[simp] theorem State.accumulate_rg (acc : Acc) (n : Nat) : (s.accumulate acc n).rg = s.rg := rfl
@[simp] theorem State.accumulate_pendingLow (acc : Acc) (n : Nat) : (s.accumulate acc n).pendingLow = s.pendingLow := rfl
@[simp] theorem State.accumulate_acc (acc : Acc) (n : Nat) : (s.accumulate acc n).acc = acc := rfl
@[simp] theorem State.accumulate_bitOffset (acc : Acc) (n : Nat) : (s.accumulate acc n).bitOffset = BitVec.ofNat 9 n := rfl
@[simp] theorem State.accumulate_frameOut (acc : Acc) (n : Nat) : (s.accumulate acc n).frameOut = s.frameOut := rfl
@[simp] theorem State.accumulate_frameValid (acc : Acc) (n : Nat) : (s.accumulate acc n).frameValid = s.frameValid := rfl
@[simp] theorem State.accumulate_frames (acc : Acc) (n : Nat) : (s.accumulate acc n).frames = s.frames := rfl
@[simp] theorem State.accumulate_hw (acc : Acc) (n : Nat) : (s.accumulate acc n).hw = s.hw := rfl
@[simp] theorem State.accumulate_jw (acc : Acc) (n : Nat) : (s.accumulate acc n).jw = s.jw := rfl
@[simp] theorem State.accumulate_hr (acc : Acc) (n : Nat) : (s.accumulate acc n).hr = s.hr := rfl
@[simp] theorem State.accumulate_jr (acc : Acc) (n : Nat) : (s.accumulate acc n).jr = s.jr := rfl
@[simp] theorem State.accumulate_causes (acc : Acc) (n : Nat) : (s.accumulate acc n).causes = s.causes := rfl
@[simp] theorem State.accumulate_rstP (acc : Acc) (n : Nat) : (s.accumulate acc n).rstP = s.rstP := rfl
@[simp] theorem State.accumulate_rstC (acc : Acc) (n : Nat) : (s.accumulate acc n).rstC = s.rstC := rfl
@[simp] theorem State.accumulate_schedule (acc : Acc) (n : Nat) : (s.accumulate acc n).schedule = s.schedule := rfl
@[simp] theorem State.accumulate_draws (acc : Acc) (n : Nat) : (s.accumulate acc n).draws = s.draws := rfl

/-! `State.endStrobe` -/

@[simp] theorem State.endStrobe_ring : (s.endStrobe).ring = s.ring := rfl
@[simp] theorem State.endStrobe_wg : (s.endStrobe).wg = s.wg := rfl
@[simp] theorem State.endStrobe_rs : (s.endStrobe).rs = s.rs := rfl
@[simp] theorem State.endStrobe_ws : (s.endStrobe).ws = s.ws := rfl
@[simp] theorem State.endStrobe_rd : (s.endStrobe).rd = s.rd := rfl
@[simp] theorem State.endStrobe_rg : (s.endStrobe).rg = s.rg := rfl
@[simp] theorem State.endStrobe_pendingLow : (s.endStrobe).pendingLow = s.pendingLow := rfl
@[simp] theorem State.endStrobe_acc : (s.endStrobe).acc = s.acc := rfl
@[simp] theorem State.endStrobe_bitOffset : (s.endStrobe).bitOffset = s.bitOffset := rfl
@[simp] theorem State.endStrobe_frameOut : (s.endStrobe).frameOut = s.frameOut := rfl
@[simp] theorem State.endStrobe_frameValid : (s.endStrobe).frameValid = false := rfl
@[simp] theorem State.endStrobe_frames : (s.endStrobe).frames = s.frames := rfl
@[simp] theorem State.endStrobe_hw : (s.endStrobe).hw = s.hw := rfl
@[simp] theorem State.endStrobe_jw : (s.endStrobe).jw = s.jw := rfl
@[simp] theorem State.endStrobe_hr : (s.endStrobe).hr = s.hr := rfl
@[simp] theorem State.endStrobe_jr : (s.endStrobe).jr = s.jr := rfl
@[simp] theorem State.endStrobe_causes : (s.endStrobe).causes = s.causes := rfl
@[simp] theorem State.endStrobe_rstP : (s.endStrobe).rstP = s.rstP := rfl
@[simp] theorem State.endStrobe_rstC : (s.endStrobe).rstC = s.rstC := rfl
@[simp] theorem State.endStrobe_schedule : (s.endStrobe).schedule = s.schedule := rfl
@[simp] theorem State.endStrobe_draws : (s.endStrobe).draws = s.draws := rfl

/-! `State.emit` -/

@[simp] theorem State.emit_ring (f : Frame) : (s.emit f).ring = s.ring := rfl
@[simp] theorem State.emit_wg (f : Frame) : (s.emit f).wg = s.wg := rfl
@[simp] theorem State.emit_rs (f : Frame) : (s.emit f).rs = s.rs := rfl
@[simp] theorem State.emit_ws (f : Frame) : (s.emit f).ws = s.ws := rfl
@[simp] theorem State.emit_rd (f : Frame) : (s.emit f).rd = s.rd := rfl
@[simp] theorem State.emit_rg (f : Frame) : (s.emit f).rg = s.rg := rfl
@[simp] theorem State.emit_pendingLow (f : Frame) : (s.emit f).pendingLow = s.pendingLow := rfl
@[simp] theorem State.emit_acc (f : Frame) : (s.emit f).acc = s.acc := rfl
@[simp] theorem State.emit_bitOffset (f : Frame) : (s.emit f).bitOffset = s.bitOffset := rfl
@[simp] theorem State.emit_frameOut (f : Frame) : (s.emit f).frameOut = f := rfl
@[simp] theorem State.emit_frameValid (f : Frame) : (s.emit f).frameValid = true := rfl
@[simp] theorem State.emit_frames (f : Frame) : (s.emit f).frames = s.frames ++ [f] := rfl
@[simp] theorem State.emit_hw (f : Frame) : (s.emit f).hw = s.hw := rfl
@[simp] theorem State.emit_jw (f : Frame) : (s.emit f).jw = s.jw := rfl
@[simp] theorem State.emit_hr (f : Frame) : (s.emit f).hr = s.hr := rfl
@[simp] theorem State.emit_jr (f : Frame) : (s.emit f).jr = s.jr := rfl
@[simp] theorem State.emit_causes (f : Frame) : (s.emit f).causes = s.causes := rfl
@[simp] theorem State.emit_rstP (f : Frame) : (s.emit f).rstP = s.rstP := rfl
@[simp] theorem State.emit_rstC (f : Frame) : (s.emit f).rstC = s.rstC := rfl
@[simp] theorem State.emit_schedule (f : Frame) : (s.emit f).schedule = s.schedule := rfl
@[simp] theorem State.emit_draws (f : Frame) : (s.emit f).draws = s.draws := rfl

/-! `State.afterDraw` -/

@[simp] theorem State.afterDraw_ring : (s.afterDraw).ring = s.ring := rfl
@[simp] theorem State.afterDraw_wg : (s.afterDraw).wg = s.wg := rfl
@[simp] theorem State.afterDraw_rs : (s.afterDraw).rs = s.rs := rfl
@[simp] theorem State.afterDraw_ws : (s.afterDraw).ws = s.ws := rfl
@[simp] theorem State.afterDraw_rd : (s.afterDraw).rd = s.rd := rfl
@[simp] theorem State.afterDraw_rg : (s.afterDraw).rg = s.rg := rfl
@[simp] theorem State.afterDraw_pendingLow : (s.afterDraw).pendingLow = s.pendingLow := rfl
@[simp] theorem State.afterDraw_acc : (s.afterDraw).acc = s.acc := rfl
@[simp] theorem State.afterDraw_bitOffset : (s.afterDraw).bitOffset = s.bitOffset := rfl
@[simp] theorem State.afterDraw_frameOut : (s.afterDraw).frameOut = s.frameOut := rfl
@[simp] theorem State.afterDraw_frameValid : (s.afterDraw).frameValid = s.frameValid := rfl
@[simp] theorem State.afterDraw_frames : (s.afterDraw).frames = s.frames := rfl
@[simp] theorem State.afterDraw_hw : (s.afterDraw).hw = s.hw := rfl
@[simp] theorem State.afterDraw_jw : (s.afterDraw).jw = s.jw := rfl
@[simp] theorem State.afterDraw_hr : (s.afterDraw).hr = s.hr := rfl
@[simp] theorem State.afterDraw_jr : (s.afterDraw).jr = s.jr := rfl
@[simp] theorem State.afterDraw_causes : (s.afterDraw).causes = s.causes := rfl
@[simp] theorem State.afterDraw_rstP : (s.afterDraw).rstP = s.rstP := rfl
@[simp] theorem State.afterDraw_rstC : (s.afterDraw).rstC = s.rstC := rfl
@[simp] theorem State.afterDraw_schedule : (s.afterDraw).schedule = s.schedule := rfl
@[simp] theorem State.afterDraw_draws : (s.afterDraw).draws = s.draws + 1 := rfl

/-! `State.push` -/

@[simp] theorem State.push_ring (w : Cursor) (e : Entry) : (s.push w e).ring = ringWrite s.ring w.toNat e := rfl
@[simp] theorem State.push_wg (w : Cursor) (e : Entry) : (s.push w e).wg = cursorEncode (cursorNext w) := rfl
@[simp] theorem State.push_rs (w : Cursor) (e : Entry) : (s.push w e).rs = s.rs := rfl
@[simp] theorem State.push_ws (w : Cursor) (e : Entry) : (s.push w e).ws = s.ws := rfl
@[simp] theorem State.push_rd (w : Cursor) (e : Entry) : (s.push w e).rd = s.rd := rfl
@[simp] theorem State.push_rg (w : Cursor) (e : Entry) : (s.push w e).rg = s.rg := rfl
@[simp] theorem State.push_pendingLow (w : Cursor) (e : Entry) : (s.push w e).pendingLow = s.pendingLow := rfl
@[simp] theorem State.push_acc (w : Cursor) (e : Entry) : (s.push w e).acc = s.acc := rfl
@[simp] theorem State.push_bitOffset (w : Cursor) (e : Entry) : (s.push w e).bitOffset = s.bitOffset := rfl
@[simp] theorem State.push_frameOut (w : Cursor) (e : Entry) : (s.push w e).frameOut = s.frameOut := rfl
@[simp] theorem State.push_frameValid (w : Cursor) (e : Entry) : (s.push w e).frameValid = s.frameValid := rfl
@[simp] theorem State.push_frames (w : Cursor) (e : Entry) : (s.push w e).frames = s.frames := rfl
@[simp] theorem State.push_hw (w : Cursor) (e : Entry) : (s.push w e).hw = s.hw ++ [cursorEncode (cursorNext w)] := rfl
@[simp] theorem State.push_jw (w : Cursor) (e : Entry) : (s.push w e).jw = s.jw := rfl
@[simp] theorem State.push_hr (w : Cursor) (e : Entry) : (s.push w e).hr = s.hr := rfl
@[simp] theorem State.push_jr (w : Cursor) (e : Entry) : (s.push w e).jr = s.jr := rfl
@[simp] theorem State.push_causes (w : Cursor) (e : Entry) : (s.push w e).causes = s.causes := rfl
@[simp] theorem State.push_rstP (w : Cursor) (e : Entry) : (s.push w e).rstP = s.rstP := rfl
@[simp] theorem State.push_rstC (w : Cursor) (e : Entry) : (s.push w e).rstC = s.rstC := rfl
@[simp] theorem State.push_schedule (w : Cursor) (e : Entry) : (s.push w e).schedule = s.schedule := rfl
@[simp] theorem State.push_draws (w : Cursor) (e : Entry) : (s.push w e).draws = s.draws := rfl

/-! `State.setWriteView` -/

@[simp] theorem State.setWriteView_ring (g : Code) (k : Nat) : (s.setWriteView g k).ring = s.ring := rfl
@[simp] theorem State.setWriteView_wg (g : Code) (k : Nat) : (s.setWriteView g k).wg = s.wg := rfl
@[simp] theorem State.setWriteView_rs (g : Code) (k : Nat) : (s.setWriteView g k).rs = s.rs := rfl
@[simp] theorem State.setWriteView_ws (g : Code) (k : Nat) : (s.setWriteView g k).ws = g := rfl
@[simp] theorem State.setWriteView_rd (g : Code) (k : Nat) : (s.setWriteView g k).rd = s.rd := rfl
@[simp] theorem State.setWriteView_rg (g : Code) (k : Nat) : (s.setWriteView g k).rg = s.rg := rfl
@[simp] theorem State.setWriteView_pendingLow (g : Code) (k : Nat) : (s.setWriteView g k).pendingLow = s.pendingLow := rfl
@[simp] theorem State.setWriteView_acc (g : Code) (k : Nat) : (s.setWriteView g k).acc = s.acc := rfl
@[simp] theorem State.setWriteView_bitOffset (g : Code) (k : Nat) : (s.setWriteView g k).bitOffset = s.bitOffset := rfl
@[simp] theorem State.setWriteView_frameOut (g : Code) (k : Nat) : (s.setWriteView g k).frameOut = s.frameOut := rfl
@[simp] theorem State.setWriteView_frameValid (g : Code) (k : Nat) : (s.setWriteView g k).frameValid = s.frameValid := rfl
@[simp] theorem State.setWriteView_frames (g : Code) (k : Nat) : (s.setWriteView g k).frames = s.frames := rfl
@[simp] theorem State.setWriteView_hw (g : Code) (k : Nat) : (s.setWriteView g k).hw = s.hw := rfl
@[simp] theorem State.setWriteView_jw (g : Code) (k : Nat) : (s.setWriteView g k).jw = k := rfl
@[simp] theorem State.setWriteView_hr (g : Code) (k : Nat) : (s.setWriteView g k).hr = s.hr := rfl
@[simp] theorem State.setWriteView_jr (g : Code) (k : Nat) : (s.setWriteView g k).jr = s.jr := rfl
@[simp] theorem State.setWriteView_causes (g : Code) (k : Nat) : (s.setWriteView g k).causes = s.causes := rfl
@[simp] theorem State.setWriteView_rstP (g : Code) (k : Nat) : (s.setWriteView g k).rstP = s.rstP := rfl
@[simp] theorem State.setWriteView_rstC (g : Code) (k : Nat) : (s.setWriteView g k).rstC = s.rstC := rfl
@[simp] theorem State.setWriteView_schedule (g : Code) (k : Nat) : (s.setWriteView g k).schedule = s.schedule := rfl
@[simp] theorem State.setWriteView_draws (g : Code) (k : Nat) : (s.setWriteView g k).draws = s.draws := rfl

/-! `State.setReadView` -/

@[simp] theorem State.setReadView_ring (g : Code) (k : Nat) : (s.setReadView g k).ring = s.ring := rfl
@[simp] theorem State.setReadView_wg (g : Code) (k : Nat) : (s.setReadView g k).wg = s.wg := rfl
@[simp] theorem State.setReadView_rs (g : Code) (k : Nat) : (s.setReadView g k).rs = g := rfl
@[simp] theorem State.setReadView_ws (g : Code) (k : Nat) : (s.setReadView g k).ws = s.ws := rfl
@[simp] theorem State.setReadView_rd (g : Code) (k : Nat) : (s.setReadView g k).rd = s.rd := rfl
@[simp] theorem State.setReadView_rg (g : Code) (k : Nat) : (s.setReadView g k).rg = s.rg := rfl
@[simp] theorem State.setReadView_pendingLow (g : Code) (k : Nat) : (s.setReadView g k).pendingLow = s.pendingLow := rfl
@[simp] theorem State.setReadView_acc (g : Code) (k : Nat) : (s.setReadView g k).acc = s.acc := rfl
@[simp] theorem State.setReadView_bitOffset (g : Code) (k : Nat) : (s.setReadView g k).bitOffset = s.bitOffset := rfl
@[simp] theorem State.setReadView_frameOut (g : Code) (k : Nat) : (s.setReadView g k).frameOut = s.frameOut := rfl
@[simp] theorem State.setReadView_frameValid (g : Code) (k : Nat) : (s.setReadView g k).frameValid = s.frameValid := rfl
@[simp] theorem State.setReadView_frames (g : Code) (k : Nat) : (s.setReadView g k).frames = s.frames := rfl
@[simp] theorem State.setReadView_hw (g : Code) (k : Nat) : (s.setReadView g k).hw = s.hw := rfl
@[simp] theorem State.setReadView_jw (g : Code) (k : Nat) : (s.setReadView g k).jw = s.jw := rfl
@[simp] theorem State.setReadView_hr (g : Code) (k : Nat) : (s.setReadView g k).hr = s.hr := rfl
@[simp] theorem State.setReadView_jr (g : Code) (k : Nat) : (s.setReadView g k).jr = k := rfl
@[simp] theorem State.setReadView_causes (g : Code) (k : Nat) : (s.setReadView g k).causes = s.causes := rfl
@[simp] theorem State.setReadView_rstP (g : Code) (k : Nat) : (s.setReadView g k).rstP = s.rstP := rfl
@[simp] theorem State.setReadView_rstC (g : Code) (k : Nat) : (s.setReadView g k).rstC = s.rstC := rfl
@[simp] theorem State.setReadView_schedule (g : Code) (k : Nat) : (s.setReadView g k).schedule = s.schedule := rfl
@[simp] theorem State.setReadView_draws (g : Code) (k : Nat) : (s.setReadView g k).draws = s.draws := rfl

/-! `State.setPendingLow` -/

@[simp] theorem State.setPendingLow_ring (w : Half) : (s.setPendingLow w).ring = s.ring := rfl
@[simp] theorem State.setPendingLow_wg (w : Half) : (s.setPendingLow w).wg = s.wg := rfl
@[simp] theorem State.setPendingLow_rs (w : Half) : (s.setPendingLow w).rs = s.rs := rfl
@[simp] theorem State.setPendingLow_ws (w : Half) : (s.setPendingLow w).ws = s.ws := rfl
@[simp] theorem State.setPendingLow_rd (w : Half) : (s.setPendingLow w).rd = s.rd := rfl
@[simp] theorem State.setPendingLow_rg (w : Half) : (s.setPendingLow w).rg = s.rg := rfl
@[simp] theorem State.setPendingLow_pendingLow (w : Half) : (s.setPendingLow w).pendingLow = w := rfl
@[simp] theorem State.setPendingLow_acc (w : Half) : (s.setPendingLow w).acc = s.acc := rfl
@[simp] theorem State.setPendingLow_bitOffset (w : Half) : (s.setPendingLow w).bitOffset = s.bitOffset := rfl
@[simp] theorem State.setPendingLow_frameOut (w : Half) : (s.setPendingLow w).frameOut = s.frameOut := rfl
@[simp] theorem State.setPendingLow_frameValid (w : Half) : (s.setPendingLow w).frameValid = s.frameValid := rfl
@[simp] theorem State.setPendingLow_frames (w : Half) : (s.setPendingLow w).frames = s.frames := rfl
@[simp] theorem State.setPendingLow_hw (w : Half) : (s.setPendingLow w).hw = s.hw := rfl
@[simp] theorem State.setPendingLow_jw (w : Half) : (s.setPendingLow w).jw = s.jw := rfl
@[simp] theorem State.setPendingLow_hr (w : Half) : (s.setPendingLow w).hr = s.hr := rfl
@[simp] theorem State.setPendingLow_jr (w : Half) : (s.setPendingLow w).jr = s.jr := rfl
@[simp] theorem State.setPendingLow_causes (w : Half) : (s.setPendingLow w).causes = s.causes := rfl
@[simp] theorem State.setPendingLow_rstP (w : Half) : (s.setPendingLow w).rstP = s.rstP := rfl
@[simp] theorem State.setPendingLow_rstC (w : Half) : (s.setPendingLow w).rstC = s.rstC := rfl
@[simp] theorem State.setPendingLow_schedule (w : Half) : (s.setPendingLow w).schedule = s.schedule := rfl
@[simp] theorem State.setPendingLow_draws (w : Half) : (s.setPendingLow w).draws = s.draws := rfl

/-! `State.withSchedule` -/

@[simp] theorem State.withSchedule_ring (schedule : List Event) : (s.withSchedule schedule).ring = s.ring := rfl
@[simp] theorem State.withSchedule_wg (schedule : List Event) : (s.withSchedule schedule).wg = s.wg := rfl
@[simp] theorem State.withSchedule_rs (schedule : List Event) : (s.withSchedule schedule).rs = s.rs := rfl
@[simp] theorem State.withSchedule_ws (schedule : List Event) : (s.withSchedule schedule).ws = s.ws := rfl
@[simp] theorem State.withSchedule_rd (schedule : List Event) : (s.withSchedule schedule).rd = s.rd := rfl
@[simp] theorem State.withSchedule_rg (schedule : List Event) : (s.withSchedule schedule).rg = s.rg := rfl
@[simp] theorem State.withSchedule_pendingLow (schedule : List Event) : (s.withSchedule schedule).pendingLow = s.pendingLow := rfl
@[simp] theorem State.withSchedule_acc (schedule : List Event) : (s.withSchedule schedule).acc = s.acc := rfl
@[simp] theorem State.withSchedule_bitOffset (schedule : List Event) : (s.withSchedule schedule).bitOffset = s.bitOffset := rfl
@[simp] theorem State.withSchedule_frameOut (schedule : List Event) : (s.withSchedule schedule).frameOut = s.frameOut := rfl
@[simp] theorem State.withSchedule_frameValid (schedule : List Event) : (s.withSchedule schedule).frameValid = s.frameValid := rfl
@[simp] theorem State.withSchedule_frames (schedule : List Event) : (s.withSchedule schedule).frames = s.frames := rfl
@[simp] theorem State.withSchedule_hw (schedule : List Event) : (s.withSchedule schedule).hw = s.hw := rfl
@[simp] theorem State.withSchedule_jw (schedule : List Event) : (s.withSchedule schedule).jw = s.jw := rfl
@[simp] theorem State.withSchedule_hr (schedule : List Event) : (s.withSchedule schedule).hr = s.hr := rfl
@[simp] theorem State.withSchedule_jr (schedule : List Event) : (s.withSchedule schedule).jr = s.jr := rfl
@[simp] theorem State.withSchedule_causes (schedule : List Event) : (s.withSchedule schedule).causes = s.causes := rfl
@[simp] theorem State.withSchedule_rstP (schedule : List Event) : (s.withSchedule schedule).rstP = s.rstP := rfl
@[simp] theorem State.withSchedule_rstC (schedule : List Event) : (s.withSchedule schedule).rstC = s.rstC := rfl
@[simp] theorem State.withSchedule_schedule (schedule : List Event) : (s.withSchedule schedule).schedule = schedule := rfl
@[simp] theorem State.withSchedule_draws (schedule : List Event) : (s.withSchedule schedule).draws = s.draws := rfl

end Sys2Proof.Machine
end

