-- ==== Sys2Proof/Laws/Decoder.lean ====
section
/-! SUPPORT. Laws/Decoder.lean: what a pulse pair and a completion can do, said once, and the state they leave alone. -/

namespace Sys2Proof.Machine

/-! ## What the decoder leaves alone (R122, R141) -/

@[simp] theorem State.completeFrame_ring (s : State) (acc : Acc) : (s.completeFrame acc).ring = s.ring := by
  unfold State.completeFrame; split <;> rfl
@[simp] theorem State.completeFrame_wg (s : State) (acc : Acc) : (s.completeFrame acc).wg = s.wg := by
  unfold State.completeFrame; split <;> rfl
@[simp] theorem State.completeFrame_rs (s : State) (acc : Acc) : (s.completeFrame acc).rs = s.rs := by
  unfold State.completeFrame; split <;> rfl
@[simp] theorem State.completeFrame_ws (s : State) (acc : Acc) : (s.completeFrame acc).ws = s.ws := by
  unfold State.completeFrame; split <;> rfl
@[simp] theorem State.completeFrame_rd (s : State) (acc : Acc) : (s.completeFrame acc).rd = s.rd := by
  unfold State.completeFrame; split <;> rfl
@[simp] theorem State.completeFrame_rg (s : State) (acc : Acc) : (s.completeFrame acc).rg = s.rg := by
  unfold State.completeFrame; split <;> rfl
@[simp] theorem State.completeFrame_pendingLow (s : State) (acc : Acc) : (s.completeFrame acc).pendingLow = s.pendingLow := by
  unfold State.completeFrame; split <;> rfl
@[simp] theorem State.completeFrame_hw (s : State) (acc : Acc) : (s.completeFrame acc).hw = s.hw := by
  unfold State.completeFrame; split <;> rfl
@[simp] theorem State.completeFrame_jw (s : State) (acc : Acc) : (s.completeFrame acc).jw = s.jw := by
  unfold State.completeFrame; split <;> rfl
@[simp] theorem State.completeFrame_hr (s : State) (acc : Acc) : (s.completeFrame acc).hr = s.hr := by
  unfold State.completeFrame; split <;> rfl
@[simp] theorem State.completeFrame_jr (s : State) (acc : Acc) : (s.completeFrame acc).jr = s.jr := by
  unfold State.completeFrame; split <;> rfl
@[simp] theorem State.completeFrame_rstP (s : State) (acc : Acc) : (s.completeFrame acc).rstP = s.rstP := by
  unfold State.completeFrame; split <;> rfl
@[simp] theorem State.completeFrame_rstC (s : State) (acc : Acc) : (s.completeFrame acc).rstC = s.rstC := by
  unfold State.completeFrame; split <;> rfl
@[simp] theorem State.completeFrame_schedule (s : State) (acc : Acc) : (s.completeFrame acc).schedule = s.schedule := by
  unfold State.completeFrame; split <;> rfl
@[simp] theorem State.completeFrame_draws (s : State) (acc : Acc) : (s.completeFrame acc).draws = s.draws := by
  unfold State.completeFrame; split <;> rfl

@[simp] theorem State.applyPulse_ring (s : State) (r : PulseResult) : (s.applyPulse r).ring = s.ring := by
  cases r <;> simp [State.applyPulse]
@[simp] theorem State.applyPulse_wg (s : State) (r : PulseResult) : (s.applyPulse r).wg = s.wg := by
  cases r <;> simp [State.applyPulse]
@[simp] theorem State.applyPulse_rs (s : State) (r : PulseResult) : (s.applyPulse r).rs = s.rs := by
  cases r <;> simp [State.applyPulse]
@[simp] theorem State.applyPulse_ws (s : State) (r : PulseResult) : (s.applyPulse r).ws = s.ws := by
  cases r <;> simp [State.applyPulse]
@[simp] theorem State.applyPulse_rd (s : State) (r : PulseResult) : (s.applyPulse r).rd = s.rd := by
  cases r <;> simp [State.applyPulse]
@[simp] theorem State.applyPulse_rg (s : State) (r : PulseResult) : (s.applyPulse r).rg = s.rg := by
  cases r <;> simp [State.applyPulse]
@[simp] theorem State.applyPulse_pendingLow (s : State) (r : PulseResult) : (s.applyPulse r).pendingLow = s.pendingLow := by
  cases r <;> simp [State.applyPulse]
@[simp] theorem State.applyPulse_hw (s : State) (r : PulseResult) : (s.applyPulse r).hw = s.hw := by
  cases r <;> simp [State.applyPulse]
@[simp] theorem State.applyPulse_jw (s : State) (r : PulseResult) : (s.applyPulse r).jw = s.jw := by
  cases r <;> simp [State.applyPulse]
@[simp] theorem State.applyPulse_hr (s : State) (r : PulseResult) : (s.applyPulse r).hr = s.hr := by
  cases r <;> simp [State.applyPulse]
@[simp] theorem State.applyPulse_jr (s : State) (r : PulseResult) : (s.applyPulse r).jr = s.jr := by
  cases r <;> simp [State.applyPulse]
@[simp] theorem State.applyPulse_rstP (s : State) (r : PulseResult) : (s.applyPulse r).rstP = s.rstP := by
  cases r <;> simp [State.applyPulse]
@[simp] theorem State.applyPulse_rstC (s : State) (r : PulseResult) : (s.applyPulse r).rstC = s.rstC := by
  cases r <;> simp [State.applyPulse]
@[simp] theorem State.applyPulse_schedule (s : State) (r : PulseResult) : (s.applyPulse r).schedule = s.schedule := by
  cases r <;> simp [State.applyPulse]
@[simp] theorem State.applyPulse_draws (s : State) (r : PulseResult) : (s.applyPulse r).draws = s.draws := by
  cases r <;> simp [State.applyPulse]

@[simp] theorem State.processPulse_ring (s : State) (lo hi : Half) : (s.processPulse lo hi).ring = s.ring := by
  simp [State.processPulse]
@[simp] theorem State.processPulse_wg (s : State) (lo hi : Half) : (s.processPulse lo hi).wg = s.wg := by
  simp [State.processPulse]
@[simp] theorem State.processPulse_rs (s : State) (lo hi : Half) : (s.processPulse lo hi).rs = s.rs := by
  simp [State.processPulse]
@[simp] theorem State.processPulse_ws (s : State) (lo hi : Half) : (s.processPulse lo hi).ws = s.ws := by
  simp [State.processPulse]
@[simp] theorem State.processPulse_rd (s : State) (lo hi : Half) : (s.processPulse lo hi).rd = s.rd := by
  simp [State.processPulse]
@[simp] theorem State.processPulse_rg (s : State) (lo hi : Half) : (s.processPulse lo hi).rg = s.rg := by
  simp [State.processPulse]
@[simp] theorem State.processPulse_pendingLow (s : State) (lo hi : Half) : (s.processPulse lo hi).pendingLow = s.pendingLow := by
  simp [State.processPulse]
@[simp] theorem State.processPulse_hw (s : State) (lo hi : Half) : (s.processPulse lo hi).hw = s.hw := by
  simp [State.processPulse]
@[simp] theorem State.processPulse_jw (s : State) (lo hi : Half) : (s.processPulse lo hi).jw = s.jw := by
  simp [State.processPulse]
@[simp] theorem State.processPulse_hr (s : State) (lo hi : Half) : (s.processPulse lo hi).hr = s.hr := by
  simp [State.processPulse]
@[simp] theorem State.processPulse_jr (s : State) (lo hi : Half) : (s.processPulse lo hi).jr = s.jr := by
  simp [State.processPulse]
@[simp] theorem State.processPulse_rstP (s : State) (lo hi : Half) : (s.processPulse lo hi).rstP = s.rstP := by
  simp [State.processPulse]
@[simp] theorem State.processPulse_rstC (s : State) (lo hi : Half) : (s.processPulse lo hi).rstC = s.rstC := by
  simp [State.processPulse]
@[simp] theorem State.processPulse_schedule (s : State) (lo hi : Half) : (s.processPulse lo hi).schedule = s.schedule := by
  simp [State.processPulse]
@[simp] theorem State.processPulse_draws (s : State) (lo hi : Half) : (s.processPulse lo hi).draws = s.draws := by
  simp [State.processPulse]

/-! ## Completion -/

/-- A completion emits the frame the validator gives, or logs its failure; the decoder resets either way (R118). -/
theorem State.completeFrame_cases (s : State) (acc : Acc) :
    (∃ f, validate acc = .ok f ∧ s.completeFrame acc = (s.emit f).resetDecoder (.complete true)) ∨
    (∃ word check, validate acc = .error (word, check) ∧
      s.completeFrame acc = (s.log (.invalidFrame word check)).resetDecoder (.complete false)) := by
  unfold State.completeFrame
  rcases hv : validate acc with ⟨word, check⟩ | f
  · exact .inr ⟨word, check, rfl, rfl⟩
  · exact .inl ⟨f, rfl, rfl⟩

@[simp] theorem State.completeFrame_acc (s : State) (acc : Acc) : (s.completeFrame acc).acc = accZero := by
  unfold State.completeFrame; split <;> rfl

@[simp] theorem State.completeFrame_bitOffset (s : State) (acc : Acc) : (s.completeFrame acc).bitOffset = 0 := by
  unfold State.completeFrame; split <;> rfl

/-! ## The pulse pair -/

/-- Where the high phase of a stored low phase leaves the decoder (R117 to R121), with `bw2` the slot after the low
phase: inside its word, at the next word's start, or at one of the three ends. -/
theorem highPhase_cases (acc : Acc) (bi bw2 h : Nat) (h2 : 1 ≤ bw2) :
    (bw2 + h < 12 ∧ highPhase acc bi bw2 h = .accumulate acc (12 * bi + bw2 + h)) ∨
    (12 ≤ bw2 + h ∧ bw2 + h ≤ 24 ∧ bi ≠ 24 ∧ highPhase acc bi bw2 h = .accumulate acc (12 * (bi + 1))) ∨
    (12 ≤ bw2 + h ∧ bw2 + h ≤ 24 ∧ bi = 24 ∧
      highPhase acc bi bw2 h = .violation (.frameOverrun (bw2 + h - 12))) ∨
    (24 < bw2 + h ∧ bi ≠ 24 ∧
      highPhase acc bi bw2 h = .violation (.midframeBreak (12 * (bi + 1)) (bw2 + h - 12))) ∨
    (24 < bw2 + h ∧ bi = 24 ∧ highPhase acc bi bw2 h = .complete acc) := by
  unfold highPhase afterHigh
  simp only [Config.slots, Config.frameBits, Config.breakLimit]
  rcases Nat.lt_or_ge (bw2 + h) 12 with hin | hpast
  · refine .inl ⟨hin, ?_⟩
    rw [if_pos hin, if_neg (by omega), if_neg (by omega)]
  · rw [if_neg (by omega)]
    rcases Nat.lt_or_ge 24 (bw2 + h) with hbreak | hgap
    · by_cases hbi : bi = 24
      · exact .inr (.inr (.inr (.inr ⟨hbreak, hbi, by rw [if_pos (by omega), if_pos (by omega)]⟩)))
      · exact .inr (.inr (.inr (.inl ⟨hbreak, hbi, by rw [if_neg (by omega), if_pos (by omega)]⟩)))
    · by_cases hbi : bi = 24
      · exact .inr (.inr (.inl ⟨hpast, hgap, hbi, by rw [if_pos (by omega), if_neg (by omega)]⟩))
      · exact .inr (.inl ⟨hpast, hgap, hbi, by rw [if_neg (by omega), if_neg (by omega)]⟩)

/-- The start of a pulse pair (R113, R115): a reset before anything is stored, or the low phase stored and the high
phase to follow. -/
theorem pulse_cases (acc : Acc) (n : Nat) (lo hi : Half) :
    ((bits lo = 0 ∨ bits hi = 0) ∧ pulse acc n lo hi = .violation (.zeroWidth lo hi)) ∨
    (1 ≤ bits lo ∧ 1 ≤ bits hi ∧ 10 < n % 12 + bits lo ∧
      pulse acc n lo hi = .violation (.lowOverrun n (bits lo))) ∨
    (1 ≤ bits lo ∧ 1 ≤ bits hi ∧ n % 12 + bits lo ≤ 10 ∧
      pulse acc n lo hi = highPhase (orLow acc (n / 12) (n % 12) (bits lo)) (n / 12) (n % 12 + bits lo) (bits hi)) := by
  unfold pulse
  by_cases hz : bits lo = 0 ∨ bits hi = 0
  · exact .inl ⟨hz, by rw [if_pos hz]⟩
  · have hz' := hz
    simp only [not_or] at hz'
    rcases Nat.lt_or_ge 10 (n % 12 + bits lo) with ho | ho
    · refine .inr (.inl ⟨by omega, by omega, ho, ?_⟩)
      rw [if_neg hz, if_pos (show Config.lowLimit < slotIndex n + bits lo from ho)]
    · refine .inr (.inr ⟨by omega, by omega, ho, ?_⟩)
      rw [if_neg hz, if_neg (show ¬ Config.lowLimit < slotIndex n + bits lo from Nat.not_lt.mpr ho)]
      rfl

/-- Everything `process_pulse` can do (R111), with `l` and `h` the two bit counts and the pair's low phase at slot
`n % 12` of word `n / 12`. -/
theorem State.processPulse_cases (s : State) (lo hi : Half) {n l h : Nat} {acc : Acc} (hn : n = s.bitOffset.toNat)
    (hl : l = bits lo) (hh : h = bits hi) (ha : acc = orLow s.acc (n / 12) (n % 12) l) :
    ((l = 0 ∨ h = 0) ∧ s.processPulse lo hi = s.resetDecoder (.zeroWidth lo hi)) ∨
    (1 ≤ l ∧ 1 ≤ h ∧ 10 < n % 12 + l ∧ s.processPulse lo hi = s.resetDecoder (.lowOverrun n l)) ∨
    (1 ≤ l ∧ 1 ≤ h ∧ n % 12 + l ≤ 10 ∧ n % 12 + l + h < 12 ∧ s.processPulse lo hi = s.accumulate acc (n + l + h)) ∨
    (1 ≤ l ∧ 1 ≤ h ∧ n % 12 + l ≤ 10 ∧ 12 ≤ n % 12 + l + h ∧ n % 12 + l + h ≤ 24 ∧ n / 12 ≠ 24 ∧
      s.processPulse lo hi = s.accumulate acc (12 * (n / 12 + 1))) ∨
    (1 ≤ l ∧ 1 ≤ h ∧ n % 12 + l ≤ 10 ∧ 12 ≤ n % 12 + l + h ∧ n % 12 + l + h ≤ 24 ∧ n / 12 = 24 ∧
      s.processPulse lo hi = s.resetDecoder (.frameOverrun (n % 12 + l + h - 12))) ∨
    (1 ≤ l ∧ 1 ≤ h ∧ n % 12 + l ≤ 10 ∧ 24 < n % 12 + l + h ∧ n / 12 ≠ 24 ∧
      s.processPulse lo hi = s.resetDecoder (.midframeBreak (12 * (n / 12 + 1)) (n % 12 + l + h - 12))) ∨
    (1 ≤ l ∧ 1 ≤ h ∧ n % 12 + l ≤ 10 ∧ 24 < n % 12 + l + h ∧ n / 12 = 24 ∧
      s.processPulse lo hi = s.completeFrame acc) := by
  subst hn hl hh ha
  unfold State.processPulse
  obtain ⟨hz, hp⟩ | ⟨hl, hh, ho, hp⟩ | ⟨hl, hh, ho, hp⟩ := pulse_cases s.acc s.bitOffset.toNat lo hi
  · exact .inl ⟨hz, by rw [hp]; rfl⟩
  · exact .inr (.inl ⟨hl, hh, ho, by rw [hp]; rfl⟩)
  · refine .inr (.inr ?_)
    have sum : 12 * (s.bitOffset.toNat / 12) + (s.bitOffset.toNat % 12 + bits lo) + bits hi =
        s.bitOffset.toNat + bits lo + bits hi := by omega
    rw [hp]
    obtain ⟨h1, hq⟩ | ⟨h1, h2, h3, hq⟩ | ⟨h1, h2, h3, hq⟩ | ⟨h1, h3, hq⟩ | ⟨h1, h3, hq⟩ :=
      highPhase_cases (orLow s.acc (s.bitOffset.toNat / 12) (s.bitOffset.toNat % 12) (bits lo))
        (s.bitOffset.toNat / 12) (s.bitOffset.toNat % 12 + bits lo) (bits hi) (by omega)
    · exact .inl ⟨hl, hh, ho, h1, by rw [hq, ← sum]; rfl⟩
    · exact .inr (.inl ⟨hl, hh, ho, h1, h2, h3, by rw [hq]; rfl⟩)
    · exact .inr (.inr (.inl ⟨hl, hh, ho, h1, h2, h3, by rw [hq]; rfl⟩))
    · exact .inr (.inr (.inr (.inl ⟨hl, hh, ho, h1, h3, by rw [hq]; rfl⟩)))
    · exact .inr (.inr (.inr (.inr ⟨hl, hh, ho, h1, h3, by rw [hq]; rfl⟩)))

/-! ## The low phase -/

theorem lowMask_getLsbD (bw l k : Nat) (hk : k < 12) :
    (lowMask bw l).getLsbD k = (decide (bw ≤ k) && decide (k < bw + l)) := by
  simp only [lowMask, BitVec.getLsbD_ofNat, hk, decide_true, Bool.true_and, Nat.testBit_shiftLeft,
    Nat.one_shiftLeft, Nat.testBit_two_pow_sub_one]
  by_cases h : bw ≤ k
  · simp [h]; omega
  · simp [h]

/-- The low phase sets exactly its slots (R116). -/
theorem orLow_slots (acc : Acc) (bi bw l : Nat) : LowPhaseOr acc (orLow acc bi bw l) bi bw l := by
  intro i hi k hk
  unfold orLow
  by_cases h : i = bi
  · subst h
    simp [accWord, hi, lowMask_getLsbD _ _ _ hk]
  · simp [Ne.symm h, h]

end Sys2Proof.Machine
end

