-- ==== Sys2Proof/Laws/Gray.lean ====
section
/-! SUPPORT. Laws/Gray.lean: small facts about the cursor code and the cursor's increment. -/

namespace Sys2Proof.Machine

/-- `D(E(v)) = v` (R74). -/
@[simp] theorem cursorDecode_cursorEncode (v : Cursor) : cursorDecode (cursorEncode v) = v := by
  have all : ∀ n : Fin 512, cursorDecode (cursorEncode (BitVec.ofFin n)) = BitVec.ofFin n := by decide +kernel
  exact all v.toFin

theorem cursorEncode_injective {u v : Cursor} (h : cursorEncode u = cursorEncode v) : u = v := by
  simpa using congrArg cursorDecode h

/-- The recurrence R72 gives `ungray`. -/
theorem ungray_recurrence (g : Code) (i : Nat) (hi : i < 8) :
    (ungray g).getLsbD i = ((ungray g).getLsbD (i + 1) ^^ g.getLsbD i) := by
  have all : ∀ n : Fin 512, ∀ k : Fin 8, (ungray (BitVec.ofFin n)).getLsbD k =
      ((ungray (BitVec.ofFin n)).getLsbD (k + 1) ^^ (BitVec.ofFin (w := 9) n).getLsbD k) := by decide +kernel
  exact all g.toFin ⟨i, hi⟩

theorem cursorEncode_zero : cursorEncode 0 = resetCode := by decide

theorem cursorValid_iff (v : Cursor) : cursorValid v = true ↔ v.toNat < 300 := by
  simp [cursorValid, Config.capacity]

theorem cursorNext_toNat (v : Cursor) : (cursorNext v).toNat = (v.toNat + 1) % 300 := by
  simp [cursorNext, Config.capacity]
  omega

theorem cursorNext_lt (v : Cursor) : (cursorNext v).toNat < 300 := by
  rw [cursorNext_toNat]; omega

theorem cursorAt_toNat (n : Nat) : (cursorAt n).toNat = n % 300 := by
  simp [cursorAt, Config.capacity]
  omega

theorem cursorAt_self {v : Cursor} (h : v.toNat < 300) : cursorAt v.toNat = v := by
  apply BitVec.eq_of_toNat_eq
  rw [cursorAt_toNat]; omega

theorem cursorNext_cursorAt (n : Nat) : cursorNext (cursorAt n) = cursorAt (n + 1) := by
  apply BitVec.eq_of_toNat_eq
  rw [cursorNext_toNat, cursorAt_toNat, cursorAt_toNat]; omega

theorem cursorAt_congr {m n : Nat} (h : m % 300 = n % 300) : cursorAt m = cursorAt n := by
  apply BitVec.eq_of_toNat_eq
  rw [cursorAt_toNat, cursorAt_toNat, h]

/-- A mixture of two codes that differ in one bit is one of them. -/
theorem mixCodes_of_one_bit {old new : Code} {k : Nat} (h : old ^^^ new = BitVec.twoPow 9 k) (m : Code) :
    mixCodes old new m = old ∨ mixCodes old new m = new := by
  have differ : ∀ i < 9, i ≠ k → old.getLsbD i = new.getLsbD i := by
    intro i hi hik
    have hx := congrArg (fun x => x.getLsbD i) h
    simp only [BitVec.getLsbD_xor, BitVec.getLsbD_twoPow, Ne.symm hik, decide_false, Bool.and_false] at hx
    cases ho : old.getLsbD i <;> cases hn : new.getLsbD i <;> simp [ho, hn] at hx ⊢
  have at_bit : ∀ i, i < 9 → (mixCodes old new m).getLsbD i =
      (old.getLsbD i && !m.getLsbD i || new.getLsbD i && m.getLsbD i) := by
    intro i hi
    simp [mixCodes, hi]
  by_cases hm : m.getLsbD k = true
  · refine .inr (BitVec.eq_of_getLsbD_eq fun i hi => ?_)
    rw [at_bit i hi]
    by_cases hik : i = k
    · rw [hik, hm]; simp
    · rw [differ i hi hik]; cases new.getLsbD i <;> cases m.getLsbD i <;> rfl
  · refine .inl (BitVec.eq_of_getLsbD_eq fun i hi => ?_)
    rw [at_bit i hi]
    by_cases hik : i = k
    · rw [hik]; simp [hm]
    · rw [differ i hi hik]; cases new.getLsbD i <;> cases m.getLsbD i <;> rfl

/-- Consecutive cursors' codes differ in one bit, the wrap included (R75). -/
theorem cursorEncode_next_one_bit {v : Cursor} (h : v.toNat < 300) :
    ∃ k, cursorEncode v ^^^ cursorEncode (cursorNext v) = BitVec.twoPow 9 k := by
  have all : ∀ n : Fin 300, ∃ k : Fin 9, cursorEncode (BitVec.ofNat 9 n) ^^^
      cursorEncode (cursorNext (BitVec.ofNat 9 n)) = BitVec.twoPow 9 k := by decide +kernel
  obtain ⟨k, hk⟩ := all ⟨v.toNat, h⟩
  exact ⟨k, by simpa using hk⟩

end Sys2Proof.Machine
end

