-- ==== Sys2Proof/Laws/Memory.lean ====
section
/-! SUPPORT. Laws/Memory.lean: reading after writing the ring, and that every write keeps the canonical form. -/

namespace Sys2Proof.Machine

/-! ## One byte -/

theorem Memory.written_store_same (m : Memory) (a : Nat) (b : Byte) :
    (m.store a b).written a = some b := by
  induction m with
  | nil => simp [Memory.store, Memory.written]
  | cons c rest ih =>
    unfold Memory.store
    split
    · simp [Memory.written]
    · split
      · simp [Memory.written]
      · next _ hne => simp [Memory.written, Ne.symm hne, ih]

theorem Memory.written_store_other (m : Memory) {a a' : Nat} (b : Byte) (h : a' ≠ a) :
    (m.store a b).written a' = m.written a' := by
  induction m with
  | nil => simp [Memory.store, Memory.written, Ne.symm h]
  | cons c rest ih =>
    unfold Memory.store
    split
    · simp [Memory.written, Ne.symm h]
    · split
      · next heq => simp [Memory.written, Ne.symm h, ← heq]
      · simp [Memory.written, ih]

theorem Memory.readByte_store_same (m : Memory) (a : Nat) (b : Byte) : (m.store a b).readByte a = b := by
  simp [Memory.readByte, Memory.written_store_same]

theorem Memory.readByte_store_other (m : Memory) {a a' : Nat} (b : Byte) (h : a' ≠ a) :
    (m.store a b).readByte a' = m.readByte a' := by
  simp [Memory.readByte, Memory.written_store_other m b h]

/-! ## The canonical form -/

/-- A memory in canonical form whose addresses all exceed a bound. -/
def Memory.above (a : Nat) (m : Memory) : Prop := ∀ c ∈ m.head?, a < c.1

theorem Memory.rising_cons (c : Host.Cell) (m : Memory) :
    Memory.rising (c :: m) = true ↔ Memory.above c.1 m ∧ m.rising = true := by
  cases m with
  | nil => simp [Memory.rising, Memory.above]
  | cons d rest => simp [Memory.rising, Memory.above]

theorem Memory.above_store {m : Memory} {a k : Nat} {b : Byte} (h : Memory.above k m) (hk : k < a) :
    Memory.above k (m.store a b) := by
  cases m with
  | nil => simpa [Memory.store, Memory.above] using hk
  | cons c rest =>
    have hc : k < c.1 := by simpa [Memory.above] using h
    unfold Memory.store
    split
    · simpa [Memory.above] using hk
    · split
      · simpa [Memory.above] using hk
      · simpa [Memory.above] using hc

theorem Memory.rising_store {m : Memory} (a : Nat) (b : Byte) (h : m.rising = true) :
    (m.store a b).rising = true := by
  induction m with
  | nil => rfl
  | cons c rest ih =>
    obtain ⟨habove, hrest⟩ := (Memory.rising_cons c rest).mp h
    unfold Memory.store
    split
    · next hlt => exact (Memory.rising_cons _ _).mpr ⟨by simpa [Memory.above] using hlt, h⟩
    · split
      · next heq => subst heq; exact (Memory.rising_cons _ _).mpr ⟨habove, hrest⟩
      · next hnlt hne =>
        exact (Memory.rising_cons _ _).mpr ⟨Memory.above_store habove (by omega), ih hrest⟩

theorem Memory.mem_store {m : Memory} {a : Nat} {b : Byte} {c : Host.Cell} (h : c ∈ m.store a b) :
    c = (a, b) ∨ c ∈ m := by
  induction m with
  | nil => simpa [Memory.store] using h
  | cons d rest ih =>
    unfold Memory.store at h
    split at h
    · simpa using h
    · split at h
      · rcases List.mem_cons.mp h with h | h
        · exact .inl h
        · exact .inr (List.mem_cons_of_mem _ h)
      · rcases List.mem_cons.mp h with h | h
        · exact .inr (by simp [h])
        · exact (ih h).imp id (List.mem_cons_of_mem _)

/-- Storing a byte inside the address space keeps the canonical form. -/
theorem Memory.wf_store {m : Memory} {a : Nat} (b : Byte) (ha : a < ringBytes) (h : m.wf = true) :
    (m.store a b).wf = true := by
  simp only [Memory.wf, Bool.and_eq_true, List.all_eq_true, decide_eq_true_eq] at h ⊢
  refine ⟨Memory.rising_store a b h.1, fun c hc => ?_⟩
  rcases Memory.mem_store hc with rfl | hc
  · exact ha
  · exact h.2 c hc

/-- Writing an entry at a valid index keeps the canonical form. -/
theorem wf_ringWrite {m : Memory} {i : Nat} (e : Entry) (hi : i < Config.capacity) (h : m.wf = true) :
    (ringWrite m i e).wf = true := by
  have hi : i < 300 := hi
  unfold ringWrite
  refine Memory.wf_store _ ?_ (Memory.wf_store _ ?_ (Memory.wf_store _ ?_ (Memory.wf_store _ ?_ h)))
  all_goals show _ < 4 * 300; omega

/-! ## Whole entries -/

/-- A byte outside the written entry reads as before. -/
theorem readByte_ringWrite_other (m : Memory) {i a : Nat} (e : Entry) (h : a < 4 * i ∨ 4 * i + 4 ≤ a) :
    (ringWrite m i e).readByte a = m.readByte a := by
  unfold ringWrite
  rw [Memory.readByte_store_other _ _ (by omega), Memory.readByte_store_other _ _ (by omega),
    Memory.readByte_store_other _ _ (by omega), Memory.readByte_store_other _ _ (by omega)]

/-- The bytes of the written entry. -/
theorem readByte_ringWrite_same (m : Memory) (i : Nat) (e : Entry) :
    (ringWrite m i e).readByte (4 * i) = entryByte e 0 ∧ (ringWrite m i e).readByte (4 * i + 1) = entryByte e 1 ∧
      (ringWrite m i e).readByte (4 * i + 2) = entryByte e 2 ∧
      (ringWrite m i e).readByte (4 * i + 3) = entryByte e 3 := by
  unfold ringWrite
  refine ⟨?_, ?_, ?_, ?_⟩
  · rw [Memory.readByte_store_other _ _ (by omega), Memory.readByte_store_other _ _ (by omega),
      Memory.readByte_store_other _ _ (by omega), Memory.readByte_store_same]
  · rw [Memory.readByte_store_other _ _ (by omega), Memory.readByte_store_other _ _ (by omega),
      Memory.readByte_store_same]
  · rw [Memory.readByte_store_other _ _ (by omega), Memory.readByte_store_same]
  · rw [Memory.readByte_store_same]

/-- An entry is its four bytes, the least significant lowest (R46). -/
theorem entry_of_bytes (e : Entry) :
    (entryByte e 3 ++ entryByte e 2 ++ entryByte e 1 ++ entryByte e 0 : BitVec 32) = e := by
  apply BitVec.eq_of_getLsbD_eq
  intro k hk
  simp only [entryByte, BitVec.getLsbD_append, BitVec.getLsbD_extractLsb']
  by_cases h0 : k < 8
  · simp [h0]
  · by_cases h1 : k - 8 < 8
    · simp [h0, h1]; congr 1; omega
    · by_cases h2 : k - 8 - 8 < 8
      · simp [h0, h1, h2]; congr 1; omega
      · have h3 : k - 8 - 8 - 8 < 8 := by omega
        simp [h0, h1, h2, h3]; congr 1; omega

/-- An entry written is the entry read. -/
theorem ringRead_ringWrite_same (m : Memory) (i : Nat) (e : Entry) : ringRead (ringWrite m i e) i = e := by
  obtain ⟨h0, h1, h2, h3⟩ := readByte_ringWrite_same m i e
  unfold ringRead
  rw [h0, h1, h2, h3]
  exact entry_of_bytes e

/-- Another entry reads as before. -/
theorem ringRead_ringWrite_other (m : Memory) {i j : Nat} (e : Entry) (h : j ≠ i) :
    ringRead (ringWrite m i e) j = ringRead m j := by
  unfold ringRead
  rw [readByte_ringWrite_other _ _ (by omega), readByte_ringWrite_other _ _ (by omega),
    readByte_ringWrite_other _ _ (by omega), readByte_ringWrite_other _ _ (by omega)]

end Sys2Proof.Machine
end

