-- ==== Sys2Proof/Laws/Sync.lean ====
section
/-! SUPPORT. Laws/Sync.lean: what a synchroniser sample can be. -/

namespace Sys2Proof.Machine

/-- A sample takes an element of the history from the last one taken on, or a mixture of a change after it (R89, R90):
what it shows is a view of the history at its index. -/
theorem sample_some {h : List Code} {j k : Nat} {choice : SyncChoice} {g : Code}
    (hs : sample h j choice = some (g, k)) :
    j ≤ k ∧ k < h.length ∧
      (h[k]? = some g ∨
        (j < k ∧ ∃ old new m, choice = .mix k m ∧ h[k - 1]? = some old ∧ h[k]? = some new ∧ g = mixCodes old new m)) := by
  have inside : ∀ {n x}, h[n]? = some x → n < h.length := fun hx => (List.getElem?_eq_some_iff.mp hx).1
  cases choice with
  | latest =>
    simp only [sample] at hs
    split at hs
    · next hle =>
      obtain ⟨x, hx, he⟩ := Option.map_eq_some_iff.mp hs
      obtain ⟨rfl, rfl⟩ := Prod.mk.inj he
      exact ⟨hle, inside hx, .inl hx⟩
    · cases hs
  | settled n =>
    simp only [sample] at hs
    split at hs
    · next hle =>
      obtain ⟨x, hx, he⟩ := Option.map_eq_some_iff.mp hs
      obtain ⟨rfl, rfl⟩ := Prod.mk.inj he
      exact ⟨hle, inside hx, .inl hx⟩
    · cases hs
  | mix n m =>
    simp only [sample] at hs
    split at hs
    · next hlt =>
      split at hs
      · next old new ho hn =>
        obtain ⟨rfl, rfl⟩ := Prod.mk.inj (Option.some.inj hs)
        exact ⟨by omega, inside hn, .inr ⟨hlt, old, new, m, rfl, ho, hn, rfl⟩⟩
      · cases hs
    · cases hs

/-- What a sample shows is a view at its new index (R91, item 1). -/
theorem viewOf_sample {h : List Code} {j k : Nat} {choice : SyncChoice} {g : Code}
    (hs : sample h j choice = some (g, k)) : ViewOf h k g := by
  obtain ⟨-, -, hg | ⟨hlt, old, new, m, -, ho, hn, hg⟩⟩ := sample_some hs
  · exact .inl hg
  · exact .inr ⟨by omega, old, new, m, ho, hn, hg⟩

/-- A view stays one when the history grows. -/
theorem ViewOf.append {h : List Code} {j : Nat} {g : Code} (hv : ViewOf h j g) (more : List Code) :
    ViewOf (h ++ more) j g := by
  have grow : ∀ {n x}, h[n]? = some x → (h ++ more)[n]? = some x := fun hx => by
    rw [List.getElem?_append_left (List.getElem?_eq_some_iff.mp hx).1, hx]
  obtain hg | ⟨hj, old, new, m, ho, hn, hg⟩ := hv
  · exact .inl (grow hg)
  · exact .inr ⟨hj, old, new, m, grow ho, grow hn, hg⟩

/-- The `SW` step, when it is one. -/
theorem State.sampleWrite_some {s t : State} {choice : SyncChoice} (h : s.sampleWrite choice = some t) :
    ∃ g k, sample s.hw s.jw choice = some (g, k) ∧ t = s.setWriteView g k := by
  obtain ⟨⟨g, k⟩, hs, rfl⟩ := Option.map_eq_some_iff.mp h
  exact ⟨g, k, hs, rfl⟩

/-- The `SR` step, when it is one. -/
theorem State.sampleRead_some {s t : State} {choice : SyncChoice} (h : s.sampleRead choice = some t) :
    ∃ g k, sample s.hr s.jr choice = some (g, k) ∧ t = s.setReadView g k := by
  obtain ⟨⟨g, k⟩, hs, rfl⟩ := Option.map_eq_some_iff.mp h
  exact ⟨g, k, hs, rfl⟩

end Sys2Proof.Machine
end

