-- ==== Sys2Proof/Laws/Step.lean ====
section
/-! SUPPORT. Laws/Step.lean: the meanings as equations, and ONE inversion lemma of the step that says everything a step
can do to the state (`step_effect`). Proofs over all steps cite it and do not unfold the step. -/

namespace Sys2Proof.Machine

/-! ## The meanings -/

theorem exec_pNop (data : BitVec 32) (s : State) : exec (.pNop data) s = .next s := rfl

theorem exec_pPush_valid {s : State} (pin dt : Half) (h : s.writeCursor.toNat < 300) :
    exec (.pPush pin dt) s = .next (s.push s.writeCursor (entryWord pin dt)) := by
  show execPPush pin dt s = _
  rw [execPPush, if_pos ((cursorValid_iff _).mpr h)]

theorem exec_pPush_corrupt {s : State} (pin dt : Half) (h : 300 ≤ s.writeCursor.toNat) :
    exec (.pPush pin dt) s = .next (s.log (.pushDropped s.writeCursor)) := by
  show execPPush pin dt s = _
  rw [execPPush, if_neg (by rw [cursorValid_iff]; omega)]

theorem exec_eLow (dt : Half) (s : State) :
    exec (.eLow dt) s = .next (s.endStrobe.setPendingLow dt).advanceRead := rfl

theorem exec_eHigh (dt : Half) (s : State) :
    exec (.eHigh dt) s =
      .next ((s.endStrobe.setPendingLow 0#16).processPulse s.pendingLow dt).advanceRead := rfl

theorem exec_eSkip (ignored pin : Half) (s : State) :
    exec (.eSkip ignored pin) s = .next s.endStrobe.advanceRead := rfl

/-- No instruction moves a view: the last stages and the indices change only by samples and resets (R50, R89). -/
theorem exec_keeps_views {i : Instr} {s t : State} (h : exec i s = .next t) :
    t.ws = s.ws ∧ t.jw = s.jw ∧ t.rs = s.rs ∧ t.jr = s.jr := by
  cases i with
  | pNop data => cases h; exact ⟨rfl, rfl, rfl, rfl⟩
  | pPush pin dt =>
    rcases Nat.lt_or_ge s.writeCursor.toNat 300 with hv | hv
    · rw [exec_pPush_valid pin dt hv] at h; cases h; exact ⟨rfl, rfl, rfl, rfl⟩
    · rw [exec_pPush_corrupt pin dt hv] at h; cases h; exact ⟨rfl, rfl, rfl, rfl⟩
  | pSetWr ignored v =>
    simp only [exec, execPSetWr] at h
    split at h <;> (cases h; exact ⟨rfl, rfl, rfl, rfl⟩)
  | pReserved data => cases h
  | eLow dt => cases h; exact ⟨rfl, rfl, rfl, rfl⟩
  | eHigh dt => rw [exec_eHigh] at h; cases h; simp
  | eSkip ignored pin => cases h; exact ⟨rfl, rfl, rfl, rfl⟩

/-- An entry decodes to one of the three entry classes (R66). -/
theorem decodeEntry_cases (e : Entry) :
    (∃ dt, decodeEntry e = .eLow dt) ∨ (∃ dt, decodeEntry e = .eHigh dt) ∨
      (∃ ignored pin, decodeEntry e = .eSkip ignored pin) := by
  unfold decodeEntry
  split
  · exact .inl ⟨_, rfl⟩
  · split
    · exact .inr (.inl ⟨_, rfl⟩)
    · exact .inr (.inr ⟨_, _, rfl⟩)

/-- A word is one of the four producer commands (R60). -/
theorem decodeCommand_cases (w : Command) :
    (∃ data, decodeCommand w = .pNop data) ∨ (∃ pin dt, decodeCommand w = .pPush pin dt) ∨
      (∃ ignored v, decodeCommand w = .pSetWr ignored v) ∨ (∃ data, decodeCommand w = .pReserved data) := by
  simp only [decodeCommand]
  split
  · exact .inl ⟨_, rfl⟩
  · split
    · exact .inr (.inl ⟨_, _, rfl⟩)
    · split
      · exact .inr (.inr (.inl ⟨_, _, rfl⟩))
      · exact .inr (.inr (.inr ⟨_, rfl⟩))

/-! ## The consumer's checks -/

theorem State.holdReason_none_iff (s : State) :
    s.holdReason = none ↔ s.rd ≠ s.wcSeen ∧ s.wcSeen.toNat < 300 ∧ s.rd.toNat < 300 := by
  unfold State.holdReason
  by_cases h : s.rd = s.wcSeen
  · simp [h]
  · by_cases hv : cursorValid s.wcSeen && cursorValid s.rd
    · simp only [Bool.and_eq_true, cursorValid_iff] at hv
      simp [h, (cursorValid_iff _).mpr hv.1, (cursorValid_iff _).mpr hv.2, hv]
    · simp only [h, if_false, hv]
      simp only [Bool.and_eq_true, cursorValid_iff] at hv
      simpa [h] using hv

/-- The checks read the two cursors alone. -/
theorem State.holdReason_congr {s t : State} (hrd : t.rd = s.rd) (hws : t.ws = s.ws) :
    t.holdReason = s.holdReason := by
  cases s; cases t
  cases hrd; cases hws
  rfl

/-! ## The agents' edges -/

theorem State.takeEvent_p {s : State} (w : Command) (up : s.rstP = false) :
    s.takeEvent (.p w) = .run (decodeCommand w) s := by
  simp only [State.takeEvent, up]; rfl

theorem State.takeEvent_c {s : State} (up : s.rstC = false) : s.takeEvent .c = s.consumerEdge := by
  simp only [State.takeEvent, up]; rfl

theorem State.consumerEdge_ready {s : State} (ready : s.holdReason = none) (h : s.writeCursor ≠ s.rd) :
    s.consumerEdge = .run (decodeEntry (ringRead s.ring s.rd.toNat)) s := by
  have hl : s.lapping = false := by simpa [State.lapping] using h
  simp only [State.consumerEdge, ready, State.readEntry, State.afterRead, hl]; rfl

theorem State.consumerEdge_lapping {s : State} (ready : s.holdReason = none) (h : s.writeCursor = s.rd) :
    s.consumerEdge = .run (decodeEntry s.drawn) s.afterDraw := by
  have hl : s.lapping = true := by simpa [State.lapping] using h
  simp only [State.consumerEdge, ready, State.readEntry, State.afterRead, hl]; rfl

theorem State.consumerEdge_held {s : State} (held : s.holdReason ≠ none) : s.consumerEdge = .done s.endStrobe := by
  obtain ⟨r, hr⟩ := Option.ne_none_iff_exists'.mp held
  simp only [State.consumerEdge, hr]

theorem State.takeEvent_drain_run {s t : State} {i : Instr} (up : s.rstC = false) (h : s.consumerEdge = .run i t) :
    s.takeEvent .drain = .run i (t.withSchedule (.drain :: t.schedule)) := by
  simp only [State.takeEvent, up, h]; rfl

theorem State.takeEvent_drain_done {s t : State} (up : s.rstC = false) (h : s.consumerEdge = .done t) :
    s.takeEvent .drain = .done t := by
  simp only [State.takeEvent, up, h]; rfl

theorem State.takeEvent_sw {s : State} {choice : SyncChoice} {g : Code} {k : Nat} (up : s.rstC = false)
    (h : sample s.hw s.jw choice = some (g, k)) : s.takeEvent (.sw choice) = .done (s.setWriteView g k) := by
  simp only [State.takeEvent, up, State.sampleWrite, h]; rfl

theorem State.takeEvent_sr {s : State} {choice : SyncChoice} {g : Code} {k : Nat} (up : s.rstP = false)
    (h : sample s.hr s.jr choice = some (g, k)) : s.takeEvent (.sr choice) = .done (s.setReadView g k) := by
  simp only [State.takeEvent, up, State.sampleRead, h]; rfl

/-! ## Everything a step can do -/

/-- The state with other inputs to come and another draw counter: what a step changes besides its effect. -/
def State.withInputs (s : State) (schedule : List Event) (draws : Nat) : State :=
  { s with schedule := schedule, draws := draws }

/-- The effect of one agent's step on the state, its line already taken off the schedule. -/
inductive StepEffect : State → State → Prop
  /-- Nothing: no event, `P_NOP`, a `P_SET_WR` of the same cursor, or an agent of a domain held in reset. -/
  | idle (s) : StepEffect s s
  /-- `P_PUSH` at a valid cursor (R80). -/
  | push (s) (e : Entry) (up : s.rstP = false) (valid : s.writeCursor.toNat < 300) :
      StepEffect s (s.push s.writeCursor e)
  /-- `P_PUSH` at a corrupt cursor (R80). -/
  | dropped (s) (up : s.rstP = false) : StepEffect s (s.log (.pushDropped s.writeCursor))
  /-- `P_SET_WR` of another cursor (R81). -/
  | setWr (s) (v : Cursor) (up : s.rstP = false) : StepEffect s (s.setWg (cursorEncode v))
  /-- An `SW` sample (R89, R90). -/
  | writeView (s) (choice g k) (up : s.rstC = false) (sampled : sample s.hw s.jw choice = some (g, k)) :
      StepEffect s (s.setWriteView g k)
  /-- An `SR` sample (R92). -/
  | readView (s) (choice g k) (up : s.rstP = false) (sampled : sample s.hr s.jr choice = some (g, k)) :
      StepEffect s (s.setReadView g k)
  /-- A consumer edge that holds (R98, R99). -/
  | hold (s) (up : s.rstC = false) (held : s.holdReason ≠ none) : StepEffect s s.endStrobe
  /-- `E_LOW` (R104). -/
  | low (s) (dt : Half) (up : s.rstC = false) (ready : s.holdReason = none) :
      StepEffect s (s.endStrobe.setPendingLow dt).advanceRead
  /-- `E_HIGH` (R105). -/
  | high (s) (dt : Half) (up : s.rstC = false) (ready : s.holdReason = none) :
      StepEffect s ((s.endStrobe.setPendingLow 0#16).processPulse s.pendingLow dt).advanceRead
  /-- `E_SKIP` (R106). -/
  | skip (s) (up : s.rstC = false) (ready : s.holdReason = none) : StepEffect s s.endStrobe.advanceRead
  /-- A reset (R154), which may cut a push (R155), and both domains out of it or held in it. -/
  | reset (s) (ring : Memory) (held : Bool)
      (cut : ring = s.ring ∨ ∃ i < 300, ∃ e, ring = ringWrite s.ring i e) :
      StepEffect s { s.resetRegisters with ring := ring, rstP := held, rstC := held }
  /-- A domain's release from reset (R156). -/
  | release (s) (d : Domain) : StepEffect s (s.releaseReset d)

theorem exec_command_effect {w : Command} {s t : State} (up : s.rstP = false)
    (h : exec (decodeCommand w) s = .next t) : StepEffect s t := by
  obtain ⟨data, hd⟩ | ⟨pin, dt, hd⟩ | ⟨ignored, v, hd⟩ | ⟨data, hd⟩ := decodeCommand_cases w
  · rw [hd] at h; cases h; exact .idle s
  · rw [hd] at h
    rcases Nat.lt_or_ge s.writeCursor.toNat 300 with hv | hv
    · rw [exec_pPush_valid pin dt hv] at h; cases h; exact .push s _ up hv
    · rw [exec_pPush_corrupt pin dt hv] at h; cases h; exact .dropped s up
  · rw [hd] at h
    simp only [exec, execPSetWr] at h
    split at h
    · cases h; exact .idle s
    · cases h; exact .setWr s v up
  · rw [hd] at h; simp [exec, execPReserved] at h

theorem exec_entry_effect {e : Entry} {s t : State} (up : s.rstC = false) (ready : s.holdReason = none)
    (h : exec (decodeEntry e) s = .next t) : StepEffect s t := by
  obtain ⟨dt, hd⟩ | ⟨dt, hd⟩ | ⟨ignored, pin, hd⟩ := decodeEntry_cases e
  · rw [hd, exec_eLow] at h; cases h; exact .low s dt up ready
  · rw [hd, exec_eHigh] at h; cases h; exact .high s dt up ready
  · rw [hd, exec_eSkip] at h; cases h; exact .skip s up ready

theorem State.riseReset_cases (s : State) (port : Command) :
    ∃ ring d, s.riseReset port = ({ s with ring := ring, draws := d } : State).resetRegisters ∧
      (ring = s.ring ∨ ∃ i < 300, ∃ e, ring = ringWrite s.ring i e) := by
  unfold State.riseReset
  split
  · next w hw =>
    refine ⟨ringWrite s.ring w s.drawn, s.draws + 1, rfl, .inr ⟨w, ?_, _, rfl⟩⟩
    unfold State.cutIndex at hw
    split at hw
    · split at hw
      · next hc =>
        simp only [Bool.and_eq_true, cursorValid_iff] at hc
        cases hw; exact hc.2
      · cases hw
    · cases hw
  · exact ⟨s.ring, s.draws, rfl, .inl rfl⟩

/-- A step that answers a next state has one of the effects above, with some inputs left to come and some draws
taken. -/
theorem step_effect {s t : State} (h : step s = .next t) :
    ∃ schedule draws, StepEffect (s.withInputs schedule draws) t := by
  unfold step State.fetch at h
  split at h
  · -- an instruction is run
    next i u hf =>
    split at hf
    · cases hf
    · next event rest hs =>
      cases event with
      | p w =>
        simp only [State.takeEvent] at hf
        split at hf
        · cases hf
        · next up =>
          cases hf
          exact ⟨rest, s.draws, exec_command_effect (Bool.eq_false_iff.mpr up) h⟩
      | c =>
        simp only [State.takeEvent, State.consumerEdge] at hf
        split at hf
        · cases hf
        · next up =>
          split at hf
          · cases hf
          · next ready =>
            cases hf
            by_cases hl : (s.withSchedule rest).lapping = true
            · rw [State.afterRead, if_pos hl] at h
              exact ⟨rest, s.draws + 1, exec_entry_effect (Bool.eq_false_iff.mpr up) ready h⟩
            · rw [State.afterRead, if_neg hl] at h
              exact ⟨rest, s.draws, exec_entry_effect (Bool.eq_false_iff.mpr up) ready h⟩
      | drain =>
        simp only [State.takeEvent, State.consumerEdge] at hf
        split at hf
        · cases hf
        · next up =>
          split at hf
          · next i' u' hf' =>
            split at hf'
            · cases hf'
            · next ready =>
              cases hf'
              cases hf
              by_cases hl : (s.withSchedule rest).lapping = true
              · rw [State.afterRead, if_pos hl] at h
                exact ⟨.drain :: rest, s.draws + 1, exec_entry_effect (Bool.eq_false_iff.mpr up) ready h⟩
              · rw [State.afterRead, if_neg hl] at h
                exact ⟨.drain :: rest, s.draws, exec_entry_effect (Bool.eq_false_iff.mpr up) ready h⟩
          · cases hf
          · cases hf
      | sw choice =>
        simp only [State.takeEvent] at hf
        split at hf
        · cases hf
        · split at hf <;> cases hf
      | sr choice =>
        simp only [State.takeEvent] at hf
        split at hf
        · cases hf
        · split at hf <;> cases hf
      | reset port => cases hf
      | rstRise port => cases hf
      | rstRelease d => cases hf
      | resetOne d => cases hf
  · -- the agent's step is done
    next u hf =>
    cases h
    split at hf
    · cases hf; exact ⟨s.schedule, s.draws, .idle _⟩
    · next event rest hs =>
      cases event with
      | p w =>
        simp only [State.takeEvent] at hf
        split at hf
        · cases hf; exact ⟨rest, s.draws, .idle _⟩
        · cases hf
      | c =>
        simp only [State.takeEvent, State.consumerEdge] at hf
        split at hf
        · cases hf; exact ⟨rest, s.draws, .idle _⟩
        · next up =>
          split at hf
          · next r held =>
            cases hf
            exact ⟨rest, s.draws, .hold (s.withInputs rest s.draws) (Bool.eq_false_iff.mpr up)
              (fun hn => by cases hn.symm.trans held)⟩
          · cases hf
      | drain =>
        simp only [State.takeEvent, State.consumerEdge] at hf
        split at hf
        · cases hf; exact ⟨rest, s.draws, .idle _⟩
        · next up =>
          split at hf
          · cases hf
          · next u' hf' =>
            split at hf'
            · next r held =>
              cases hf'
              cases hf
              exact ⟨rest, s.draws, .hold (s.withInputs rest s.draws) (Bool.eq_false_iff.mpr up)
                (fun hn => by cases hn.symm.trans held)⟩
            · cases hf'
          · cases hf
      | sw choice =>
        simp only [State.takeEvent] at hf
        split at hf
        · cases hf; exact ⟨rest, s.draws, .idle _⟩
        · next up =>
          split at hf
          · next u' hu =>
            cases hf
            obtain ⟨g, k, hg, rfl⟩ := State.sampleWrite_some hu
            exact ⟨rest, s.draws, .writeView (s.withInputs rest s.draws) choice g k (Bool.eq_false_iff.mpr up) hg⟩
          · cases hf
      | sr choice =>
        simp only [State.takeEvent] at hf
        split at hf
        · cases hf; exact ⟨rest, s.draws, .idle _⟩
        · next up =>
          split at hf
          · next u' hu =>
            cases hf
            obtain ⟨g, k, hg, rfl⟩ := State.sampleRead_some hu
            exact ⟨rest, s.draws, .readView (s.withInputs rest s.draws) choice g k (Bool.eq_false_iff.mpr up) hg⟩
          · cases hf
      | reset port =>
        cases hf
        obtain ⟨ring, d, hr, hc⟩ := State.riseReset_cases (s.withSchedule rest) port
        refine ⟨rest, d, ?_⟩
        rw [State.pulseReset, hr]
        exact .reset (s.withInputs rest d) ring false hc
      | rstRise port =>
        cases hf
        obtain ⟨ring, d, hr, hc⟩ := State.riseReset_cases (s.withSchedule rest) port
        refine ⟨rest, d, ?_⟩
        rw [State.holdReset, hr]
        exact .reset (s.withInputs rest d) ring true hc
      | rstRelease d =>
        cases hf
        exact ⟨rest, s.draws, .release (s.withInputs rest s.draws) d⟩
      | resetOne d => cases hf
  · cases h

/-! ## The schedule's head -/

/-- What the head of the schedule makes the step do. -/
theorem step_of_schedule {s : State} {event : Event} {rest : List Event} (h : s.schedule = event :: rest) :
    step s = match (s.withSchedule rest).takeEvent event with
      | .run i t => exec i t
      | .done t => .next t
      | .refuse r => .refused r := by
  have fetched : s.fetch = (s.withSchedule rest).takeEvent event := by simp only [State.fetch, h]
  cases taken : (s.withSchedule rest).takeEvent event <;> simp only [step, fetched, taken]

end Sys2Proof.Machine
end

