-- ==== Sys2Proof/Laws/Validator.lean ====
section
/-! SUPPORT. Laws/Validator.lean: what the frame validator's parts say of a word and of a list of words. -/

namespace Sys2Proof.Machine

theorem popcount_parity (b : Byte) :
    decide (popcount b % 2 = 1) = (b.getLsbD 0 ^^ b.getLsbD 1 ^^ b.getLsbD 2 ^^ b.getLsbD 3 ^^ b.getLsbD 4 ^^
      b.getLsbD 5 ^^ b.getLsbD 6 ^^ b.getLsbD 7) := by
  have all : ∀ n : Fin 256, decide (popcount (BitVec.ofFin (w := 8) n) % 2 = 1) =
      ((BitVec.ofFin (w := 8) n).getLsbD 0 ^^ (BitVec.ofFin (w := 8) n).getLsbD 1 ^^
        (BitVec.ofFin (w := 8) n).getLsbD 2 ^^ (BitVec.ofFin (w := 8) n).getLsbD 3 ^^
        (BitVec.ofFin (w := 8) n).getLsbD 4 ^^ (BitVec.ofFin (w := 8) n).getLsbD 5 ^^
        (BitVec.ofFin (w := 8) n).getLsbD 6 ^^ (BitVec.ofFin (w := 8) n).getLsbD 7) := by decide +kernel
  exact all b.toFin

theorem startPasses_iff (w : AccWord) : startPasses (invert w) = true ↔ w.getLsbD 0 = true := by
  simp [startPasses, invert]

theorem stopPasses_iff (w : AccWord) :
    stopPasses (invert w) = true ↔ w.getLsbD 10 = false ∧ w.getLsbD 11 = false := by
  simp [stopPasses, invert]

theorem dataByte_getLsbD (w : AccWord) (k : Nat) (hk : k < 8) :
    (dataByte (invert w)).getLsbD k = !w.getLsbD (k + 1) := by
  simp [dataByte, invert, hk, Nat.add_comm 1 k, show k + 1 < 12 by omega]

theorem parityPasses_iff (w : AccWord) : parityPasses (invert w) = true ↔
    (!w.getLsbD 9) = (!w.getLsbD 1 ^^ !w.getLsbD 2 ^^ !w.getLsbD 3 ^^ !w.getLsbD 4 ^^ !w.getLsbD 5 ^^
      !w.getLsbD 6 ^^ !w.getLsbD 7 ^^ !w.getLsbD 8) := by
  have hp := popcount_parity (dataByte (invert w))
  rw [dataByte_getLsbD w 0 (by decide), dataByte_getLsbD w 1 (by decide), dataByte_getLsbD w 2 (by decide),
    dataByte_getLsbD w 3 (by decide), dataByte_getLsbD w 4 (by decide), dataByte_getLsbD w 5 (by decide),
    dataByte_getLsbD w 6 (by decide), dataByte_getLsbD w 7 (by decide)] at hp
  rw [← hp]
  have hs : (invert w).getLsbD 9 = !w.getLsbD 9 := by simp [invert]
  simp only [parityPasses, hs]
  cases w.getLsbD 9 <;> simp

/-- A word has no failing check exactly when it passes all three (R131 to R133). -/
theorem wordFailure_none_iff (w : AccWord) : wordFailure w = none ↔ WordPasses w := by
  unfold wordFailure
  constructor
  · intro h
    by_cases h0 : startPasses (invert w) = true
    · by_cases h1 : stopPasses (invert w) = true
      · by_cases h2 : parityPasses (invert w) = true
        · exact ⟨(startPasses_iff w).mp h0, (stopPasses_iff w).mp h1, (parityPasses_iff w).mp h2⟩
        · simp [h0, h1, h2] at h
      · simp [h0, h1] at h
    · simp [h0] at h
  · rintro ⟨h0, h1, h2⟩
    simp [(startPasses_iff w).mpr h0, (stopPasses_iff w).mpr h1, (parityPasses_iff w).mpr h2]

/-- The first failing word of a list, with its first failing check (R144). -/
theorem firstFailure_some {i : Nat} {ws : List AccWord} {word : Nat} {check : WordCheck}
    (h : firstFailure i ws = some (word, check)) :
    ∃ k, word = i + k ∧ ∃ hk : k < ws.length, wordFailure ws[k] = some check ∧
      ∀ j, (hj : j < k) → wordFailure (ws[j]'(by omega)) = none := by
  induction ws generalizing i with
  | nil => simp [firstFailure] at h
  | cons w rest ih =>
    unfold firstFailure at h
    split at h
    · next c hc =>
      obtain ⟨rfl, rfl⟩ : i = word ∧ c = check := by simpa using h
      exact ⟨0, rfl, by simp, hc, by intro j hj; omega⟩
    · next hn =>
      obtain ⟨k, hw, hk, hc, hbefore⟩ := ih h
      refine ⟨k + 1, by omega, by simpa using hk, by simpa using hc, ?_⟩
      intro j hj
      cases j with
      | zero => simpa using hn
      | succ j => simpa using hbefore j (by omega)

theorem firstFailure_none_iff (i : Nat) (ws : List AccWord) :
    firstFailure i ws = none ↔ ∀ w ∈ ws, wordFailure w = none := by
  induction ws generalizing i with
  | nil => simp [firstFailure]
  | cons w rest ih =>
    unfold firstFailure
    cases hw : wordFailure w with
    | some c => simp [hw]
    | none => simp [hw, ih]

/-- The bytes the validator extracts (R134). -/
theorem frameBytes_getElem (acc : Acc) (i : Nat) (hi : i < 25) :
    (frameBytes acc)[i] = dataByte (invert acc[i]) := by
  simp [frameBytes]

/-- A rejection's word fails its check, and the words before it pass (R135, R144). -/
theorem validate_error {acc : Acc} {word : Nat} {check : WordCheck} (h : validate acc = .error (word, check)) :
    ∃ hw : word < 25, wordFailure acc[word] = some check ∧ ∀ i, (hi : i < word) → wordFailure acc[i] = none := by
  unfold validate at h
  split at h
  · next f hf =>
    cases h
    obtain ⟨k, hk, hlt, hc, hb⟩ := firstFailure_some hf
    simp only [Nat.zero_add] at hk
    subst hk
    refine ⟨by simpa using hlt, by simpa using hc, fun i hi => ?_⟩
    simpa using hb i hi
  · cases h

end Sys2Proof.Machine
end

