-- ==== Sys2Proof/Laws/Frame.lean ====
section
/-! SUPPORT. Laws/Frame.lean: how the levels of a frame become pulse pairs, byte by byte, and what the pairs of one byte
do to the decoder. -/

namespace Sys2Proof.Machine

/-! ## Levels, runs and pairs -/

/-- The runs of pulse pairs. -/
def pairedRuns (pairs : List (Nat × Nat)) : List (Bool × Nat) :=
  pairs.flatMap fun (lo, hi) => [(false, lo), (true, hi)]

/-- The pulse pairs of one byte, sent with no idle time after it. -/
def bytePairs (b : Byte) : List (Nat × Nat) := pairRuns (levelRuns (uartLevels b))

/-- The pairs with the last high phase longer by `gap`. -/
def lengthenLast (gap : Nat) : List (Nat × Nat) → List (Nat × Nat)
  | [] => []
  | [(lo, hi)] => [(lo, hi + gap)]
  | p :: q :: rest => p :: lengthenLast gap (q :: rest)

theorem consRun_ne_nil (l : Bool) (runs : List (Bool × Nat)) : consRun l runs ≠ [] := by
  unfold consRun; split
  · simp
  · split <;> simp

theorem consRun_append (l : Bool) {runs : List (Bool × Nat)} (h : runs ≠ []) (more : List (Bool × Nat)) :
    consRun l (runs ++ more) = consRun l runs ++ more := by
  match runs, h with
  | (m, n) :: rest, _ =>
    simp only [List.cons_append, consRun]
    split <;> simp

theorem consRun_head (l : Bool) (runs : List (Bool × Nat)) : ∃ n rest, consRun l runs = (l, n) :: rest := by
  unfold consRun; split
  · exact ⟨_, _, rfl⟩
  · split
    · next h => exact ⟨_, _, by rw [h]⟩
    · exact ⟨_, _, rfl⟩

/-- Levels that end high and levels that start low have separate runs. -/
theorem levelRuns_append {xs ys : List Bool} (hx : xs.getLast? = some true) (hy : ys.head? = some false) :
    levelRuns (xs ++ ys) = levelRuns xs ++ levelRuns ys := by
  induction xs with
  | nil => cases hx
  | cons x xs ih =>
    cases xs with
    | nil =>
      obtain rfl : x = true := by simpa using hx
      match ys, hy with
      | false :: ys, _ =>
        obtain ⟨n, rest, h⟩ := consRun_head false (levelRuns ys)
        show consRun true (consRun false (levelRuns ys)) = [(true, 1)] ++ consRun false (levelRuns ys)
        rw [h]; rfl
    | cons x' xs =>
      have := ih (by simpa using hx)
      show consRun x (levelRuns (x' :: xs ++ ys)) = _
      rw [this, consRun_append x (runs := levelRuns (x' :: xs)) (consRun_ne_nil _ _)]
      rfl

theorem pairRuns_pairedRuns (pairs : List (Nat × Nat)) (more : List (Bool × Nat)) :
    pairRuns (pairedRuns pairs ++ more) = pairs ++ pairRuns more := by
  induction pairs with
  | nil => rfl
  | cons p rest ih =>
    show p :: pairRuns (pairedRuns rest ++ more) = _
    rw [ih]; rfl

/-- A byte's levels start low, end high, and are the runs of its pairs. -/
theorem byte_levels (b : Byte) :
    (uartLevels b).head? = some false ∧ (uartLevels b).getLast? = some true ∧
      levelRuns (uartLevels b) = pairedRuns (bytePairs b) := by
  have all : ∀ n : Fin 256, levelRuns (uartLevels (BitVec.ofFin (w := 8) n)) =
      pairedRuns (bytePairs (BitVec.ofFin (w := 8) n)) := by decide +kernel
  exact ⟨rfl, rfl, all b.toFin⟩

/-- High levels after high levels lengthen the last run. -/
theorem levelRuns_high {xs : List Bool} (hx : xs.getLast? = some true) (gap : Nat) :
    ∃ runs n, levelRuns xs = runs ++ [(true, n)] ∧
      levelRuns (xs ++ List.replicate gap true) = runs ++ [(true, n + gap)] := by
  induction xs with
  | nil => cases hx
  | cons x xs ih =>
    cases xs with
    | nil =>
      obtain rfl : x = true := by simpa using hx
      refine ⟨[], 1, rfl, ?_⟩
      have high : ∀ k, levelRuns (true :: List.replicate k true) = [(true, 1 + k)] := by
        intro k
        induction k with
        | zero => rfl
        | succ k ih =>
          show consRun true (levelRuns (true :: List.replicate k true)) = _
          rw [ih]; simp [consRun, Nat.add_assoc]
      exact high gap
    | cons x' xs =>
      obtain ⟨runs, n, h1, h2⟩ := ih (by simpa using hx)
      show ∃ runs n, consRun x (levelRuns (x' :: xs)) = _ ∧
        consRun x (levelRuns (x' :: xs ++ List.replicate gap true)) = _
      rw [h1, h2]
      cases runs with
      | nil =>
        by_cases hx' : x = true
        · exact ⟨[], n + 1, by simp [consRun, hx'], by simp [consRun, hx']; omega⟩
        · exact ⟨[(x, 1)], n, by simp [consRun, hx'], by simp [consRun, hx']⟩
      | cons r runs =>
        refine ⟨consRun x (r :: runs), n, ?_, ?_⟩ <;> rw [consRun_append x (by simp)]

theorem pairedRuns_lengthenLast (gap : Nat) (pairs : List (Nat × Nat)) {runs : List (Bool × Nat)} {n : Nat}
    (h : pairedRuns pairs = runs ++ [(true, n)]) :
    pairedRuns (lengthenLast gap pairs) = runs ++ [(true, n + gap)] := by
  induction pairs generalizing runs with
  | nil => simp [pairedRuns] at h
  | cons p rest ih =>
    obtain ⟨lo, hi⟩ := p
    cases rest with
    | nil =>
      have h : [(false, lo)] ++ [(true, hi)] = runs ++ [(true, n)] := h
      obtain ⟨hr, hl⟩ := List.append_inj' h rfl
      obtain rfl : hi = n := by simpa using hl
      rw [← hr]; rfl
    | cons q rest =>
      match runs, h with
      | [], h => simp [pairedRuns] at h
      | [a], h => simp [pairedRuns] at h
      | a :: b :: runs, h =>
        have h : (false, lo) :: (true, hi) :: pairedRuns (q :: rest) = a :: b :: (runs ++ [(true, n)]) := h
        simp only [List.cons.injEq] at h
        show (false, lo) :: (true, hi) :: pairedRuns (lengthenLast gap (q :: rest)) = _
        rw [ih h.2.2, h.1, h.2.1]; rfl

/-- The pairs of the last byte are its own with the gap in the last high phase. -/
theorem framePairs_last (b : Byte) (gap : Nat) : framePairs [b] gap = lengthenLast gap (bytePairs b) := by
  obtain ⟨-, hlast, hruns⟩ := byte_levels b
  obtain ⟨runs, n, h1, h2⟩ := levelRuns_high hlast gap
  have h3 := pairedRuns_lengthenLast gap (bytePairs b) (hruns.symm.trans h1)
  show pairRuns (levelRuns (uartLevels b ++ [] ++ List.replicate gap true)) = _
  rw [List.append_nil, h2, ← h3, ← List.append_nil (pairedRuns _), pairRuns_pairedRuns]
  simp [pairRuns]

/-- A byte's pairs come before those of the bytes after it. -/
theorem framePairs_cons (b c : Byte) (rest : List Byte) (gap : Nat) :
    framePairs (b :: c :: rest) gap = bytePairs b ++ framePairs (c :: rest) gap := by
  obtain ⟨-, hlast, hruns⟩ := byte_levels b
  show pairRuns (levelRuns ((uartLevels b ++ List.flatMap uartLevels (c :: rest)) ++ List.replicate gap true)) = _
  rw [List.append_assoc, levelRuns_append hlast rfl, hruns, pairRuns_pairedRuns]
  rfl

/-! ## One byte in the decoder -/

/-- The word that pairs from slot `bw` of a word `w` on make, when they end exactly at the end of the word. -/
def pairsWord : List (Nat × Nat) → Nat → AccWord → Option AccWord
  | [], bw, w => if bw = 12 then some w else none
  | (lo, hi) :: rest, bw, w =>
    if 1 ≤ lo ∧ 1 ≤ hi ∧ bw + lo ≤ 10 ∧ bw + lo + hi ≤ 12 then pairsWord rest (bw + lo + hi) (w ||| lowMask bw lo)
    else none

/-- The word of a byte decoded in place: its levels inverted (95_test_vectors.md section 1). -/
def byteWord (b : Byte) : AccWord :=
  BitVec.ofNat 12 (((uartLevels b).zipIdx.map fun (level, k) => if level then 0 else 2 ^ k).sum)

/-- A byte's pairs make its word, which passes every check and holds the byte. -/
theorem byte_decodes (b : Byte) :
    pairsWord (bytePairs b) 0 0 = some (byteWord b) ∧ wordFailure (byteWord b) = none ∧
      dataByte (invert (byteWord b)) = b := by
  have all : ∀ n : Fin 256, pairsWord (bytePairs (BitVec.ofFin (w := 8) n)) 0 0 =
        some (byteWord (BitVec.ofFin (w := 8) n)) ∧ wordFailure (byteWord (BitVec.ofFin (w := 8) n)) = none ∧
      dataByte (invert (byteWord (BitVec.ofFin (w := 8) n))) = BitVec.ofFin n := by decide +kernel
  exact all b.toFin

/-- At most five pairs to a byte (R172). -/
theorem bytePairs_length (b : Byte) : (bytePairs b).length ≤ 5 := by
  have all : ∀ n : Fin 256, (bytePairs (BitVec.ofFin (w := 8) n)).length ≤ 5 := by decide +kernel
  exact all b.toFin

/-- A pair of entries that stays in the accumulator (R116, R117, R121). -/
theorem execAll_pair (lo hi : Half) (rest : List Instr) (s : State) :
    execAll (.eLow lo :: .eHigh hi :: rest) s =
      execAll rest ((((s.endStrobe.setPendingLow lo).advanceRead.endStrobe.setPendingLow 0#16).processPulse lo hi).advanceRead) :=
  rfl

theorem orLow_set (acc : Acc) (bi bw l : Nat) (h : bi < 25) : orLow acc bi bw l = acc.set bi (acc[bi] ||| lowMask bw l) := by
  unfold orLow accWord
  apply Vector.ext
  intro i hi
  by_cases he : i = bi
  · subst he; simp [hi]
  · simp [Ne.symm he]

/-- Pairs that make up the rest of a word before the last leave the word in the accumulator and the decoder at the next
word, with nothing emitted and nothing logged. -/
theorem execAll_pairs_in_word {widths : List (Half × Half)} {pairs : List (Nat × Nat)} {bi bw : Nat} {w w' : AccWord}
    (s : State) (rest : List Instr) (hb : widths.map (fun p => (bits p.1, bits p.2)) = pairs)
    (hp : pairsWord pairs bw w = some w') (hbi : bi < 24) (hoff : s.bitOffset.toNat = 12 * bi + bw)
    (hw : s.acc[bi] = w) :
    ∃ t : State, execAll (pairInstrs widths ++ rest) s = execAll rest t ∧ t.acc = s.acc.set bi w' ∧
      t.bitOffset.toNat = 12 * (bi + 1) ∧ t.frames = s.frames ∧ t.frameOut = s.frameOut ∧ t.causes = s.causes := by
  induction pairs generalizing widths bw w s with
  | nil =>
    obtain rfl : widths = [] := by simpa using hb
    unfold pairsWord at hp
    split at hp
    · cases hp
      exact ⟨s, rfl, by rw [← hw]; simp, by omega, rfl, rfl, rfl⟩
    · cases hp
  | cons p ps ih =>
    obtain ⟨l, h⟩ := p
    cases widths with
    | nil => simp at hb
    | cons x xs =>
      obtain ⟨lo, hi⟩ := x
      simp only [List.map_cons, List.cons.injEq, Prod.mk.injEq] at hb
      obtain ⟨⟨rfl, rfl⟩, hxs⟩ := hb
      unfold pairsWord at hp
      split at hp
      · next hc =>
        obtain ⟨h1, h2, h3, h4⟩ := hc
        generalize hu : ((s.endStrobe.setPendingLow lo).advanceRead.endStrobe.setPendingLow 0#16) = u
        have ua : u.acc = s.acc := by rw [← hu]; rfl
        have uo : u.frames = s.frames ∧ u.frameOut = s.frameOut ∧ u.causes = s.causes := by
          rw [← hu]; exact ⟨rfl, rfl, rfl⟩
        have ub : u.bitOffset = s.bitOffset := by rw [← hu]; rfl
        have d1 : u.bitOffset.toNat / 12 = bi := by rw [ub]; omega
        have d2 : u.bitOffset.toNat % 12 = bw := by rw [ub]; omega
        have horl : orLow u.acc bi bw (bits lo) = s.acc.set bi (w ||| lowMask bw (bits lo)) := by
          rw [ua, orLow_set _ _ _ _ (by omega), hw]
        obtain ⟨hz, _⟩ | ⟨_, _, ho, _⟩ | ⟨_, _, _, hin, hpp⟩ | ⟨_, _, _, hge, hle, hne, hpp⟩ | ⟨_, _, _, _, _, he, _⟩ |
          ⟨_, _, _, hgt, _⟩ | ⟨_, _, _, hgt, _⟩ := u.processPulse_cases lo hi rfl rfl rfl rfl
        · omega
        · omega
        · rw [d1, d2, horl] at hpp
          obtain ⟨t, t1, t2, t3, t4, t5, t6⟩ := ih (w := w ||| lowMask bw (bits lo)) (bw := bw + bits lo + bits hi)
            (u.processPulse lo hi).advanceRead hxs hp (by rw [hpp]; simp [State.accumulate]; omega)
            (by rw [hpp]; simp [State.accumulate])
          refine ⟨t, ?_, ?_, t3, by rw [t4, hpp]; exact uo.1, by rw [t5, hpp]; exact uo.2.1, by rw [t6, hpp]; exact uo.2.2⟩
          · rw [← t1]
            show execAll (.eLow lo :: .eHigh hi :: (pairInstrs xs ++ rest)) s = _
            rw [execAll_pair, hu]
          · rw [t2, hpp]; simp [State.accumulate]
        · have h12 : bw + bits lo + bits hi = 12 := by omega
          rw [h12] at hp
          have hps : ps = [] := by
            cases ps with
            | nil => rfl
            | cons q qs => obtain ⟨a, b⟩ := q; unfold pairsWord at hp; rw [if_neg (by omega)] at hp; cases hp
          subst hps
          obtain rfl : xs = [] := by simpa using hxs
          have hwe : w ||| lowMask bw (bits lo) = w' := by simpa [pairsWord] using hp
          rw [d1, d2, horl, hwe] at hpp
          refine ⟨(u.processPulse lo hi).advanceRead, ?_, by rw [hpp]; rfl, ?_, by rw [hpp]; exact uo.1,
            by rw [hpp]; exact uo.2.1, by rw [hpp]; exact uo.2.2⟩
          · show execAll (.eLow lo :: .eHigh hi :: rest) s = _
            rw [execAll_pair, hu]
          · rw [hpp]; simp [State.accumulate]; omega
        · omega
        · omega
        · omega
      · cases hp

end Sys2Proof.Machine
end

