-- ==== Sys2Proof/Laws/PerInstr.lean ====
section
/-! SUPPORT. Laws/PerInstr.lean: the per-instruction family ByteLength: an instruction's bytes are as many as its
format's one fixed length (R58). -/

namespace Sys2Proof.Laws.ByteLength

/-- The bytes of an instruction fill its format's length. -/
def Statement (i : Instr) : Prop := (encode i).bytes.length = i.format.byteCount

theorem pNop (data : BitVec 32) : Statement (.pNop data) := bytesOfNat_length 5 _

theorem pPush (pin dt : Half) : Statement (.pPush pin dt) := bytesOfNat_length 5 _

theorem pSetWr (ignored : BitVec 23) (v : Cursor) : Statement (.pSetWr ignored v) := bytesOfNat_length 5 _

theorem pReserved (data : BitVec 32) : Statement (.pReserved data) := bytesOfNat_length 5 _

theorem eLow (dt : Half) : Statement (.eLow dt) := bytesOfNat_length 4 _

theorem eHigh (dt : Half) : Statement (.eHigh dt) := bytesOfNat_length 4 _

theorem eSkip (ignored pin : Half) : Statement (.eSkip ignored pin) := bytesOfNat_length 4 _

end Sys2Proof.Laws.ByteLength
end

