-- ==== Sys2Proof/Laws/Queue.lean ====
section
/-! SUPPORT. Laws/Queue.lean: what an entry's meaning leaves of the two cursors and the ring, and how a consumed entry
leaves the queue the ring holds. -/

namespace Sys2Proof.Machine

/-- Any entry's meaning answers a next state, with the read cursor advanced and the write side as before. -/
theorem exec_entry_cursors (e : Entry) (s : State) :
    ∃ t, exec (decodeEntry e) s = .next t ∧ t.rd = cursorNext s.rd ∧ t.rg = cursorEncode t.rd ∧
      t.hr = s.hr ++ [t.rg] ∧ t.wg = s.wg ∧ t.ring = s.ring ∧ t.jw = s.jw ∧ t.hw = s.hw ∧ t.ws = s.ws ∧
      t.rstC = s.rstC ∧ t.schedule = s.schedule ∧ t.draws = s.draws := by
  obtain ⟨dt, hd⟩ | ⟨dt, hd⟩ | ⟨ignored, pin, hd⟩ := decodeEntry_cases e <;> rw [hd]
  · exact ⟨_, exec_eLow dt s, rfl, rfl, rfl, rfl, rfl, rfl, rfl, rfl, rfl, rfl, rfl⟩
  · exact ⟨_, exec_eHigh dt s, by simp, by simp, by simp, by simp, by simp, by simp, by simp, by simp, by simp, by simp,
      by simp⟩
  · exact ⟨_, exec_eSkip _ _ s, rfl, rfl, rfl, rfl, rfl, rfl, rfl, rfl, rfl, rfl, rfl⟩

/-- An entry's meaning does not look at the inputs to come. -/
theorem exec_entry_withSchedule {e : Entry} {s t : State} (schedule : List Event)
    (h : exec (decodeEntry e) s = .next t) :
    exec (decodeEntry e) (s.withSchedule schedule) = .next (t.withSchedule schedule) := by
  obtain ⟨dt, hd⟩ | ⟨dt, hd⟩ | ⟨ignored, pin, hd⟩ := decodeEntry_cases e <;> rw [hd] at h ⊢
  · cases h; rfl
  · rw [exec_eHigh] at h ⊢
    cases h
    have apply : ∀ r : PulseResult, ((s.endStrobe.setPendingLow 0#16).withSchedule schedule).applyPulse r =
        ((s.endStrobe.setPendingLow 0#16).applyPulse r).withSchedule schedule := by
      intro r
      cases r with
      | accumulate acc n => rfl
      | violation cause => rfl
      | complete acc => simp only [State.applyPulse, State.completeFrame]; cases validate acc <;> rfl
    exact congrArg (fun u : State => Host.Outcome.next u.advanceRead) (apply _)
  · cases h; rfl

/-- A consumer that sees a queue either reads or holds on an empty ring: no view of a queue is invalid (R91, item 3). -/
theorem RingQueue.ready_or_empty {s : State} {q : List Entry} (h : RingQueue s q) :
    s.holdReason = none ∨ s.holdReason = some .empty := by
  have hv : s.wcSeen.toNat < 300 := by
    obtain i | ⟨-, i⟩ := h.seen <;> rw [i, cursorAt_toNat] <;> omega
  by_cases he : s.rd = s.wcSeen
  · exact .inr (by unfold State.holdReason; rw [if_pos he])
  · exact .inl ((State.holdReason_none_iff s).mpr ⟨he, hv, h.rd_valid⟩)

/-- When the consumer reads, the queue has an oldest entry, the read is it and no race (R103), and a state with the read
cursor advanced holds the rest. -/
theorem RingQueue.pop {s t : State} {q : List Entry} (h : RingQueue s q) (ready : s.holdReason = none)
    (h1 : t.rd = cursorNext s.rd) (h2 : t.wg = s.wg) (h3 : t.ring = s.ring) (h4 : t.jw = s.jw) (h5 : t.hw = s.hw)
    (h6 : t.ws = s.ws) :
    ∃ e q', q = e :: q' ∧ ringRead s.ring s.rd.toNat = e ∧ s.writeCursor ≠ s.rd ∧ RingQueue t q' := by
  have l : t.lag = s.lag := by unfold State.lag; rw [h4, h5]
  obtain ⟨a, b, c, d, e, f, g, i⟩ := h
  have a : q.length < 300 := a
  have b : s.rd.toNat < 300 := b
  have hne := ((State.holdReason_none_iff s).mp ready).1
  have hlt : s.lag < q.length := by
    rcases i with i | i
    · by_contra hge
      apply hne
      rw [i, show s.rd.toNat + q.length - s.lag = s.rd.toNat by omega, cursorAt_self b]
    · exact i.1
  cases q with
  | nil => simp at hlt
  | cons x q' =>
    simp only [List.length_cons] at *
    have hr : ∀ k, 1 ≤ k → cursorAt ((cursorNext s.rd).toNat + (k - 1)) = cursorAt (s.rd.toNat + k) := by
      intro k hk; apply cursorAt_congr; rw [cursorNext_toNat]; omega
    refine ⟨x, q', rfl, ?_, ?_, ?_⟩
    · have := d 0 x rfl
      rwa [show (s.rd.toNat + 0) % Config.capacity = s.rd.toNat by show _ % 300 = _; omega] at this
    · unfold State.writeCursor
      rw [c, cursorDecode_cursorEncode]
      intro h; have := congrArg BitVec.toNat h; rw [cursorAt_toNat] at this; omega
    · refine ⟨by show q'.length < 300; omega, by rw [h1]; exact cursorNext_lt _, ?_, ?_, by rw [h4, h5]; exact e,
        by rw [l]; omega, ?_, ?_⟩
      · rw [h2, c, h1]; congr 1; exact (hr (q'.length + 1) (by omega)).symm
      · intro k y hy
        have := d (k + 1) y (by simpa using hy)
        rw [h3, h1, cursorNext_toNat]
        rwa [show (s.rd.toNat + (k + 1)) % Config.capacity = ((s.rd.toNat + 1) % 300 + k) % Config.capacity by
          show _ % 300 = _ % 300; omega] at this
      · intro k hk
        rw [l] at hk
        rw [h5, g k hk, h1]
        congr 2
        rw [show (cursorNext s.rd).toNat + q'.length - k = (cursorNext s.rd).toNat + ((q'.length + 1 - k) - 1) by omega,
          hr _ (by omega)]
        congr 1; omega
      · unfold State.wcSeen
        rw [l, h6, h1]
        rcases i with i | i
        · left
          show s.wcSeen = _
          rw [i, show (cursorNext s.rd).toNat + q'.length - s.lag =
            (cursorNext s.rd).toNat + ((q'.length + 1 - s.lag) - 1) by omega, hr _ (by omega)]
          congr 1; omega
        · right
          have h2 : s.lag < q'.length := by
            by_contra hge
            apply hne
            rw [i.2, show s.rd.toNat + (q'.length + 1) - s.lag - 1 = s.rd.toNat by omega, cursorAt_self b]
          refine ⟨h2, ?_⟩
          show s.wcSeen = _
          rw [i.2, show (cursorNext s.rd).toNat + q'.length - s.lag - 1 =
            (cursorNext s.rd).toNat + ((q'.length + 1 - s.lag - 1) - 1) by omega, hr _ (by omega)]
          congr 1; omega

end Sys2Proof.Machine
end

