-- ==== Sys2Proof/Tests/Slice0.lean ====
section
/-! SUPPORT. Tests/Slice0.lean: what well-formedness refuses, words written out from the spec's encodings, single steps
taken from the vectors of 95_test_vectors.md (each theorem names its vector), and for each obligation with hypotheses a
concrete state and operands that meet them. -/

namespace Sys2Proof.Tests

open Sys2Proof Sys2Proof.Machine

/-! ## WellFormed: the ill-formed terms (R66) -/

theorem test_skip_with_high_pin_refused : Instr.wellFormed (.eSkip 5 0x0000) = false := by decide
theorem test_skip_with_low_pin_refused : Instr.wellFormed (.eSkip 5 0x0001) = false := by decide
theorem test_skip_first_and_last_pin_accepted :
    Instr.wellFormed (.eSkip 5 0x0002) = true ∧ Instr.wellFormed (.eSkip 5 0xFFFF) = true := by decide

/-! ## Words, bit by bit: `{op, data}` (R59) and `{delta_t, pin_value}` (R64) -/

/-- P-1. -/
theorem test_decode_nop :
    decode (.pcmd 0b00_00000000000000000000000000000000#34) = .pNop 0 := by decide
/-- P-2: `0x1000A0001`. -/
theorem test_decode_push :
    decode (.pcmd 0b01_0000000000001010_0000000000000001#34) = .pPush 1 10 := by decide
/-- P-9: `0x1FFFF1234`. -/
theorem test_decode_push_every_pin :
    decode (.pcmd 0b01_1111111111111111_0001001000110100#34) = .pPush 0x1234 0xFFFF := by decide
/-- P-4: `0x20000012C`. -/
theorem test_decode_setWr :
    decode (.pcmd 0b10_00000000000000000000000_100101100#34) = .pSetWr 0 300 := by decide
/-- P-6: `0x2FFFFFE00`, the ignored bits set. -/
theorem test_decode_setWr_ignored_bits :
    decode (.pcmd 0b10_11111111111111111111111_000000000#34) = .pSetWr 0x7FFFFF 0 := by decide
/-- P-8: `0x300000000`. -/
theorem test_decode_reserved :
    decode (.pcmd 0b11_00000000000000000000000000000000#34) = .pReserved 0 := by decide
/-- C-2: `0x000A0001`. -/
theorem test_decode_low :
    decode (.entry 0b0000000000001010_0000000000000001#32) = .eLow 10 := by decide
/-- C-3: `0x00140000`. -/
theorem test_decode_high :
    decode (.entry 0b0000000000010100_0000000000000000#32) = .eHigh 20 := by decide
/-- C-5: `0x12340002`. -/
theorem test_decode_skip :
    decode (.entry 0b0001001000110100_0000000000000010#32) = .eSkip 0x1234 2 := by decide
/-- C-7: `0x0000FFFF`: the whole `pin_value` is compared, not its low bit (R66). -/
theorem test_decode_skip_odd_pin : decode (.entry 0x0000FFFF) = .eSkip 0 0xFFFF := by decide

/-- The command's bytes in the order of R46, and the padding of the fifth byte. -/
theorem test_decodeBytes_push :
    decodeBytes .pcmd [0x01, 0x00, 0x0A, 0x00, 0x01, 0x55] = .ok (.pPush 1 10, [0x55]) := rfl
theorem test_decodeBytes_too_wide : decodeBytes .pcmd [0, 0, 0, 0, 0x04] = .error .commandTooWide := rfl
theorem test_decodeBytes_truncated : decodeBytes .entry [0, 0, 0] = .error .truncated := rfl

/-! ## The cursor code (table 3.1) -/

theorem test_cursor_code :
    cursorEncode 0 = 0x05F ∧ cursorEncode 1 = 0x05E ∧ cursorEncode 2 = 0x05A ∧ cursorEncode 149 = 0x080 ∧
      cursorEncode 150 = 0x180 ∧ cursorEncode 299 = 0x15F ∧ cursorEncode 300 = 0x15D ∧ cursorEncode 511 = 0x05D := by
  decide
theorem test_cursor_decode :
    cursorDecode 0x000 = 406 ∧ cursorDecode 0x100 = 405 ∧ cursorDecode 0x1FF = 235 ∧ cursorDecode 0x05D = 511 := by
  decide

/-! ## Single steps -/

/-- The next state, for looking at its fields; the state itself where there is none. -/
def after (s : State) : State := match step s with
  | .next t => t
  | .fault _ => s
  | .refused _ => s

/-- The reset state about to take these events. -/
def about (events : List Event) : State := { State.reset with schedule := events }

/-- A consumer about to take an edge at `rd`, the producer's cursor and the consumer's view at `w`. -/
def consumerAt (rd w : Cursor) (ring : Memory) : State :=
  { State.reset with
    ring := ring
    rd := rd
    rg := cursorEncode rd
    hr := [cursorEncode rd]
    wg := cursorEncode w
    hw := [cursorEncode w]
    ws := cursorEncode w
    schedule := [.c] }

/-- P-2: `ring[0] = 0x000A0001`, `Wg = 0x05E`, `Hw = [0x05F, 0x05E]`. -/
theorem test_push : ringRead (after (about [.p 0x1000A0001])).ring 0 = 0x000A0001 ∧
    (after (about [.p 0x1000A0001])).wg = 0x05E ∧ (after (about [.p 0x1000A0001])).hw = [0x05F, 0x05E] := by
  decide
/-- P-3: the cursor wraps from 299 to 0. -/
theorem test_push_wraps :
    ringRead (after { about [.p 0x100140000] with wg := 0x15F, hw := [0x05F, 0x15F] }).ring 299 = 0x00140000 ∧
      (after { about [.p 0x100140000] with wg := 0x15F, hw := [0x05F, 0x15F] }).wg = 0x05F := by
  decide
/-- P-5: a push at a corrupt cursor is dropped and logged. -/
theorem test_push_dropped :
    after { about [.p 0x1000A0001] with wg := 0x15D } =
      { about [] with wg := 0x15D, causes := [.pushDropped 300] } := by
  decide
/-- P-1: nothing changes but the schedule. -/
theorem test_nop : after (about [.p 0x000000000]) = about [] := by decide
/-- P-4 and P-7. -/
theorem test_setWr : (after (about [.p 0x20000012C])).wg = 0x15D ∧ (after (about [.p 0x20000012C])).hw = [0x05F, 0x15D] ∧
    (after (about [.p 0x2000001FF])).wg = 0x05D := by
  decide
/-- P-6: an equal cursor changes nothing, and the ignored bits have no effect. -/
theorem test_setWr_same : after (about [.p 0x2FFFFFE00]) = about [] := by decide
/-- P-8. -/
theorem test_reserved_refused : (match step (about [.p 0x300000000]) with
    | .refused r => r.code
    | _ => none) = some 48 := by
  decide

/-- S-1, S-2 and the latest element. -/
theorem test_sync :
    (after { about [.sw (.settled 1)] with wg := 0x05E, hw := [0x05F, 0x05E] }).ws = 0x05E ∧
      (after { about [.sw (.settled 0)] with wg := 0x05E, hw := [0x05F, 0x05E] }).ws = 0x05F ∧
      (after { about [.sw .latest] with wg := 0x05E, hw := [0x05F, 0x05E] }).jw = 1 := by
  decide
/-- S-6 to S-8: mixtures of `E(4)` and `E(300)`. -/
theorem test_sync_mix :
    (after { about [.sw (.mix 1 0x004)] with hw := [0x059, 0x15D] }).wcSeen = 511 ∧
      (after { about [.sw (.mix 1 0x100)] with hw := [0x059, 0x15D] }).wcSeen = 295 ∧
      (after { about [.sw (.mix 1 0x104)] with hw := [0x059, 0x15D] }).wcSeen = 300 := by
  decide
/-- S-10. -/
theorem test_sync_read :
    (after { about [.sr (.settled 2)] with hr := [0x05F, 0x05E, 0x05A] }).rdSeenP = 2 := by
  decide

/-- C-1: hold EMPTY. -/
theorem test_hold_empty : after (about [.c]) = about [] ∧ (about []).wcInvalid = false := by decide
/-- C-8: hold CURSOR_INVALID. -/
theorem test_hold_invalid :
    after { about [.c] with ws := 0x15D } = { about [] with ws := 0x15D } ∧
      State.wcInvalid { about [] with ws := 0x15D } = true := by
  decide
/-- C-2. -/
theorem test_low :
    (after (consumerAt 0 2 (ringWrite [] 0 0x000A0001))).pendingLow = 10 ∧
      (after (consumerAt 0 2 (ringWrite [] 0 0x000A0001))).rd = 1 ∧
      (after (consumerAt 0 2 (ringWrite [] 0 0x000A0001))).rg = 0x05E := by
  decide
/-- C-6: a second low width replaces the first. -/
theorem test_low_replaces :
    (after { consumerAt 0 2 (ringWrite [] 0 0x00320001) with pendingLow := 10 }).pendingLow = 50 := by
  decide
/-- C-3. -/
theorem test_high :
    (after { consumerAt 1 2 (ringWrite [] 1 0x00140000) with pendingLow := 10 }).acc[0] = 0x001 ∧
      (after { consumerAt 1 2 (ringWrite [] 1 0x00140000) with pendingLow := 10 }).bitOffset = 3 ∧
      (after { consumerAt 1 2 (ringWrite [] 1 0x00140000) with pendingLow := 10 }).pendingLow = 0 ∧
      (after { consumerAt 1 2 (ringWrite [] 1 0x00140000) with pendingLow := 10 }).rd = 2 := by
  decide
/-- C-4: a high entry without a low one resets the decoder (R105, R113). -/
theorem test_high_without_low :
    (after { consumerAt 1 2 (ringWrite [] 1 0x00140000) with bitOffset := 3, acc := accZero.set 0 1 }).acc[0] = 0 ∧
      (after { consumerAt 1 2 (ringWrite [] 1 0x00140000) with bitOffset := 3, acc := accZero.set 0 1 }).causes =
        [.zeroWidth 0 20] := by
  decide
/-- C-5. -/
theorem test_skip :
    (after (consumerAt 5 7 (ringWrite [] 5 0x12340002))).rd = 6 ∧
      (after (consumerAt 5 7 (ringWrite [] 5 0x12340002))).rg = 0x048 := by
  decide
/-- C-9: the read cursor wraps from 299 to 0. -/
theorem test_skip_wraps :
    (after (consumerAt 299 0 (ringWrite [] 299 0x00000002))).rd = 0 ∧
      (after (consumerAt 299 0 (ringWrite [] 299 0x00000002))).rg = 0x05F := by
  decide

/-! ## The decoder (tables 3.5 and 3.6) -/

theorem test_bits :
    [bits 0, bits 4, bits 5, bits 14, bits 15, bits 24, bits 95, bits 104, bits 105, bits 65535] =
      [0, 0, 1, 1, 2, 2, 10, 10, 11, 6554] := by
  decide
/-- D-9: `5 + 6 = 11 > 10`. -/
theorem test_low_overrun : pulse (accZero.set 0 1) 5 60 20 = .violation (.lowOverrun 5 6) := by decide
/-- D-2 and D-14: the high phase ends at the word's end, and a remainder of 12 is a gap. -/
theorem test_word_end :
    pulse accZero 0 100 20 = .accumulate (accZero.set 0 0x3FF) 12 ∧
      pulse accZero 0 10 230 = .accumulate (accZero.set 0 1) 12 := by
  decide
/-- D-15 and D-18: a remainder of 13 breaks a frame, and slot 300 without a break overruns it. -/
theorem test_breaks :
    pulse accZero 0 10 240 = .violation (.midframeBreak 12 13) ∧
      pulse accZero 288 10 110 = .violation (.frameOverrun 0) := by
  decide
/-- D-20: slot 300 with a remainder of 13 completes the frame. -/
theorem test_complete : pulse accZero 288 10 240 = .complete (accZero.set 24 1) := by decide

/-! ## The validator (table 3.7) -/

theorem test_words :
    [wordFailure 0x3E1, wordFailure 0x3FF, wordFailure 0x201, wordFailure 0x000, wordFailure 0xBE1,
      wordFailure 0x1E1, wordFailure 0xFFF, wordFailure 0x1DB] =
      [none, none, none, some .start, some .stop, some .parity, some .stop, some .parity] := by
  decide
theorem test_data_bytes :
    [dataByte (invert 0x3E1), dataByte (invert 0x3FF), dataByte (invert 0x201), dataByte (invert 0x1DB)] =
      [0x0F, 0x00, 0xFF, 0x12] := by
  decide

/-! ## Witnesses: for each obligation with hypotheses, values that meet them together, one for each clause -/

theorem witness_DecodeEncodeRoundTrip :
    Instr.wellFormed (.eSkip 0xFFFF 0x0002) = true ∧ Instr.wellFormed (.pSetWr 0x7FFFFF 511) = true := by
  decide

theorem witness_EntryClassByWholePin :
    (0x0001 : Half) = 0x0001 ∧ (0x0000 : Half) = 0x0000 ∧ ((0x0002 : Half) ≠ 0x0001 ∧ (0x0002 : Half) ≠ 0x0000) ∧
      ((0xFFFF : Half) ≠ 0x0001 ∧ (0xFFFF : Half) ≠ 0x0000) := by
  decide

theorem witness_StepRunsDecodedInstruction_command : ∃ (s : State) (w : Command) (rest : List Event),
    s.schedule = .p w :: rest ∧ s.rstP = false :=
  ⟨about [.p 0x1000A0001], 0x1000A0001, [], rfl, rfl⟩

theorem witness_StepRunsDecodedInstruction_entry : ∃ (s : State) (rest : List Event),
    s.schedule = .c :: rest ∧ s.rstC = false ∧ s.holdReason = none ∧ s.writeCursor ≠ s.rd :=
  ⟨consumerAt 299 0 [], [], by decide, by decide, by decide, by decide⟩

/-- C-10: the producer exactly 300 entries ahead. -/
theorem witness_StepRunsDecodedInstruction_lapping : ∃ (s : State) (rest : List Event),
    s.schedule = .c :: rest ∧ s.rstC = false ∧ s.holdReason = none ∧ s.writeCursor = s.rd :=
  ⟨{ consumerAt 3 5 [] with wg := cursorEncode 3 }, [], by decide, by decide, by decide, by decide⟩

theorem witness_StepRunsDecodedInstruction_drain : ∃ (s : State) (rest : List Event),
    s.schedule = .drain :: rest ∧ s.rstC = false ∧ s.holdReason = none ∧ s.writeCursor ≠ s.rd :=
  ⟨{ consumerAt 0 299 [] with schedule := [.drain] }, [], by decide, by decide, by decide, by decide⟩

theorem witness_StepRunsDecodedInstruction_drain_lapping : ∃ (s : State) (rest : List Event),
    s.schedule = .drain :: rest ∧ s.rstC = false ∧ s.holdReason = none ∧ s.writeCursor = s.rd :=
  ⟨{ consumerAt 3 5 [] with wg := cursorEncode 3, schedule := [.drain] }, [], by decide, by decide, by decide, by decide⟩

theorem witness_PlacedWordRunsNext : State.reset.rd.toNat < 300 ∧ (consumerAt 299 0 []).rd.toNat < 300 := by decide

theorem witness_PushWritesThenPublishes :
    (cursorDecode (about []).wg).toNat < 300 ∧ (cursorDecode 0x15F).toNat < 300 ∧ 300 ≤ (cursorDecode 0x15D).toNat ∧
      300 ≤ (cursorDecode 0x05D).toNat := by
  decide

theorem witness_SetWrMovesWriteCursor :
    cursorEncode 0 = State.reset.wg ∧ cursorEncode 300 ≠ State.reset.wg ∧ cursorEncode 511 ≠ State.reset.wg := by
  decide

/-- D-6, D-7 and D-8. -/
theorem witness_ZeroCountResetsDecoder :
    (((4 : Half).toNat + 5) / 10 = 0 ∨ ((20 : Half).toNat + 5) / 10 = 0) ∧
      (((10 : Half).toNat + 5) / 10 = 0 ∨ ((4 : Half).toNat + 5) / 10 = 0) := by
  decide

/-- D-12: at slot 10 a low phase of one bit. -/
theorem witness_LowOverrunResetsDecoder : ∃ (s : State) (dt : Half),
    1 ≤ (s.pendingLow.toNat + 5) / 10 ∧ 1 ≤ (dt.toNat + 5) / 10 ∧
      10 < s.bitOffset.toNat % 12 + (s.pendingLow.toNat + 5) / 10 :=
  ⟨{ State.reset with bitOffset := 10, pendingLow := 10 }, 10, by decide⟩

/-- D-1 (ends inside the word), and D-2 and D-14 (remainders 0 and 12). -/
theorem witness_PairAccumulatesSlots :
    (∃ (s : State) (dt : Half) (bi bw l h : Nat), s.bitOffset.toNat < 300 ∧ bi = s.bitOffset.toNat / 12 ∧
      bw = s.bitOffset.toNat % 12 ∧ l = (s.pendingLow.toNat + 5) / 10 ∧ h = (dt.toNat + 5) / 10 ∧
      1 ≤ l ∧ 1 ≤ h ∧ bw + l ≤ 10 ∧ bw + l + h < 12) ∧
    (∃ (s : State) (dt : Half) (bi bw l h : Nat), s.bitOffset.toNat < 300 ∧ bi = s.bitOffset.toNat / 12 ∧
      bw = s.bitOffset.toNat % 12 ∧ l = (s.pendingLow.toNat + 5) / 10 ∧ h = (dt.toNat + 5) / 10 ∧
      1 ≤ l ∧ 1 ≤ h ∧ bw + l ≤ 10 ∧ 12 ≤ bw + l + h ∧ bw + l + h - 12 ≤ 12 ∧ bi < 24) ∧
    (∃ (s : State) (dt : Half) (bi bw l h : Nat), s.bitOffset.toNat < 300 ∧ bi = s.bitOffset.toNat / 12 ∧
      bw = s.bitOffset.toNat % 12 ∧ l = (s.pendingLow.toNat + 5) / 10 ∧ h = (dt.toNat + 5) / 10 ∧
      1 ≤ l ∧ 1 ≤ h ∧ bw + l ≤ 10 ∧ 12 ≤ bw + l + h ∧ bw + l + h - 12 = 12 ∧ bi = 23) :=
  ⟨⟨{ State.reset with pendingLow := 10 }, 20, 0, 0, 1, 2, by decide⟩,
    ⟨{ State.reset with pendingLow := 100 }, 20, 0, 0, 10, 2, by decide⟩,
    ⟨{ State.reset with bitOffset := 276, pendingLow := 10 }, 230, 23, 0, 1, 23, by decide⟩⟩

/-- D-15 (in the word before the last), and D-18 and its remainder of 12. -/
theorem witness_MisplacedBreakResetsDecoder :
    (∃ (s : State) (dt : Half) (bi bw l h : Nat), s.bitOffset.toNat < 300 ∧ bi = s.bitOffset.toNat / 12 ∧
      bw = s.bitOffset.toNat % 12 ∧ l = (s.pendingLow.toNat + 5) / 10 ∧ h = (dt.toNat + 5) / 10 ∧
      1 ≤ l ∧ 1 ≤ h ∧ bw + l ≤ 10 ∧ 12 ≤ bw + l + h ∧ bi < 24 ∧ 12 < bw + l + h - 12) ∧
    (∃ (s : State) (dt : Half) (bi bw l h : Nat), s.bitOffset.toNat < 300 ∧ bi = s.bitOffset.toNat / 12 ∧
      bw = s.bitOffset.toNat % 12 ∧ l = (s.pendingLow.toNat + 5) / 10 ∧ h = (dt.toNat + 5) / 10 ∧
      1 ≤ l ∧ 1 ≤ h ∧ bw + l ≤ 10 ∧ 12 ≤ bw + l + h ∧ bi = 24 ∧ bw + l + h - 12 ≤ 12) :=
  ⟨⟨{ State.reset with bitOffset := 276, pendingLow := 10 }, 240, 23, 0, 1, 24, by decide⟩,
    ⟨{ State.reset with bitOffset := 288, pendingLow := 10 }, 110, 24, 0, 1, 11, by decide⟩⟩

/-- D-20's widths, the smallest break. -/
theorem witness_CompletionValidatesThenResets : ∃ (s : State) (dt : Half) (bw l h : Nat),
    s.bitOffset.toNat < 300 ∧ s.bitOffset.toNat / 12 = 24 ∧ bw = s.bitOffset.toNat % 12 ∧
      l = (s.pendingLow.toNat + 5) / 10 ∧ h = (dt.toNat + 5) / 10 ∧
      1 ≤ l ∧ 1 ≤ h ∧ bw + l ≤ 10 ∧ 12 ≤ bw + l + h ∧ 12 < bw + l + h - 12 :=
  ⟨{ State.reset with bitOffset := 288, pendingLow := 10 }, 240, 0, 1, 24, by decide⟩

/-- Both cases of the completion occur: a passing word (byte 0x00) and a failing one (D-20's word 24). -/
theorem witness_CompletionValidatesThenResets_words : WordPasses 0x3FF ∧ ¬ WordPasses 0x001 :=
  ⟨⟨by decide, by decide, by decide⟩, fun h => absurd h.parity (by decide)⟩

/-- The two ends of the band for 1 and 6553 bits. -/
theorem witness_WidthInBandCountsItsBits :
    (10 * 1 - 5 ≤ (5 : Half).toNat ∧ (5 : Half).toNat ≤ 10 * 1 + 4) ∧
      (10 * 6553 - 5 ≤ (65534 : Half).toNat ∧ (65534 : Half).toNat ≤ 10 * 6553 + 4) := by
  decide

/-- The decoder after D-1. -/
theorem witness_DecoderInv : DecoderInv (accZero.set 0 1) 3 := by
  refine ⟨by decide, .inr (by decide), ?_, ?_, ?_, ?_, ?_⟩
  · have all : ∀ i : Fin 25, 0 < i.val → (accZero.set 0 1)[i] = 0 := by decide
    exact fun i hi h => all ⟨i, hi⟩ h
  · intro _ h; exact absurd h (by decide)
  · intro i _ h; exact absurd h (by have : wordIndex 3 = 0 := by decide
                                    omega)
  · have all : ∀ h : 0 < 25, (accZero.set 0 1)[0].getLsbD 0 = true := by decide
    exact fun h _ => all h
  · have all : ∀ i : Fin 25, (accZero.set 0 1)[i].getLsbD 10 = false ∧ (accZero.set 0 1)[i].getLsbD 11 = false := by
      decide
    exact fun i hi => all ⟨i, hi⟩

/-- A consumer edge from there (D-3), and the pair itself. -/
theorem witness_DecoderInvariantsKept :
    (∃ s t : State, s.acc = accZero.set 0 1 ∧ s.bitOffset.toNat = 3 ∧ step s = .next t) ∧
      pulse (accZero.set 0 1) 3 20 10 ≠ .violation (.zeroWidth 20 10) ∧
        pulse (accZero.set 0 1) 3 20 10 ≠ .violation (.lowOverrun 3 (bits 20)) :=
  ⟨⟨{ consumerAt 0 1 (ringWrite [] 0 0x000A0000) with acc := accZero.set 0 1, bitOffset := 3, pendingLow := 20 },
    _, by decide, by decide, rfl⟩, by decide, by decide⟩

/-- D-20's pair on 24 empty words: every word but the last fails its start check. -/
theorem witness_RejectionNamesFirstFailure_logged : ∃ (s : State) (dt : Half) (acc' : Acc) (bw l h : Nat),
    s.bitOffset.toNat < 300 ∧ s.bitOffset.toNat / 12 = 24 ∧ bw = s.bitOffset.toNat % 12 ∧
      l = (s.pendingLow.toNat + 5) / 10 ∧ h = (dt.toNat + 5) / 10 ∧
      1 ≤ l ∧ 1 ≤ h ∧ bw + l ≤ 10 ∧ 12 ≤ bw + l + h ∧ 12 < bw + l + h - 12 ∧
      LowPhaseOr s.acc acc' 24 bw l ∧ ∃ i, ∃ hi : i < 25, ¬ WordPasses acc'[i] := by
  refine ⟨{ State.reset with bitOffset := 288, pendingLow := 10 }, 240, orLow accZero 24 0 1, 0, 1, 24, by decide,
    by decide, by decide, by decide, by decide, by decide, by decide, by decide, by decide, by decide, ?_,
    0, by decide, fun h => absurd h.start (by decide)⟩
  have all : ∀ i : Fin 25, ∀ k : Fin 12, (orLow accZero 24 0 1)[i].getLsbD k =
      (accZero[i].getLsbD k || (decide (i.val = 24) && decide (0 ≤ k.val) && decide (k.val < 0 + 1))) := by decide
  exact fun i hi k hk => all ⟨i, hi⟩ ⟨k, hk⟩

/-- A frame rejected at word 0 for each check: an empty word, a low stop slot, an inverted parity slot. -/
theorem witness_RejectionNamesFirstFailure :
    validate accZero = .error (0, .start) ∧ validate (Vector.replicate 25 0xBE1) = .error (0, .stop) ∧
      validate (Vector.replicate 25 0x1E1) = .error (0, .parity) ∧
      validate ((Vector.replicate 25 0x3FF).set 24 0x1E1) = .error (24, .parity) :=
  ⟨rfl, rfl, rfl, rfl⟩

theorem witness_FrameBusCarriesBytes : 24 < 25 ∧ 7 < 8 := by decide

/-- 24 bytes 0x00 decoded in place and the start bit of the last: the state before D-20's pair, in a smaller frame. -/
def nearlyDone : State := { State.reset with
  acc := (Vector.replicate 25 0x3FF).set 24 0
  bitOffset := 288
  pendingLow := 10 }

theorem witness_OnlyParityRejectsDecodedFrame :
    DecoderInv nearlyDone.acc nearlyDone.bitOffset.toNat ∧ ∃ t : State, exec (.eHigh 240) nearlyDone = .next t ∧
      t.causes = nearlyDone.causes ++ [.invalidFrame 24 .parity, .complete false] := by
  refine ⟨⟨by decide, .inl (by decide), ?_, ?_, ?_, ?_, ?_⟩, _, rfl, by decide⟩
  · intro i hi h; exact absurd h (by have : wordIndex nearlyDone.bitOffset.toNat = 24 := by decide
                                     omega)
  · have all : nearlyDone.acc[24] = 0 := by decide
    exact fun _ _ => all
  · have all : ∀ i : Fin 25, i.val < 24 → nearlyDone.acc[i].getLsbD 0 = true := by decide
    exact fun i hi h => all ⟨i, hi⟩ h
  · intro _ h; exact absurd (by decide) h
  · have all : ∀ i : Fin 25, nearlyDone.acc[i].getLsbD 10 = false ∧ nearlyDone.acc[i].getLsbD 11 = false := by
      decide
    exact fun i hi => all ⟨i, hi⟩

/-- 25 bytes 0x00: 25 pairs of 10 and 2 bits, the last with the break. -/
theorem witness_TransmittedFrameIsEmitted :
    13 ≤ 13 ∧ State.reset.acc = accZero ∧ State.reset.bitOffset = 0 ∧
      (List.replicate 24 ((100 : Half), (20 : Half)) ++ [(104, 145)]).map (fun w : Half × Half => (bits w.1, bits w.2)) =
        framePairs (Vector.replicate 25 (0 : Byte)).toList 13 := by
  decide +kernel

theorem witness_ShortBreakLosesFrame :
    12 ≤ 12 ∧ State.reset.acc = accZero ∧ State.reset.bitOffset = 0 ∧
      (List.replicate 24 ((95 : Half), (24 : Half)) ++ [(100, 144)]).map (fun w : Half × Half => (bits w.1, bits w.2)) =
        framePairs (Vector.replicate 25 (0 : Byte)).toList 12 := by
  decide +kernel

/-- An empty ring, an invalid view (a drain), and an invalid read cursor, which no run reaches (R100). -/
theorem witness_HoldChangesNothing :
    (∃ (s : State) (rest : List Event), s.schedule = .c :: rest ∧ s.rstC = false ∧ s.rd = cursorDecode s.ws) ∧
    (∃ (s : State) (rest : List Event), s.schedule = .drain :: rest ∧ s.rstC = false ∧ s.rd ≠ cursorDecode s.ws ∧
      300 ≤ (cursorDecode s.ws).toNat) ∧
    (∃ (s : State) (rest : List Event), s.schedule = .c :: rest ∧ s.rstC = false ∧ s.rd ≠ cursorDecode s.ws ∧
      300 ≤ s.rd.toNat) :=
  ⟨⟨about [.c], [], by decide⟩, ⟨{ about [.drain] with ws := 0x15D }, [], by decide⟩,
    ⟨{ about [.c] with rd := 300 }, [], by decide⟩⟩

theorem witness_HoldLiftedOnlyByWriteView : ∃ s t : State,
    s.holdReason ≠ none ∧ step s = .next t ∧ t.holdReason = none :=
  ⟨{ about [.sw .latest] with wg := 0x05E, hw := [0x05F, 0x05E] }, _, by decide, rfl, by decide⟩

theorem witness_LappingReadIsDrawn : ∃ (s : State) (rest : List Event),
    s.schedule = .c :: rest ∧ s.rstC = false ∧ s.holdReason = none ∧ cursorDecode s.wg = s.rd :=
  ⟨{ consumerAt 3 5 [] with wg := cursorEncode 3 }, [], by decide⟩

theorem witness_ConsumedEntryAdvancesCursor :
    (∃ (s : State) (rest : List Event), s.schedule = .c :: rest ∧ s.rstC = false ∧ s.holdReason = none) ∧
      (∃ (s : State) (rest : List Event), s.schedule = .drain :: rest ∧ s.rstC = false ∧ s.holdReason = none) :=
  ⟨⟨consumerAt 299 0 [], [], by decide⟩, ⟨{ consumerAt 0 299 [] with schedule := [.drain] }, [], by decide⟩⟩

/-- A stale sample of the element last taken, and the latest. -/
theorem witness_SettledSampleShowsHistory :
    (∃ (s : State) (rest : List Event) (k : Nat) (g : Code), s.rstC = false ∧ s.schedule = .sw (.settled k) :: rest ∧
      s.jw ≤ k ∧ s.hw[k]? = some g) ∧
    (∃ (s : State) (rest : List Event) (g : Code), s.rstC = false ∧ s.schedule = .sw .latest :: rest ∧
      s.jw ≤ s.hw.length - 1 ∧ s.hw.getLast? = some g) :=
  ⟨⟨about [.sw (.settled 0)], [], 0, 0x05F, by decide⟩, ⟨about [.sw .latest], [], 0x05F, by decide⟩⟩

/-- An `SW` sample that answers a next state, its index moved on. -/
theorem witness_SettledSampleShowsHistory_order : ∃ (s t : State) (rest : List Event) (choice : SyncChoice),
    s.schedule = .sw choice :: rest ∧ step s = .next t ∧ s.jw < t.jw :=
  ⟨{ about [.sw .latest] with hw := [0x05F, 0x05E] }, _, [], .latest, rfl, rfl, by decide⟩

theorem witness_ApertureSampleMixesCodes :
    ∃ (s : State) (rest : List Event) (k : Nat) (m old new : Code), s.rstC = false ∧
      s.schedule = .sw (.mix k m) :: rest ∧ s.jw < k ∧ s.hw[k - 1]? = some old ∧ s.hw[k]? = some new :=
  ⟨{ about [.sw (.mix 1 0x104)] with hw := [0x059, 0x15D] }, [], 1, 0x104, 0x059, 0x15D, by decide⟩

theorem witness_ReadViewSamplesAlike :
    (∃ (s : State) (rest : List Event) (k : Nat) (g : Code), s.rstP = false ∧ s.schedule = .sr (.settled k) :: rest ∧
      s.jr ≤ k ∧ s.hr[k]? = some g) ∧
    (∃ (s : State) (rest : List Event) (g : Code), s.rstP = false ∧ s.schedule = .sr .latest :: rest ∧
      s.jr ≤ s.hr.length - 1 ∧ s.hr.getLast? = some g) ∧
    (∃ (s : State) (rest : List Event) (k : Nat) (m old new : Code), s.rstP = false ∧
      s.schedule = .sr (.mix k m) :: rest ∧ s.jr < k ∧ s.hr[k - 1]? = some old ∧ s.hr[k]? = some new) :=
  ⟨⟨about [.sr (.settled 0)], [], 0, 0x05F, by decide⟩, ⟨about [.sr .latest], [], 0x05F, by decide⟩,
    ⟨{ about [.sr (.mix 1 0x001)] with hr := [0x05F, 0x05E] }, [], 1, 0x001, 0x05F, 0x05E, by decide⟩⟩

/-- A sample that moves on; then, for each clause, an older index (for a mixture, the one last taken) and one past the
end. -/
theorem witness_ViewIndexNeverFalls :
    (∃ s t : State, step s = .next t ∧
      (∀ port rest, s.schedule ≠ .reset port :: rest ∧ s.schedule ≠ .rstRise port :: rest) ∧ s.jw < t.jw) ∧
    (∃ (s : State) (rest : List Event), s.rstC = false ∧ s.schedule = .sw (.settled 0) :: rest ∧ 0 < s.jw) ∧
    (∃ (s : State) (rest : List Event), s.rstC = false ∧ s.schedule = .sw (.settled 1) :: rest ∧ s.hw.length ≤ 1) ∧
    (∃ (s : State) (rest : List Event) (m : Code), s.rstC = false ∧ s.schedule = .sw (.mix 0 m) :: rest ∧ 0 ≤ s.jw) ∧
    (∃ (s : State) (rest : List Event), s.rstP = false ∧ s.schedule = .sr (.settled 0) :: rest ∧ 0 < s.jr) ∧
    (∃ (s : State) (rest : List Event) (m : Code), s.rstP = false ∧ s.schedule = .sr (.mix 1 m) :: rest ∧
      s.hr.length ≤ 1) :=
  ⟨⟨{ about [.sw .latest] with hw := [0x05F, 0x05E] }, _, rfl,
      fun _ _ => ⟨(fun h => nomatch h), (fun h => nomatch h)⟩, by decide⟩,
    ⟨{ about [.sw (.settled 0)] with jw := 1 }, [], by decide⟩, ⟨about [.sw (.settled 1)], [], by decide⟩,
    ⟨about [.sw (.mix 0 0)], [], 0, by decide⟩, ⟨{ about [.sr (.settled 0)] with jr := 1 }, [], by decide⟩,
    ⟨about [.sr (.mix 1 0)], [], 0, by decide⟩⟩

theorem witness_CursorIncrementChangesOneBit : (0 : Cursor).toNat < 300 ∧ (299 : Cursor).toNat < 300 := by decide

theorem witness_PushMixtureIsHeldValue : (0 : Cursor).toNat < 300 ∧ (299 : Cursor).toNat < 300 := by decide

/-- A chain of two stages, before and after a push, and an edge in the aperture of it. -/
theorem witness_ChainEdgeIsAbstractStep :
    (LegalChain [0x05F] (SyncChain.reset 2) ∧ ApertureAllowed [0x05F] (SyncChain.reset 2) none) ∧
      (LegalChain [0x05F, 0x05E] (SyncChain.reset 2) ∧
        ApertureAllowed [0x05F, 0x05E] (SyncChain.reset 2) (some 0x001)) :=
  ⟨⟨⟨by decide, .inl rfl, by decide, .inl rfl, by decide, .inl rfl⟩, trivial⟩,
    ⟨⟨by decide, .inl rfl, by decide, .inl rfl, by decide, .inl rfl⟩, _, rfl, by decide⟩⟩

theorem witness_ChainSettlesInItsDepth : SyncChain.reset 2 ≠ [] ∧ [0x05F, 0x05E].getLast? = some (0x05E : Code) := by
  decide

/-- The queue does not depend on the inputs to come. -/
theorem ringQueue_withSchedule {s : State} {q : List Entry} (h : RingQueue s q) (schedule : List Event) :
    RingQueue (s.withSchedule schedule) q :=
  ⟨h.short, h.rd_valid, h.write, h.entries, h.view_in, h.lag_le, h.history, h.seen⟩

/-- One entry at index 299, the last, the consumer's view one push behind. -/
def oneQueued : State := { State.reset with
  ring := ringWrite [] 299 0x000A0001
  rd := 299
  rg := 0x15F
  hr := [0x15F]
  wg := 0x05F
  hw := [0x15F, 0x05F]
  ws := 0x15F }

theorem ringQueue_oneQueued : RingQueue oneQueued [0x000A0001] := by
  refine ⟨by decide, by decide, by decide, ?_, by decide, by decide, ?_, .inl (by decide)⟩
  · intro i x h
    match i, h with
    | 0, h => cases h; decide
  · have all : ∀ i : Fin 2, oneQueued.hw[oneQueued.hw.length - 1 - i]? =
        some (cursorEncode (cursorAt (oneQueued.rd.toNat + 1 - i))) := by decide
    exact fun i h => all ⟨i, Nat.lt_succ_of_le h⟩

/-- The same with the view at the write cursor. -/
theorem ringQueue_oneSeen : RingQueue (oneQueued.setWriteView 0x05F 1) [0x000A0001] := by
  refine ⟨by decide, by decide, by decide, ringQueue_oneQueued.entries, by decide, by decide, ?_, .inl (by decide)⟩
  exact fun i h => ringQueue_oneQueued.history i (Nat.le_trans h (by decide))

/-- A ring whose first `n` entries are SKIP entries. -/
def skips : Nat → Memory
  | 0 => []
  | n + 1 => ringWrite (skips n) n 0x00000002

theorem ringRead_skips (n i : Nat) (h : i < n) : ringRead (skips n) i = 0x00000002 := by
  induction n with
  | zero => exact absurd h (Nat.not_lt_zero i)
  | succ n ih =>
    by_cases he : i = n
    · rw [he]; exact ringRead_ringWrite_same _ _ _
    · exact (ringRead_ringWrite_other _ _ he).trans (ih (by omega))

/-- `n` SKIP entries queued from index 0, all of them seen. -/
def skipsQueued (n : Nat) : State := { State.reset with
  ring := skips n
  wg := cursorEncode (cursorAt n)
  hw := [cursorEncode (cursorAt n)]
  ws := cursorEncode (cursorAt n) }

theorem ringQueue_skipsQueued (n : Nat) (h : n < 300) :
    RingQueue (skipsQueued n) (List.replicate n 0x00000002) := by
  have rd : (skipsQueued n).rd.toNat = 0 := rfl
  have lag : (skipsQueued n).lag = 0 := rfl
  refine ⟨by rw [List.length_replicate]; exact h, by rw [rd]; decide, ?_, ?_, by exact Nat.zero_lt_one,
    by rw [lag]; exact Nat.zero_le _, ?_, .inl ?_⟩
  · rw [List.length_replicate, rd, Nat.zero_add]; rfl
  · intro i x hx
    obtain ⟨hi, rfl⟩ := List.getElem?_eq_some_iff.mp hx
    rw [List.length_replicate] at hi
    have hm : (0 + i) % Config.capacity = i := by rw [Nat.zero_add]; exact Nat.mod_eq_of_lt (by show i < 300; omega)
    rw [rd, hm, List.getElem_replicate]
    exact ringRead_skips n i hi
  · intro i hi
    have h0 : i = 0 := Nat.le_zero.mp hi
    subst h0
    rw [List.length_replicate, rd, Nat.zero_add]; rfl
  · rw [List.length_replicate, rd, lag, Nat.zero_add]
    exact cursorDecode_cursorEncode _

theorem witness_RingIsQueue_idle : ∃ (s t : State) (q : List Entry) (rest : List Event) (data : BitVec 32),
    RingQueue s q ∧ step s = .next t ∧ s.schedule = .p ((0 : BitVec 2) ++ data) :: rest :=
  ⟨oneQueued.withSchedule [.p 0], _, [0x000A0001], [], 0, ringQueue_withSchedule ringQueue_oneQueued _, rfl, by decide⟩

theorem witness_RingIsQueue_push : ∃ (s t : State) (q : List Entry) (rest : List Event) (e : Entry),
    RingQueue s q ∧ step s = .next t ∧ s.schedule = .p ((1 : BitVec 2) ++ e) :: rest ∧ s.rstP = false ∧
      q.length < 299 ∧ q.length = 298 :=
  ⟨(skipsQueued 298).withSchedule [.p 0x1000A0001], _, List.replicate 298 0x00000002, [], 0x000A0001,
    ringQueue_withSchedule (ringQueue_skipsQueued 298 (by decide)) _,
    exec_pPush_valid 1 10 (by show (cursorDecode (cursorEncode (cursorAt 298))).toNat < 300; decide), by decide, rfl,
    by rw [List.length_replicate]; decide, List.length_replicate⟩

theorem witness_RingIsQueue_sample : ∃ (s t : State) (q : List Entry) (rest : List Event) (choice : SyncChoice),
    RingQueue s q ∧ step s = .next t ∧ s.schedule = .sw choice :: rest ∧ s.jw ≠ t.jw :=
  ⟨oneQueued.withSchedule [.sw (.mix 1 0x100)], _, [0x000A0001], [], .mix 1 0x100,
    ringQueue_withSchedule ringQueue_oneQueued _, rfl, by decide, by decide⟩

theorem witness_RingIsQueue_consume : ∃ (s t : State) (q : List Entry) (rest : List Event),
    RingQueue s q ∧ step s = .next t ∧ s.schedule = .c :: rest ∧ s.rstC = false ∧ s.holdReason = none :=
  ⟨(oneQueued.setWriteView 0x05F 1).withSchedule [.c], _, [0x000A0001], [],
    ringQueue_withSchedule ringQueue_oneSeen _, rfl, by decide, rfl, by decide⟩

theorem witness_RingIsQueue_hold : ∃ (s t : State) (q : List Entry) (rest : List Event),
    RingQueue s q ∧ step s = .next t ∧ s.schedule = .c :: rest ∧ s.rstC = false ∧ s.holdReason = some .empty :=
  ⟨oneQueued.withSchedule [.c], _, [0x000A0001], [],
    ringQueue_withSchedule ringQueue_oneQueued _, rfl, by decide, rfl, by decide⟩

theorem witness_DrainRunsQueueInOrder : ∃ (s : State) (q : List Entry) (rest : List Event),
    RingQueue s q ∧ s.rstC = false ∧ s.schedule = .sw .latest :: .drain :: rest :=
  ⟨oneQueued.withSchedule [.sw .latest, .drain], [0x000A0001], [],
    ringQueue_withSchedule ringQueue_oneQueued _, rfl, rfl⟩

theorem witness_FullLapIsInvisible :
    (List.replicate 300 (0x00000002 : Entry)).length = 300 ∧ (cursorDecode State.reset.wg).toNat < 300 ∧
      (cursorDecode 0x15F).toNat < 300 :=
  ⟨List.length_replicate, by decide, by decide⟩

/-- One entry queued and a view 298 entries old, the largest the bound admits with it. -/
theorem witness_EstimateBoundsUnconsumed : ∃ (s : State) (q : List Entry) (stale : Nat),
    RingQueue s q ∧ q.length + stale < 300 ∧ s.rs = cursorEncode (cursorAt (s.rd.toNat + 300 - stale)) ∧ stale = 298 :=
  ⟨oneQueued.setReadView (cursorEncode 1) 0, [0x000A0001], 298,
    ⟨ringQueue_oneQueued.short, ringQueue_oneQueued.rd_valid, ringQueue_oneQueued.write, ringQueue_oneQueued.entries,
      ringQueue_oneQueued.view_in, ringQueue_oneQueued.lag_le, ringQueue_oneQueued.history, ringQueue_oneQueued.seen⟩,
    by decide, by decide, rfl⟩

/-- No push on the port; a push at a corrupt cursor; a push lost in reset. -/
theorem witness_ResetGivesResetValues :
    (∃ (s : State) (rest : List Event) (port : Command), s.schedule = .reset port :: rest ∧
      port.extractLsb' 32 2 ≠ (1 : BitVec 2)) ∧
    (∃ (s : State) (rest : List Event) (port : Command), s.schedule = .reset port :: rest ∧
      300 ≤ (cursorDecode s.wg).toNat) ∧
    (∃ (s : State) (rest : List Event) (port : Command), s.schedule = .reset port :: rest ∧ s.rstP = true) :=
  ⟨⟨about [.reset 0], [], 0, by decide⟩,
    ⟨{ about [.reset 0x1000A0001] with wg := 0x15D }, [], 0x1000A0001, by decide⟩,
    ⟨{ about [.reset 0x1000A0001] with rstP := true }, [], 0x1000A0001, by decide⟩⟩

theorem witness_ResetCutsPushIntoDraw : ∃ (s : State) (rest : List Event) (e : Entry),
    s.schedule = .reset ((1 : BitVec 2) ++ e) :: rest ∧ s.rstP = false ∧ (cursorDecode s.wg).toNat < 300 :=
  ⟨{ about [.reset 0x1000A0001] with wg := 0x15F }, [], 0x000A0001, by decide⟩

/-- A rise that cuts no push, at each of the three reasons, and one that cuts one at the last index. -/
theorem witness_RiseHoldsDomainsUntilReleased :
    (∃ (s : State) (rest : List Event) (port : Command), s.schedule = .rstRise port :: rest ∧
      port.extractLsb' 32 2 ≠ (1 : BitVec 2)) ∧
    (∃ (s : State) (rest : List Event) (port : Command), s.schedule = .rstRise port :: rest ∧
      300 ≤ (cursorDecode s.wg).toNat) ∧
    (∃ (s : State) (rest : List Event) (port : Command), s.schedule = .rstRise port :: rest ∧ s.rstP = true) ∧
    (∃ (s : State) (rest : List Event) (port : Command), s.schedule = .rstRise port :: rest ∧
      port.extractLsb' 32 2 = (1 : BitVec 2) ∧ (cursorDecode s.wg).toNat < 300 ∧ s.rstP = false) ∧
    (∃ (s : State) (rest : List Event), s.schedule = .rstRelease .producer :: rest ∧ s.rstP = true) ∧
    (∃ (s : State) (rest : List Event), s.schedule = .rstRelease .consumer :: rest ∧ s.rstC = true) :=
  ⟨⟨about [.rstRise 0], [], 0, by decide⟩,
    ⟨{ about [.rstRise 0x1000A0001] with wg := 0x15D }, [], 0x1000A0001, by decide⟩,
    ⟨{ about [.rstRise 0x1000A0001] with rstP := true }, [], 0x1000A0001, by decide⟩,
    ⟨{ about [.rstRise 0x1000A0001] with wg := 0x15F }, [], 0x1000A0001, by decide⟩,
    ⟨{ about [.rstRelease .producer] with rstP := true }, [], by decide⟩,
    ⟨{ about [.rstRelease .consumer] with rstC := true }, [], by decide⟩⟩

theorem witness_PartialResetRefused : ∃ (s : State) (rest : List Event) (d : Domain),
    s.schedule = .resetOne d :: rest :=
  ⟨about [.resetOne .producer], [], .producer, rfl⟩

theorem witness_HeldDomainTakesNoStep :
    (∃ (s : State) (rest : List Event) (w : Command), s.rstP = true ∧ s.schedule = .p w :: rest) ∧
      (∃ (s : State) (rest : List Event), s.rstC = true ∧ s.schedule = .c :: rest) :=
  ⟨⟨{ about [.p 0x1000A0001] with rstP := true }, [], 0x1000A0001, by decide⟩,
    ⟨{ about [.c] with rstC := true }, [], by decide⟩⟩

/-- Each of the three refusals occurs. -/
theorem witness_StopsAreOnlyNamedRefusals :
    step (about [.p 0x300000000]) = .refused (.reservedCommand 0x300000000) ∧
      step (about [.sw (.settled 1)]) = .refused (.noSuchSample (.settled 1)) ∧
      step (about [.sr (.mix 0 0)]) = .refused (.noSuchSample (.mix 0 0)) ∧
      step (about [.resetOne .consumer]) = .refused (.partialReset .consumer) :=
  ⟨rfl, rfl, rfl, rfl⟩

/-- Each agent writes its own field. -/
theorem witness_SingleWriterPerField :
    (∃ t, step (about [.p 0x1000A0001]) = .next t ∧ t.wg ≠ (about [.p 0x1000A0001]).wg) ∧
      (∃ t, step (consumerAt 0 1 (ringWrite [] 0 2)) = .next t ∧ t.rd ≠ 0) ∧
      (∃ t, step (oneQueued.withSchedule [.sw .latest]) = .next t ∧ t.ws ≠ oneQueued.ws) ∧
      (∃ t, step { about [.sr .latest] with hr := [0x05F, 0x05E] } = .next t ∧ t.rs ≠ State.reset.rs) :=
  ⟨⟨_, rfl, by decide⟩, ⟨_, rfl, by decide⟩, ⟨_, rfl, by decide⟩, ⟨_, rfl, by decide⟩⟩

theorem witness_OutputsAreNeverReadBack : ∃ s t : State, step s = .next t ∧ t.pendingLow ≠ s.pendingLow :=
  ⟨consumerAt 0 1 (ringWrite [] 0 0x000A0001), _, rfl, by decide⟩

/-- A state with a pushed entry, and a consumer step from it. -/
theorem witness_StepKeepsInvariants : ∃ s t : State, Inv s ∧ step s = .next t ∧ t.rd = 1 := by
  refine ⟨{ State.reset with
    ring := ringWrite [] 0 0x000A0001, wg := 0x05E, hw := [0x05F, 0x05E], ws := 0x05E, jw := 1, schedule := [.c] }, _,
    ⟨by decide, ⟨by decide, by decide⟩, ⟨rfl, rfl, .inl rfl, rfl, rfl, ?_, .inl rfl, by decide⟩,
      ⟨by decide, .inl (by decide), ?_, ?_, ?_, ?_, ?_⟩, ⟨by decide, fun h => by cases h⟩,
      ⟨fun h => absurd h (by decide), fun h => absurd h (by decide)⟩⟩, rfl, by decide⟩
  · intro k old new h1 h2
    match k, h2 with
    | 0, h2 => cases h2
  · have all : ∀ i : Fin 25, State.reset.acc[i] = 0 := by decide
    exact fun i hi _ => all ⟨i, hi⟩
  · have all : State.reset.acc[0] = 0 := by decide
    exact fun _ _ => all
  · intro i _ h; exact absurd h (Nat.not_lt_zero i)
  · intro _ h; exact absurd rfl h
  · have all : ∀ i : Fin 25, State.reset.acc[i].getLsbD 10 = false ∧ State.reset.acc[i].getLsbD 11 = false := by
      decide
    exact fun i hi => all ⟨i, hi⟩

theorem witness_ByteViewIsLittleEndian :
    (0 < 300 ∧ 0 < 4) ∧ (299 < 300 ∧ 3 < 4) ∧ Config.ringBase + 1200 ≤ Config.ringBase + 1200 :=
  ⟨by decide, by decide, Nat.le_refl _⟩

/-- The last index, beside a written neighbour; and a consumer edge at it. -/
theorem witness_UnwrittenEntryReadsRamInit :
    (∀ b < 4, Memory.written (ringWrite [] 298 0x000A0001) (4 * 299 + b) = none) ∧
    (∃ (s : State) (rest : List Event), s.schedule = .c :: rest ∧ s.rstC = false ∧ s.holdReason = none ∧
      s.writeCursor ≠ s.rd ∧ ∀ b < 4, s.ring.written (4 * s.rd.toNat + b) = none) :=
  ⟨by decide, ⟨consumerAt 299 0 [], [], by decide, by decide, by decide, by decide, by decide⟩⟩

end Sys2Proof.Tests
end

/-! What an unwritten part of the ring reads as (R14, R21), and the consumer edge that runs what it
reads (R97, R102). -/

namespace Sys2Proof.Machine

/-! ## Unwritten bytes and entries -/

/-- A byte not written since power-up is its byte of `RAM_INIT`, here by entry and position in the entry. -/
theorem Memory.readByte_unwritten {m : Memory} {i b : Nat} (hb : b < 4) (h : m.written (4 * i + b) = none) :
    m.readByte (4 * i + b) = entryByte (Config.ramInit i) b := by
  have hdiv : (4 * i + b) / 4 = i := by omega
  have hmod : (4 * i + b) % 4 = b := by omega
  rw [Memory.readByte, h, Option.getD_none, unwrittenByte, hdiv, hmod]

theorem ringRead_unwritten {m : Memory} {i : Nat} (h : ∀ b < 4, m.written (4 * i + b) = none) :
    ringRead m i = Config.ramInit i := by
  have byte (b : Nat) (hb : b < 4) : m.readByte (4 * i + b) = entryByte (Config.ramInit i) b :=
    Memory.readByte_unwritten hb (h b hb)
  have byte0 : m.readByte (4 * i) = entryByte (Config.ramInit i) 0 := byte 0 (by omega)
  rw [ringRead, byte 3 (by omega), byte 2 (by omega), byte 1 (by omega), byte0]
  exact entry_of_bytes _

/-- No byte of the ring counts as written at power-up. -/
theorem written_reset (a : Nat) : State.reset.ring.written a = none := rfl

/-! ## The consumer edge outside the lapping race -/

/-- A consumer edge whose checks pass runs the ring's entry at the read cursor (R97). -/
theorem step_consumer_ready {s : State} {rest : List Event} (scheduled : s.schedule = .c :: rest)
    (up : s.rstC = false) (ready : s.holdReason = none) (apart : s.writeCursor ≠ s.rd) :
    step s = exec (decodeEntry (ringRead s.ring s.rd.toNat)) (s.withSchedule rest) := by
  have edge : (s.withSchedule rest).takeEvent .c =
      .run (decodeEntry (ringRead s.ring s.rd.toNat)) (s.withSchedule rest) :=
    (State.takeEvent_c (s := s.withSchedule rest) up).trans
      (State.consumerEdge_ready (s := s.withSchedule rest) ready apart)
  rw [step_of_schedule scheduled, edge]

/-- Settles O59: an unwritten byte is its byte of `RAM_INIT`, and four bytes make the entry that the edge runs. -/
theorem unwrittenEntryReadsRamInit : Obligations.UnwrittenEntryReadsRamInit := by
  refine ⟨fun m i unwritten => ringRead_unwritten unwritten,
    fun i => ringRead_unwritten fun b _ => written_reset (4 * i + b), ?_⟩
  intro s rest scheduled up ready apart unwritten
  rw [step_consumer_ready scheduled up ready apart, ringRead_unwritten unwritten]
  rfl

end Sys2Proof.Machine

/-! The statements of `10_state.md`: the invariants that every step keeps, the outputs that no step reads, and the
`wc_invalid` output. -/

namespace Sys2Proof.Machine

/-! ## The low phase in the accumulator (R116) -/

theorem orLow_getElem_other {acc : Acc} {bi i : Nat} (bw l : Nat) (hi : i < 25) (other : i ≠ bi) :
    (orLow acc bi bw l)[i] = acc[i] := by
  simp [orLow, other.symm]

theorem orLow_keeps_set {acc : Acc} {i k : Nat} (bi bw l : Nat) (hi : i < 25) (hk : k < 12)
    (isSet : acc[i].getLsbD k = true) : (orLow acc bi bw l)[i].getLsbD k = true := by
  rw [orLow_slots acc bi bw l i hi k hk, isSet, Bool.true_or]

theorem orLow_sets_start {acc : Acc} {bi l : Nat} (hbi : bi < 25) (hl : 1 ≤ l) :
    (orLow acc bi 0 l)[bi].getLsbD 0 = true := by
  rw [orLow_slots acc bi 0 l bi hbi 0 (by decide)]
  simp [show 0 < l from hl]

theorem orLow_keeps_clear_past {acc : Acc} {i k bw l : Nat} (bi : Nat) (hi : i < 25) (hk : k < 12)
    (clear : acc[i].getLsbD k = false) (past : bw + l ≤ k) : (orLow acc bi bw l)[i].getLsbD k = false := by
  rw [orLow_slots acc bi bw l i hi k hk, clear]
  simp [show ¬ k < bw + l from Nat.not_lt.mpr past]

/-! ## The decoder's invariants (R125) -/

/-- The accumulator's part of R125 once a pair's low phase is stored: the words up to the pair's own have started, the
later ones are zero, and no stop slot is set. -/
structure LowStored (acc : Acc) (bi : Nat) : Prop where
  started : ∀ i, (h : i < 25) → i ≤ bi → acc[i].getLsbD 0 = true
  later_zero : ∀ i, (h : i < 25) → bi < i → acc[i] = 0
  stops_clear : ∀ i, (h : i < 25) → acc[i].getLsbD 10 = false ∧ acc[i].getLsbD 11 = false

theorem decoderInv_zero : DecoderInv accZero 0 where
  offset_lt := by decide
  slot_ne_one := .inl rfl
  later_zero i h _ := by simp [accZero]
  fresh_zero h _ := by simp [accZero]
  started i _ before := absurd before (Nat.not_lt_zero i)
  current_started _ slot := absurd rfl slot
  stops_clear i h := by simp [accZero]

/-- The low phase starts the word that it falls in, here or in an earlier pair, and ends before the stop slots. -/
theorem DecoderInv.lowStored {acc : Acc} {n l : Nat} (h : DecoderInv acc n) (hl : 1 ≤ l) (fits : n % 12 + l ≤ 10) :
    LowStored (orLow acc (n / 12) (n % 12) l) (n / 12) where
  started i hi upTo := by
    rcases Nat.lt_or_eq_of_le upTo with before | rfl
    · exact orLow_keeps_set _ _ _ hi (by decide) (h.started i hi before)
    · by_cases slot : n % 12 = 0
      · rw [slot]; exact orLow_sets_start hi hl
      · exact orLow_keeps_set _ _ _ hi (by decide) (h.current_started hi slot)
  later_zero i hi after := by
    rw [orLow_getElem_other _ _ hi (Nat.ne_of_gt after)]
    exact h.later_zero i hi after
  stops_clear i hi :=
    ⟨orLow_keeps_clear_past _ hi (by decide) (h.stops_clear i hi).1 fits,
      orLow_keeps_clear_past _ hi (by decide) (h.stops_clear i hi).2 (Nat.le_succ_of_le fits)⟩

/-- The decoder past slot 1 of a word whose low phase is stored (R117). -/
theorem LowStored.decoderInv_inside {acc : Acc} {bi n : Nat} (h : LowStored acc bi) (word : n / 12 = bi)
    (slot : 2 ≤ n % 12) (lt : n < 300) : DecoderInv acc n := by
  subst word
  exact
    { offset_lt := lt
      slot_ne_one := .inr slot
      later_zero := h.later_zero
      fresh_zero := fun _ zero => by have zero : n % 12 = 0 := zero; omega
      started := fun i hi before => h.started i hi (Nat.le_of_lt before)
      current_started := fun hi _ => h.started _ hi (Nat.le_refl _)
      stops_clear := h.stops_clear }

/-- The decoder at the start of the word after one whose low phase is stored (R117). -/
theorem LowStored.decoderInv_next {acc : Acc} {bi n : Nat} (h : LowStored acc bi) (start : n = 12 * (bi + 1))
    (lt : n < 300) : DecoderInv acc n := by
  have slot : slotIndex n = 0 := by show n % 12 = 0; omega
  have word : wordIndex n = bi + 1 := by show n / 12 = bi + 1; omega
  exact
    { offset_lt := lt
      slot_ne_one := .inl slot
      later_zero := fun i hi after => h.later_zero i hi (by omega)
      fresh_zero := fun hi _ => h.later_zero _ hi (by omega)
      started := fun i hi before => h.started i hi (by omega)
      current_started := fun _ used => absurd slot used
      stops_clear := h.stops_clear }

theorem State.accumulate_keeps_decoderInv {acc : Acc} {n : Nat} (s : State) (h : DecoderInv acc n) :
    DecoderInv (s.accumulate acc n).acc (s.accumulate acc n).bitOffset.toNat := by
  have lt : n < 300 := h.offset_lt
  have offset : (s.accumulate acc n).bitOffset.toNat = n := by
    rw [State.accumulate_bitOffset, BitVec.toNat_ofNat]; omega
  rw [offset]
  exact h

/-- A pulse pair leaves the decoder inside its word, at the next word, or reset. -/
theorem State.processPulse_keeps_decoderInv {s : State} (lo hi : Half) (h : DecoderInv s.acc s.bitOffset.toNat) :
    DecoderInv (s.processPulse lo hi).acc (s.processPulse lo hi).bitOffset.toNat := by
  have lt : s.bitOffset.toNat < 300 := h.offset_lt
  obtain ⟨-, result⟩ | ⟨-, -, -, result⟩ | ⟨hl, hh, fits, inside, result⟩ | ⟨hl, -, fits, -, -, notLast, result⟩ |
      ⟨-, -, -, -, -, -, result⟩ | ⟨-, -, -, -, -, result⟩ | ⟨-, -, -, -, -, result⟩ :=
    s.processPulse_cases lo hi rfl rfl rfl rfl <;> rw [result]
  · exact decoderInv_zero
  · exact decoderInv_zero
  · exact s.accumulate_keeps_decoderInv
      ((h.lowStored hl fits).decoderInv_inside (by omega) (by omega) (by omega))
  · exact s.accumulate_keeps_decoderInv ((h.lowStored hl fits).decoderInv_next rfl (by omega))
  · exact decoderInv_zero
  · exact decoderInv_zero
  · rw [State.completeFrame_acc, State.completeFrame_bitOffset]
    exact decoderInv_zero

theorem StepEffect.keeps_decoderInv {s t : State} (effect : StepEffect s t)
    (h : DecoderInv s.acc s.bitOffset.toNat) : DecoderInv t.acc t.bitOffset.toNat := by
  cases effect with
  | high dt =>
    exact State.processPulse_keeps_decoderInv (s := s.endStrobe.setPendingLow 0#16) s.pendingLow dt h
  | reset => exact decoderInv_zero
  | release d => cases d <;> exact h
  | _ => exact h

/-! ## The ring's canonical form and the read cursor (R27, R28) -/

theorem StepEffect.keeps_ring_wf {s t : State} (effect : StepEffect s t) (h : s.ring.wf = true) :
    t.ring.wf = true := by
  cases effect with
  | push e _ valid => exact wf_ringWrite e valid h
  | high => simpa using h
  | reset ring held cut =>
    obtain same | ⟨i, hi, e, cutWrite⟩ := cut
    · exact same ▸ h
    · exact cutWrite ▸ wf_ringWrite e hi h
  | release d => cases d <;> exact h
  | _ => exact h

theorem State.advanceRead_cursorInv (s : State) : CursorInv s.advanceRead := ⟨cursorNext_lt s.rd, rfl⟩

theorem StepEffect.keeps_cursorInv {s t : State} (effect : StepEffect s t) (h : CursorInv s) : CursorInv t := by
  cases effect with
  | low => exact State.advanceRead_cursorInv _
  | high => exact State.advanceRead_cursorInv _
  | skip => exact State.advanceRead_cursorInv _
  | reset => exact ⟨show (0 : Cursor).toNat < 300 by decide, cursorEncode_zero.symm⟩
  | release d => cases d <;> exact { h with }
  | _ => exact { h with }

/-! ## The histories and the views (R38, R91, R92) -/

theorem consecutive_singleton (g : Code) : Consecutive [g] := by
  intro k old new _ new_at
  simp at new_at

/-- A read history ending at a valid cursor's code may go on with the next cursor's (R107). -/
theorem Consecutive.append_next {h : List Code} {v : Cursor} (steps : Consecutive h)
    (last : h.getLast? = some (cursorEncode v)) (valid : v.toNat < 300) :
    Consecutive (h ++ [cursorEncode (cursorNext v)]) := by
  intro k old new old_at new_at
  rcases Nat.lt_or_ge (k + 1) h.length with inside | atEnd
  · rw [List.getElem?_append_left (by omega)] at old_at new_at
    exact steps k old new old_at new_at
  · have bound : k + 1 < (h ++ [cursorEncode (cursorNext v)]).length := (List.getElem?_eq_some_iff.mp new_at).1
    have atLast : k + 1 = h.length := by simp at bound; omega
    refine ⟨v, valid, ?_, ?_⟩
    · rw [List.getElem?_append_left (by omega), show k = h.length - 1 by omega, ← List.getLast?_eq_getElem?,
        last] at old_at
      exact (Option.some.inj old_at).symm
    · rw [atLast, List.getElem?_concat_length] at new_at
      exact (Option.some.inj new_at).symm

/-- A sample of a history of consecutive cursors is an element of it: a mixture of two codes that differ in one bit is
one of them (R75, R92). -/
theorem Consecutive.sample_mem {h : List Code} {j k : Nat} {choice : SyncChoice} {g : Code} (steps : Consecutive h)
    (sampled : sample h j choice = some (g, k)) : g ∈ h := by
  obtain ⟨-, -, settled | ⟨after, old, new, m, -, old_at, new_at, rfl⟩⟩ := sample_some sampled
  · exact List.mem_of_getElem? settled
  · have new_at' : h[k - 1 + 1]? = some new := by rwa [Nat.sub_add_cancel (by omega)]
    obtain ⟨v, valid, rfl, rfl⟩ := steps (k - 1) old new old_at new_at'
    obtain ⟨b, oneBit⟩ := cursorEncode_next_one_bit valid
    obtain isOld | isNew := mixCodes_of_one_bit oneBit m
    · rw [isOld]; exact List.mem_of_getElem? old_at
    · rw [isNew]; exact List.mem_of_getElem? new_at

theorem State.setWg_keeps_historyInv {s : State} (g : Code) (h : HistoryInv s) : HistoryInv (s.setWg g) :=
  { h with
    hw_first := by simp [h.hw_first]
    hw_last := List.getLast?_concat
    ws_view := h.ws_view.append [g] }

theorem State.advanceRead_keeps_historyInv {s : State} (cursor : CursorInv s) (h : HistoryInv s) :
    HistoryInv s.advanceRead :=
  { h with
    hr_first := by simp [h.hr_first]
    hr_last := List.getLast?_concat
    hr_steps := h.hr_steps.append_next (cursor.rg_code ▸ h.hr_last) cursor.rd_valid
    rs_view := h.rs_view.append _
    rs_held := List.mem_append_left _ h.rs_held }

theorem State.processPulse_keeps_cursorInv {s : State} (lo hi : Half) (h : CursorInv s) :
    CursorInv (s.processPulse lo hi) :=
  ⟨by simpa using h.rd_valid, by simpa using h.rg_code⟩

theorem State.processPulse_keeps_historyInv {s : State} (lo hi : Half) (h : HistoryInv s) :
    HistoryInv (s.processPulse lo hi) := by
  obtain ⟨hw_first, hw_last, ws_view, hr_first, hr_last, hr_steps, rs_view, rs_held⟩ := h
  constructor <;> simpa

theorem StepEffect.keeps_historyInv {s t : State} (effect : StepEffect s t) (cursor : CursorInv s)
    (h : HistoryInv s) : HistoryInv t := by
  cases effect with
  | push e => exact State.setWg_keeps_historyInv (s := { s with ring := _ }) _ { h with }
  | setWr v => exact State.setWg_keeps_historyInv _ h
  | writeView choice g k _ sampled => exact { h with ws_view := viewOf_sample sampled }
  | readView choice g k _ sampled =>
    exact { h with rs_view := viewOf_sample sampled, rs_held := h.hr_steps.sample_mem sampled }
  | low dt =>
    exact State.advanceRead_keeps_historyInv (s := s.endStrobe.setPendingLow dt) { cursor with } { h with }
  | high dt =>
    exact State.advanceRead_keeps_historyInv
      (State.processPulse_keeps_cursorInv (s := s.endStrobe.setPendingLow 0#16) s.pendingLow dt { cursor with })
      (State.processPulse_keeps_historyInv (s := s.endStrobe.setPendingLow 0#16) s.pendingLow dt { h with })
  | skip => exact State.advanceRead_keeps_historyInv (s := s.endStrobe) { cursor with } { h with }
  | reset => exact ⟨rfl, rfl, .inl rfl, rfl, rfl, consecutive_singleton _, .inl rfl, List.mem_singleton_self _⟩
  | release d => cases d <;> exact { h with }
  | _ => exact { h with }

/-! ## The frame outputs (R32, R33) -/

theorem State.emit_outputInv (s : State) (f : Frame) : OutputInv (s.emit f) :=
  ⟨by rw [State.emit_frames, List.getLast?_concat]; rfl, fun _ => List.append_ne_nil_of_right_ne_nil _ (by simp)⟩

theorem State.endStrobe_keeps_outputInv {s : State} (h : OutputInv s) : OutputInv s.endStrobe :=
  { h with strobe := fun up => by cases up }

theorem State.applyPulse_keeps_outputInv {s : State} (r : PulseResult) (h : OutputInv s) :
    OutputInv (s.applyPulse r) := by
  cases r with
  | accumulate acc n => exact { h with }
  | violation cause => exact { h with }
  | complete acc =>
    show OutputInv (s.completeFrame acc)
    obtain ⟨f, -, emitted⟩ | ⟨word, check, -, discarded⟩ := s.completeFrame_cases acc
    · rw [emitted]; exact { s.emit_outputInv f with }
    · rw [discarded]; exact { h with }

theorem StepEffect.keeps_outputInv {s t : State} (effect : StepEffect s t) (h : OutputInv s) : OutputInv t := by
  cases effect with
  | hold => exact State.endStrobe_keeps_outputInv h
  | low => exact { State.endStrobe_keeps_outputInv h with }
  | skip => exact { State.endStrobe_keeps_outputInv h with }
  | high dt =>
    have before : OutputInv (s.endStrobe.setPendingLow 0#16) := { State.endStrobe_keeps_outputInv h with }
    exact { State.applyPulse_keeps_outputInv (pulse s.acc s.bitOffset.toNat s.pendingLow dt) before with }
  | reset => exact ⟨rfl, fun up => by cases up⟩
  | release d => cases d <;> exact { h with }
  | _ => exact { h with }

/-! ## A domain held in reset (R153, R154, R159) -/

/-- An agent's step changes no register of the other domain, and the agents of a domain held in reset take none. -/
theorem StepEffect.keeps_heldInv {s t : State} (effect : StepEffect s t) (h : HeldInv s) : HeldInv t := by
  have outOfReset {held : Bool} {P : Prop} (up : held = false) : held = true → P :=
    fun down => by cases up.symm.trans down
  cases effect with
  | push e up => exact { h with producer := outOfReset up }
  | setWr v up => exact { h with producer := outOfReset up }
  | readView choice g k up => exact { h with producer := outOfReset up }
  | writeView choice g k up => exact { h with consumer := outOfReset up }
  | hold up => exact { h with consumer := outOfReset up }
  | low dt up => exact { h with consumer := outOfReset up }
  | high dt up => exact ⟨by simpa using h.producer, outOfReset (by simpa using up)⟩
  | skip up => exact { h with consumer := outOfReset up }
  | reset => exact ⟨fun _ => ⟨rfl, rfl, rfl, rfl⟩, fun _ => ⟨rfl, rfl, rfl, rfl, rfl, rfl, rfl, rfl, rfl, rfl, rfl⟩⟩
  | release d =>
    cases d with
    | producer => exact { h with producer := outOfReset rfl }
    | consumer => exact { h with consumer := outOfReset rfl }
  | _ => exact { h with }

/-! ## All the invariants -/

theorem Inv.withInputs {s : State} (h : Inv s) (schedule : List Event) (draws : Nat) :
    Inv (s.withInputs schedule draws) :=
  { h with
    cursor := { h.cursor with }
    history := { h.history with }
    output := { h.output with }
    held := { h.held with } }

theorem StepEffect.keeps_inv {s t : State} (effect : StepEffect s t) (h : Inv s) : Inv t where
  ring_wf := effect.keeps_ring_wf h.ring_wf
  cursor := effect.keeps_cursorInv h.cursor
  history := effect.keeps_historyInv h.cursor h.history
  decoder := effect.keeps_decoderInv h.decoder
  output := effect.keeps_outputInv h.output
  held := effect.keeps_heldInv h.held

/-- Settles O53: every effect a step can have keeps each of the invariants. -/
theorem stepKeepsInvariants : Obligations.StepKeepsInvariants := by
  intro s t inv taken
  obtain ⟨schedule, draws, effect⟩ := step_effect taken
  exact effect.keeps_inv (inv.withInputs schedule draws)

/-! ## States that differ only in the frame outputs and the ghost log (R36, R38) -/

/-- The second state is the first with other frame outputs and another ghost log. -/
def State.SameButOutputs (s u : State) : Prop :=
  ∃ (frameOut : Frame) (frameValid : Bool) (frames : List Frame) (causes : List Cause),
    u = { s with frameOut := frameOut, frameValid := frameValid, frames := frames, causes := causes }

/-- The same line of the schedule is come to, in states that differ only in the outputs. -/
inductive Fetched.SameButOutputs : Fetched → Fetched → Prop
  | run (i : Instr) {s u : State} (same : s.SameButOutputs u) : SameButOutputs (.run i s) (.run i u)
  | done {s u : State} (same : s.SameButOutputs u) : SameButOutputs (.done s) (.done u)
  | refuse (r : Refusal) : SameButOutputs (.refuse r) (.refuse r)

namespace State.SameButOutputs

variable {s u : State}

theorem rstP_eq (same : s.SameButOutputs u) : u.rstP = s.rstP := by obtain ⟨_, _, _, _, rfl⟩ := same; rfl
theorem rstC_eq (same : s.SameButOutputs u) : u.rstC = s.rstC := by obtain ⟨_, _, _, _, rfl⟩ := same; rfl
theorem schedule_eq (same : s.SameButOutputs u) : u.schedule = s.schedule := by
  obtain ⟨_, _, _, _, rfl⟩ := same; rfl

theorem withSchedule (same : s.SameButOutputs u) (schedule : List Event) :
    (s.withSchedule schedule).SameButOutputs (u.withSchedule schedule) := by
  obtain ⟨_, _, _, _, rfl⟩ := same
  exact ⟨_, _, _, _, rfl⟩

theorem advanceRead (same : s.SameButOutputs u) : s.advanceRead.SameButOutputs u.advanceRead := by
  obtain ⟨_, _, _, _, rfl⟩ := same
  exact ⟨_, _, _, _, rfl⟩

theorem completeFrame (same : s.SameButOutputs u) (acc : Acc) :
    (s.completeFrame acc).SameButOutputs (u.completeFrame acc) := by
  obtain ⟨_, _, _, _, rfl⟩ := same
  unfold State.completeFrame
  cases validate acc <;> exact ⟨_, _, _, _, rfl⟩

theorem applyPulse (same : s.SameButOutputs u) (r : PulseResult) :
    (s.applyPulse r).SameButOutputs (u.applyPulse r) := by
  cases r with
  | complete acc => exact same.completeFrame acc
  | accumulate acc n => obtain ⟨_, _, _, _, rfl⟩ := same; exact ⟨_, _, _, _, rfl⟩
  | violation cause => obtain ⟨_, _, _, _, rfl⟩ := same; exact ⟨_, _, _, _, rfl⟩

theorem sampleWrite (same : s.SameButOutputs u) (choice : SyncChoice) :
    Option.Rel State.SameButOutputs (s.sampleWrite choice) (u.sampleWrite choice) := by
  obtain ⟨_, _, _, _, rfl⟩ := same
  unfold State.sampleWrite
  cases sample s.hw s.jw choice with
  | none => exact .none
  | some taken => exact .some ⟨_, _, _, _, rfl⟩

theorem sampleRead (same : s.SameButOutputs u) (choice : SyncChoice) :
    Option.Rel State.SameButOutputs (s.sampleRead choice) (u.sampleRead choice) := by
  obtain ⟨_, _, _, _, rfl⟩ := same
  unfold State.sampleRead
  cases sample s.hr s.jr choice with
  | none => exact .none
  | some taken => exact .some ⟨_, _, _, _, rfl⟩

theorem withResetFlags (same : s.SameButOutputs u) (rstP rstC : Bool) :
    ({ s with rstP := rstP, rstC := rstC } : State).SameButOutputs { u with rstP := rstP, rstC := rstC } := by
  obtain ⟨_, _, _, _, rfl⟩ := same
  exact ⟨_, _, _, _, rfl⟩

theorem releaseReset (same : s.SameButOutputs u) (d : Domain) :
    (s.releaseReset d).SameButOutputs (u.releaseReset d) := by
  obtain ⟨_, _, _, _, rfl⟩ := same
  cases d <;> exact ⟨_, _, _, _, rfl⟩

theorem cutIndex (same : s.SameButOutputs u) (port : Command) : u.cutIndex port = s.cutIndex port := by
  obtain ⟨_, _, _, _, rfl⟩ := same
  rfl

theorem riseReset (same : s.SameButOutputs u) (port : Command) :
    (s.riseReset port).SameButOutputs (u.riseReset port) := by
  unfold State.riseReset
  rw [same.cutIndex port]
  obtain ⟨_, _, _, _, rfl⟩ := same
  cases s.cutIndex port <;> exact ⟨_, _, _, _, rfl⟩

/-- No meaning reads the outputs. -/
theorem exec {i : Instr} {t : State} (same : s.SameButOutputs u) (taken : Machine.exec i s = .next t) :
    ∃ t', Machine.exec i u = .next t' ∧ t.SameButOutputs t' := by
  cases i with
  | pNop data => cases taken; exact ⟨u, rfl, same⟩
  | pPush pin dt =>
    obtain ⟨_, _, _, _, rfl⟩ := same
    rcases Nat.lt_or_ge s.writeCursor.toNat 300 with valid | corrupt
    · rw [exec_pPush_valid pin dt valid] at taken
      cases taken
      exact ⟨_, exec_pPush_valid pin dt valid, _, _, _, _, rfl⟩
    · rw [exec_pPush_corrupt pin dt corrupt] at taken
      cases taken
      exact ⟨_, exec_pPush_corrupt pin dt corrupt, _, _, _, _, rfl⟩
  | pSetWr ignored v =>
    obtain ⟨_, _, _, _, rfl⟩ := same
    simp only [Machine.exec, execPSetWr] at taken ⊢
    split at taken <;> cases taken
    · next unchanged => exact ⟨_, if_pos unchanged, _, _, _, _, rfl⟩
    · next changed => exact ⟨_, if_neg changed, _, _, _, _, rfl⟩
  | pReserved data => cases taken
  | eLow dt => cases taken; obtain ⟨_, _, _, _, rfl⟩ := same; exact ⟨_, rfl, _, _, _, _, rfl⟩
  | eHigh dt =>
    cases taken
    refine ⟨_, rfl, advanceRead ?_⟩
    obtain ⟨_, _, _, _, rfl⟩ := same
    exact applyPulse ⟨_, _, _, _, rfl⟩ (pulse s.acc s.bitOffset.toNat s.pendingLow dt)
  | eSkip ignored pin => cases taken; obtain ⟨_, _, _, _, rfl⟩ := same; exact ⟨_, rfl, _, _, _, _, rfl⟩

/-- The consumer's checks and its read do not read the outputs. -/
theorem consumerEdge (same : s.SameButOutputs u) : s.consumerEdge.SameButOutputs u.consumerEdge := by
  obtain ⟨_, _, _, _, rfl⟩ := same
  by_cases ready : s.holdReason = none
  · by_cases race : s.writeCursor = s.rd
    · rw [State.consumerEdge_lapping ready race, State.consumerEdge_lapping (by exact ready) (by exact race)]
      exact .run _ ⟨_, _, _, _, rfl⟩
    · rw [State.consumerEdge_ready ready race, State.consumerEdge_ready (by exact ready) (by exact race)]
      exact .run _ ⟨_, _, _, _, rfl⟩
  · rw [State.consumerEdge_held ready, State.consumerEdge_held (by exact ready)]
    exact .done ⟨_, _, _, _, rfl⟩

/-- No agent's step reads the outputs. -/
theorem takeEvent (same : s.SameButOutputs u) (event : Event) :
    (s.takeEvent event).SameButOutputs (u.takeEvent event) := by
  cases event with
  | p command =>
    simp only [State.takeEvent, same.rstP_eq]
    split
    · exact .done same
    · exact .run _ same
  | sw choice =>
    simp only [State.takeEvent, same.rstC_eq]
    split
    · exact .done same
    · have sampled := same.sampleWrite choice
      generalize s.sampleWrite choice = a, u.sampleWrite choice = b at sampled ⊢
      cases sampled with
      | none => exact .refuse _
      | some same => exact .done same
  | sr choice =>
    simp only [State.takeEvent, same.rstP_eq]
    split
    · exact .done same
    · have sampled := same.sampleRead choice
      generalize s.sampleRead choice = a, u.sampleRead choice = b at sampled ⊢
      cases sampled with
      | none => exact .refuse _
      | some same => exact .done same
  | c =>
    simp only [State.takeEvent, same.rstC_eq]
    split
    · exact .done same
    · exact same.consumerEdge
  | drain =>
    simp only [State.takeEvent, same.rstC_eq]
    split
    · exact .done same
    · have edge := same.consumerEdge
      generalize s.consumerEdge = a, u.consumerEdge = b at edge ⊢
      cases edge with
      | run i same => exact .run i (same.schedule_eq ▸ same.withSchedule _)
      | done same => exact .done same
      | refuse r => exact .refuse r
  | reset port => exact .done ((same.riseReset port).withResetFlags false false)
  | rstRise port => exact .done ((same.riseReset port).withResetFlags true true)
  | rstRelease d => exact .done (same.releaseReset d)
  | resetOne d => exact .refuse _

/-- The schedule is no output. -/
theorem fetch (same : s.SameButOutputs u) : s.fetch.SameButOutputs u.fetch := by
  unfold State.fetch
  rw [same.schedule_eq]
  cases s.schedule with
  | nil => exact .done same
  | cons event rest => exact (same.withSchedule rest).takeEvent event

/-- States that differ only in the outputs take steps to states that differ only there. -/
theorem step {t : State} (same : s.SameButOutputs u) (taken : Machine.step s = .next t) :
    ∃ t', Machine.step u = .next t' ∧ t.SameButOutputs t' := by
  have fetched := same.fetch
  unfold Machine.step at taken ⊢
  generalize s.fetch = a, u.fetch = b at fetched taken ⊢
  cases fetched with
  | run i same => exact same.exec taken
  | done same => cases taken; exact ⟨_, rfl, same⟩
  | refuse r => cases taken

end State.SameButOutputs

/-- Settles O52: whatever the outputs hold, the step is the same but for them. -/
theorem outputsAreNeverReadBack : Obligations.OutputsAreNeverReadBack := by
  intro s t frameOut frameValid frames causes taken
  have same : s.SameButOutputs
      { s with frameOut := frameOut, frameValid := frameValid, frames := frames, causes := causes } :=
    ⟨frameOut, frameValid, frames, causes, rfl⟩
  obtain ⟨_, other, frameOut', frameValid', frames', causes', rfl⟩ := same.step taken
  exact ⟨frameOut', frameValid', frames', causes', other⟩

/-! ## The `wc_invalid` output (R34) -/

theorem State.wcInvalid_iff (s : State) :
    s.wcInvalid = true ↔ s.rd ≠ s.wcSeen ∧ (300 ≤ s.wcSeen.toNat ∨ 300 ≤ s.rd.toNat) := by
  simp [State.wcInvalid, cursorValid, Config.capacity]

theorem State.holdReason_cursorInvalid_iff (s : State) :
    s.holdReason = some .cursorInvalid ↔ s.rd ≠ s.wcSeen ∧ (300 ≤ s.wcSeen.toNat ∨ 300 ≤ s.rd.toNat) := by
  unfold State.holdReason
  by_cases empty : s.rd = s.wcSeen
  · simp [empty]
  · rw [if_neg empty]
    by_cases valid : (cursorValid s.wcSeen && cursorValid s.rd) = true
    · rw [if_pos valid]
      rw [Bool.and_eq_true, cursorValid_iff, cursorValid_iff] at valid
      exact ⟨fun h => (by cases h), fun h => absurd h.2 (by omega)⟩
    · rw [if_neg valid]
      rw [Bool.and_eq_true, cursorValid_iff, cursorValid_iff] at valid
      exact ⟨fun _ => ⟨empty, by omega⟩, fun _ => rfl⟩

/-- Settles O32: the output and the hold reason are the same two comparisons. -/
theorem wcInvalidShowsCursorHold : Obligations.WcInvalidShowsCursorHold := by
  intro s
  exact ⟨s.wcInvalid_iff, s.wcInvalid_iff.trans s.holdReason_cursorInvalid_iff.symm⟩

end Sys2Proof.Machine

/-! The statements of `20_memory.md`: the ring in the byte view, the one writer of each shared field, and the ring as a
queue. -/

namespace Sys2Proof.Machine

/-! ## One line of the schedule -/

theorem step_command {s : State} {w : Command} {rest : List Event} (scheduled : s.schedule = .p w :: rest)
    (up : s.rstP = false) : step s = exec (decodeCommand w) (s.withSchedule rest) := by
  rw [step_of_schedule scheduled, State.takeEvent_p (s := s.withSchedule rest) w up]

theorem step_command_lost {s : State} {w : Command} {rest : List Event} (scheduled : s.schedule = .p w :: rest)
    (down : s.rstP = true) : step s = .next (s.withSchedule rest) := by
  have lost : (s.withSchedule rest).takeEvent (.p w) = .done (s.withSchedule rest) := if_pos down
  rw [step_of_schedule scheduled, lost]

/-- An `SW` line is a step of no agent, while its domain is held in reset, or a sample (R89, R90, R156). -/
theorem step_writeSample {s t : State} {choice : SyncChoice} {rest : List Event}
    (scheduled : s.schedule = .sw choice :: rest) (taken : step s = .next t) :
    t = s.withSchedule rest ∨
      ∃ g k, sample s.hw s.jw choice = some (g, k) ∧ t = (s.withSchedule rest).setWriteView g k := by
  rw [step_of_schedule scheduled] at taken
  simp only [State.takeEvent] at taken
  by_cases down : (s.withSchedule rest).rstC = true
  · rw [if_pos down] at taken
    cases taken
    exact .inl rfl
  · rw [if_neg down] at taken
    cases sampled : (s.withSchedule rest).sampleWrite choice with
    | none => rw [sampled] at taken; cases taken
    | some u =>
      rw [sampled] at taken
      cases taken
      exact .inr (State.sampleWrite_some sampled)

/-- An `SR` line is a step of no agent, while its domain is held in reset, or a sample (R92, R156). -/
theorem step_readSample {s t : State} {choice : SyncChoice} {rest : List Event}
    (scheduled : s.schedule = .sr choice :: rest) (taken : step s = .next t) :
    t = s.withSchedule rest ∨
      ∃ g k, sample s.hr s.jr choice = some (g, k) ∧ t = (s.withSchedule rest).setReadView g k := by
  rw [step_of_schedule scheduled] at taken
  simp only [State.takeEvent] at taken
  by_cases down : (s.withSchedule rest).rstP = true
  · rw [if_pos down] at taken
    cases taken
    exact .inl rfl
  · rw [if_neg down] at taken
    cases sampled : (s.withSchedule rest).sampleRead choice with
    | none => rw [sampled] at taken; cases taken
    | some u =>
      rw [sampled] at taken
      cases taken
      exact .inr (State.sampleRead_some sampled)

theorem step_consumer_hold {s : State} {rest : List Event} (scheduled : s.schedule = .c :: rest)
    (up : s.rstC = false) (held : s.holdReason ≠ none) : step s = .next (s.withSchedule rest).endStrobe := by
  have edge : (s.withSchedule rest).takeEvent .c = .done (s.withSchedule rest).endStrobe :=
    (State.takeEvent_c (s := s.withSchedule rest) up).trans (State.consumerEdge_held held)
  rw [step_of_schedule scheduled, edge]

theorem step_drain_ready {s : State} {rest : List Event} (scheduled : s.schedule = .drain :: rest)
    (up : s.rstC = false) (ready : s.holdReason = none) (apart : s.writeCursor ≠ s.rd) :
    step s = exec (decodeEntry (ringRead s.ring s.rd.toNat)) s := by
  have edge : (s.withSchedule rest).takeEvent .drain =
      .run (decodeEntry (ringRead s.ring s.rd.toNat)) (s.withSchedule (.drain :: rest)) :=
    State.takeEvent_drain_run (s := s.withSchedule rest) up
      (State.consumerEdge_ready (s := s.withSchedule rest) ready apart)
  rw [step_of_schedule scheduled, edge, ← scheduled]
  rfl

theorem step_drain_hold {s : State} {rest : List Event} (scheduled : s.schedule = .drain :: rest)
    (up : s.rstC = false) (held : s.holdReason ≠ none) : step s = .next (s.withSchedule rest).endStrobe := by
  have edge : (s.withSchedule rest).takeEvent .drain = .done (s.withSchedule rest).endStrobe :=
    State.takeEvent_drain_done (s := s.withSchedule rest) up (State.consumerEdge_held held)
  rw [step_of_schedule scheduled, edge]

theorem step_writeSample_taken {s : State} {choice : SyncChoice} {rest : List Event} {g : Code} {k : Nat}
    (scheduled : s.schedule = .sw choice :: rest) (up : s.rstC = false)
    (sampled : sample s.hw s.jw choice = some (g, k)) :
    step s = .next ((s.withSchedule rest).setWriteView g k) := by
  rw [step_of_schedule scheduled, State.takeEvent_sw (s := s.withSchedule rest) up sampled]

/-- One more step before a run. -/
theorem core_run_succ {s t : State} (n : Nat) (first : step s = .next t) :
    Host.Core.run core (n + 1) s = Host.Core.run core n t := by
  have first : core.step s = .next t := first
  simp only [Host.Core.run, first]

/-- A consumer edge holds, or runs an entry in the same state but for the draw it may have taken (R97, R103). -/
theorem State.consumerEdge_cases (s : State) :
    s.consumerEdge = .done s.endStrobe ∨
      ∃ e draws, s.consumerEdge = .run (decodeEntry e) { s with draws := draws } := by
  by_cases ready : s.holdReason = none
  · by_cases race : s.writeCursor = s.rd
    · exact .inr ⟨_, _, State.consumerEdge_lapping ready race⟩
    · exact .inr ⟨_, s.draws, State.consumerEdge_ready ready race⟩
  · exact .inl (State.consumerEdge_held ready)

/-- A line of the consumer's edges is a step of no agent, while its domain is held in reset, a hold, or an entry's
meaning. -/
theorem step_consumer_cases {s t : State} {event : Event} {rest : List Event} (scheduled : s.schedule = event :: rest)
    (edge : event = .c ∨ event = .drain) (taken : step s = .next t) :
    t = s.withSchedule rest ∨ t = (s.withSchedule rest).endStrobe ∨
      ∃ e schedule draws, exec (decodeEntry e) (s.withInputs schedule draws) = .next t := by
  rw [step_of_schedule scheduled] at taken
  cases down : s.rstC with
  | true =>
    have lost : (s.withSchedule rest).takeEvent event = .done (s.withSchedule rest) := by
      obtain rfl | rfl := edge <;> exact if_pos down
    rw [lost] at taken
    cases taken
    exact .inl rfl
  | false =>
    obtain held | ⟨e, draws, run⟩ := (s.withSchedule rest).consumerEdge_cases
    · have done : (s.withSchedule rest).takeEvent event = .done (s.withSchedule rest).endStrobe := by
        obtain rfl | rfl := edge
        · exact (State.takeEvent_c (s := s.withSchedule rest) down).trans held
        · exact State.takeEvent_drain_done (s := s.withSchedule rest) down held
      rw [done] at taken
      cases taken
      exact .inr (.inl rfl)
    · refine .inr (.inr ?_)
      obtain rfl | rfl := edge
      · rw [State.takeEvent_c (s := s.withSchedule rest) down, run] at taken
        exact ⟨e, rest, draws, taken⟩
      · rw [State.takeEvent_drain_run (s := s.withSchedule rest) down run] at taken
        exact ⟨e, .drain :: rest, draws, taken⟩

/-! ## A push of a whole entry -/

theorem decodeCommand_push (e : Entry) : decodeCommand (commandWord 1 e) = .pPush (entryPin e) (entryDt e) := by
  have fields := decodeCommand_commandWord_push (entryPin e) (entryDt e)
  rwa [entryWord_fields] at fields

theorem exec_push_entry {s : State} (e : Entry) (valid : s.writeCursor.toNat < 300) :
    exec (.pPush (entryPin e) (entryDt e)) s = .next (s.push s.writeCursor e) := by
  rw [exec_pPush_valid _ _ valid, entryWord_fields]

/-! ## The ring as a queue (R51 to R53) -/

theorem RingQueue.writeCursor_eq {s : State} {q : List Entry} (h : RingQueue s q) :
    s.writeCursor = cursorAt (s.rd.toNat + q.length) := by
  rw [State.writeCursor, h.write, cursorDecode_cursorEncode]

theorem RingQueue.writeCursor_lt {s : State} {q : List Entry} (h : RingQueue s q) : s.writeCursor.toNat < 300 := by
  rw [h.writeCursor_eq, cursorAt_toNat]
  exact Nat.mod_lt _ (by decide)

theorem RingQueue.withSchedule {s : State} {q : List Entry} (h : RingQueue s q) (schedule : List Event) :
    RingQueue (s.withSchedule schedule) q := { h with }

theorem State.push_lag {s : State} (w : Cursor) (e : Entry) (viewIn : s.jw < s.hw.length) :
    (s.push w e).lag = s.lag + 1 := by
  simp only [State.lag, State.push_hw, State.push_jw, List.length_append, List.length_singleton]
  omega

/-- A push appends its entry, while the queue stays shorter than the ring (R51, R80). -/
theorem RingQueue.push {s : State} {q : List Entry} (h : RingQueue s q) (room : q.length < 299) (e : Entry) :
    RingQueue (s.push s.writeCursor e) (q ++ [e]) := by
  have viewIn := h.view_in
  have lagLe := h.lag_le
  have lag := State.push_lag s.writeCursor e viewIn
  have cursor : s.writeCursor.toNat = (s.rd.toNat + q.length) % 300 := by rw [h.writeCursor_eq, cursorAt_toNat]
  have next : cursorNext s.writeCursor = cursorAt (s.rd.toNat + q.length + 1) := by
    rw [h.writeCursor_eq, cursorNext_cursorAt]
  have length : (q ++ [e]).length = q.length + 1 := List.length_append
  refine
    { short := by rw [length]; exact Nat.succ_lt_succ room
      rd_valid := h.rd_valid
      write := by rw [State.push_wg, next, length]; rfl
      entries := fun i x at_i => ?_
      view_in := by rw [State.push_jw, State.push_hw, List.length_append]; omega
      lag_le := by rw [lag, length]; omega
      history := fun i hi => ?_
      seen := ?_ }
  · rw [State.push_ring, State.push_rd]
    rcases Nat.lt_or_ge i q.length with old | atEnd
    · rw [List.getElem?_append_left old] at at_i
      have apart : (s.rd.toNat + i) % 300 ≠ s.writeCursor.toNat := by omega
      rw [ringRead_ringWrite_other _ _ apart]
      exact h.entries i x at_i
    · have inside : i < (q ++ [e]).length := (List.getElem?_eq_some_iff.mp at_i).1
      have last : i = q.length := by omega
      subst last
      rw [List.getElem?_concat_length] at at_i
      cases at_i
      have here : (s.rd.toNat + q.length) % Config.capacity = s.writeCursor.toNat := cursor.symm
      rw [here, ringRead_ringWrite_same]
  · rw [State.push_hw, State.push_rd, List.length_append, List.length_singleton, next, length]
    cases i with
    | zero => exact List.getElem?_concat_length
    | succ i =>
      have older : s.hw.length + 1 - 1 - (i + 1) = s.hw.length - 1 - i := by omega
      have older' : s.rd.toNat + (q.length + 1) - (i + 1) = s.rd.toNat + q.length - i := by omega
      rw [older, older', List.getElem?_append_left (by omega)]
      exact h.history i (by omega)
  · have older : s.rd.toNat + (q.length + 1) - (s.lag + 1) = s.rd.toNat + q.length - s.lag := by omega
    rw [lag, length, State.push_rd, older]
    exact h.seen.imp id fun ⟨behind, view⟩ => ⟨Nat.succ_lt_succ behind, view⟩

/-- A mixture of the codes of consecutive cursors is one of them (R75, R91). -/
theorem mixCodes_cursorAt (n : Nat) (m : Code) :
    mixCodes (cursorEncode (cursorAt n)) (cursorEncode (cursorAt (n + 1))) m = cursorEncode (cursorAt n) ∨
      mixCodes (cursorEncode (cursorAt n)) (cursorEncode (cursorAt (n + 1))) m = cursorEncode (cursorAt (n + 1)) := by
  have valid : (cursorAt n).toNat < 300 := by
    rw [cursorAt_toNat]
    exact Nat.mod_lt _ (by decide)
  obtain ⟨b, oneBit⟩ := cursorEncode_next_one_bit valid
  rw [cursorNext_cursorAt] at oneBit
  exact mixCodes_of_one_bit oneBit m

/-- A sample of the queue's history is the cursor it takes or, in the aperture, the one before it (R75, R91). -/
theorem RingQueue.sample_cursor {s : State} {q : List Entry} {choice : SyncChoice} {g : Code} {k : Nat}
    (h : RingQueue s q) (sampled : sample s.hw s.jw choice = some (g, k)) :
    g = cursorEncode (cursorAt (s.rd.toNat + q.length - (s.hw.length - 1 - k))) ∨
      (s.hw.length - 1 - k < q.length ∧
        g = cursorEncode (cursorAt (s.rd.toNat + q.length - (s.hw.length - 1 - k) - 1))) := by
  obtain ⟨from_j, inside, taken⟩ := sample_some sampled
  have lagLe := h.lag_le
  have lagEq : s.lag = s.hw.length - 1 - s.jw := rfl
  have at_k := h.history (s.hw.length - 1 - k) (by omega)
  rw [show s.hw.length - 1 - (s.hw.length - 1 - k) = k by omega] at at_k
  obtain settled | ⟨after, old, new, m, -, old_at, new_at, rfl⟩ := taken
  · exact .inl (Option.some.inj (settled.symm.trans at_k))
  · obtain ⟨n, pushes⟩ : ∃ n, s.rd.toNat + q.length - (s.hw.length - 1 - k) = n + 1 :=
      ⟨_, (Nat.sub_add_cancel (by omega)).symm⟩
    have at_before := h.history (s.hw.length - 1 - (k - 1)) (by omega)
    rw [show s.hw.length - 1 - (s.hw.length - 1 - (k - 1)) = k - 1 by omega, old_at,
      show s.rd.toNat + q.length - (s.hw.length - 1 - (k - 1)) = n by omega] at at_before
    rw [new_at, pushes] at at_k
    cases at_before
    cases at_k
    rw [pushes]
    exact (mixCodes_cursorAt n m).symm.imp id fun isOld => ⟨by omega, isOld⟩

/-- A sample takes no entry from the queue and adds none: only the view moves on (R52). -/
theorem RingQueue.sampleWrite {s : State} {q : List Entry} {choice : SyncChoice} {g : Code} {k : Nat}
    (h : RingQueue s q) (sampled : sample s.hw s.jw choice = some (g, k)) : RingQueue (s.setWriteView g k) q := by
  obtain ⟨from_j, inside, -⟩ := sample_some sampled
  have lagLe : (s.setWriteView g k).lag ≤ s.lag := Nat.sub_le_sub_left from_j _
  exact
    { h with
      view_in := inside
      lag_le := Nat.le_trans lagLe h.lag_le
      history := fun i hi => h.history i (Nat.le_trans hi lagLe)
      seen := by
        obtain rfl | ⟨behind, rfl⟩ := h.sample_cursor sampled
        · exact .inl (cursorDecode_cursorEncode _)
        · exact .inr ⟨behind, cursorDecode_cursorEncode _⟩ }

theorem RingQueue.sampleRead {s : State} {q : List Entry} (h : RingQueue s q) (g : Code) (k : Nat) :
    RingQueue (s.setReadView g k) q := { h with }

theorem RingQueue.endStrobe {s : State} {q : List Entry} (h : RingQueue s q) : RingQueue s.endStrobe q := { h with }

/-- A consumer edge that does not hold runs the oldest entry and leaves the rest, and the write side as it was (R53). -/
theorem RingQueue.exec_oldest {s : State} {q : List Entry} (h : RingQueue s q) (ready : s.holdReason = none) :
    ∃ e q' t, q = e :: q' ∧ ringRead s.ring s.rd.toNat = e ∧ s.writeCursor ≠ s.rd ∧
      exec (decodeEntry e) s = .next t ∧ RingQueue t q' ∧
      t.wg = s.wg ∧ t.ws = s.ws ∧ t.rstC = s.rstC ∧ t.schedule = s.schedule := by
  obtain ⟨t, run, rd, -, -, wg, ring, jw, hw, ws, rstC, schedule, -⟩ :=
    exec_entry_cursors (ringRead s.ring s.rd.toNat) s
  obtain ⟨e, q', rfl, oldest, apart, queue⟩ := h.pop ready rd wg ring jw hw ws
  exact ⟨e, q', t, rfl, oldest, apart, oldest ▸ run, queue, wg, ws, rstC, schedule⟩

/-- Settles O43: each line of the schedule that R53 allows does to the ring what it would do to a queue. -/
theorem ringIsQueue : Obligations.RingIsQueue := by
  intro s t q rest h taken
  refine ⟨fun data scheduled => ?_, fun e scheduled up room => ?_, fun choice scheduled => ?_, fun scheduled up => ?_⟩
  · cases down : s.rstP with
    | true =>
      rw [step_command_lost scheduled down] at taken
      cases taken
      exact h.withSchedule rest
    | false =>
      have nop : decodeCommand ((0 : BitVec 2) ++ data) = .pNop data := decodeCommand_commandWord_nop data
      rw [step_command scheduled down, nop] at taken
      cases taken
      exact h.withSchedule rest
  · have command : decodeCommand ((1 : BitVec 2) ++ e) = .pPush (entryPin e) (entryDt e) := decodeCommand_push e
    rw [step_command scheduled up, command, exec_push_entry e (h.withSchedule rest).writeCursor_lt] at taken
    cases taken
    exact (h.withSchedule rest).push room e
  · obtain scheduled | scheduled := scheduled
    · obtain rfl | ⟨g, k, sampled, rfl⟩ := step_writeSample scheduled taken
      · exact h.withSchedule rest
      · exact (h.withSchedule rest).sampleWrite sampled
    · obtain rfl | ⟨g, k, -, rfl⟩ := step_readSample scheduled taken
      · exact h.withSchedule rest
      · exact (h.withSchedule rest).sampleRead g k
  · obtain ready | held := h.ready_or_empty
    · obtain ⟨e, q', t', rfl, oldest, apart, run, queue, -⟩ := (h.withSchedule rest).exec_oldest ready
      rw [step_consumer_ready scheduled up ready apart] at taken
      cases oldest
      cases run.symm.trans taken
      exact .inl ⟨ready, _, q', rfl, run, queue⟩
    · rw [step_consumer_hold scheduled up (by rw [held]; exact Option.some_ne_none _)] at taken
      cases taken
      exact .inr ⟨held, (h.withSchedule rest).endStrobe⟩

/-! ## A drain (R53, R94, R109) -/

theorem RingQueue.last_sample {s : State} {q : List Entry} (h : RingQueue s q) :
    sample s.hw s.jw .latest = some (s.wg, s.hw.length - 1) := by
  have viewIn := h.view_in
  have last : s.hw[s.hw.length - 1]? = some s.wg := (h.history 0 (Nat.zero_le _)).trans (congrArg some h.write.symm)
  rw [sample, if_pos (by omega), last]
  rfl

/-- A consumer that sees the producer's own cursor holds exactly when the queue is empty. -/
theorem RingQueue.holdReason_none_iff_of_latest {s : State} {q : List Entry} (h : RingQueue s q)
    (latest : s.ws = s.wg) : s.holdReason = none ↔ q ≠ [] := by
  have short : q.length < 300 := h.short
  have valid : s.rd.toNat < 300 := h.rd_valid
  have seen : s.wcSeen = s.writeCursor := congrArg cursorDecode latest
  have read : s.rd = s.wcSeen ↔ q.length = 0 := by
    rw [seen, h.writeCursor_eq, ← BitVec.toNat_inj, cursorAt_toNat]
    omega
  rw [State.holdReason_none_iff, ne_eq, ne_eq, read, List.length_eq_zero_iff, seen]
  exact and_iff_left ⟨h.writeCursor_lt, valid⟩

theorem RingQueue.empty_cursors {s : State} (h : RingQueue s []) : s.rd = s.writeCursor :=
  (h.writeCursor_eq.trans (cursorAt_self h.rd_valid)).symm

/-- A drain from a view of the producer's own cursor runs the queued entries in order and then holds. -/
theorem RingQueue.drain {s : State} {q : List Entry} {rest : List Event} (h : RingQueue s q) (up : s.rstC = false)
    (latest : s.ws = s.wg) (scheduled : s.schedule = .drain :: rest) :
    ∃ t : State, execAll (q.map decodeEntry) (s.withSchedule rest) = .next t ∧
      Host.Core.run core (q.length + 1) s = .next t.endStrobe ∧ RingQueue t [] := by
  induction q generalizing s with
  | nil =>
    have held : s.holdReason ≠ none := fun ready => (h.holdReason_none_iff_of_latest latest).mp ready rfl
    exact ⟨_, rfl, core_run_succ 0 (step_drain_hold scheduled up held), h.withSchedule rest⟩
  | cons e q' ih =>
    have ready := (h.holdReason_none_iff_of_latest latest).mpr (List.cons_ne_nil e q')
    obtain ⟨_, _, u, oldestFirst, oldest, apart, run, queue, wg, ws, rstC, schedule⟩ := h.exec_oldest ready
    cases oldestFirst
    obtain ⟨t, others, steps, empty⟩ :=
      ih queue (rstC.trans up) (ws.trans (latest.trans wg.symm)) (schedule.trans scheduled)
    have first : step s = .next u := by rw [step_drain_ready scheduled up ready apart, oldest, run]
    refine ⟨t, ?_, (core_run_succ _ first).trans steps, empty⟩
    rw [List.map_cons, execAll, exec_entry_withSchedule rest run]
    exact others

/-- Settles O44: the sample shows the producer's own cursor, and the drain goes through the queue. -/
theorem drainRunsQueueInOrder : Obligations.DrainRunsQueueInOrder := by
  intro s q rest h up scheduled
  have sampled := h.last_sample
  have first := step_writeSample_taken scheduled up sampled
  have queue : RingQueue ((s.withSchedule (.drain :: rest)).setWriteView s.wg (s.hw.length - 1)) q :=
    (h.withSchedule _).sampleWrite sampled
  obtain ⟨t, all, steps, empty⟩ := queue.drain up rfl rfl
  exact ⟨t, all, (core_run_succ _ first).trans steps, empty.empty_cursors, empty⟩

/-! ## A lap of the ring (R57) -/

/-- `E(D(g)) = g` (R74). -/
theorem cursorEncode_cursorDecode (g : Code) : cursorEncode (cursorDecode g) = g := by
  have inverse : Function.LeftInverse cursorDecode cursorEncode := cursorDecode_cursorEncode
  exact inverse.rightInverse_of_surjective (Finite.injective_iff_surjective.mp inverse.injective) g

/-- The state after pushing entries one after the other. -/
def State.pushAll (s : State) (entries : List Entry) : State :=
  entries.foldl (fun u e => u.push u.writeCursor e) s

theorem State.writeCursor_push (s : State) (w : Cursor) (e : Entry) : (s.push w e).writeCursor = cursorNext w := by
  rw [State.writeCursor, State.push_wg, cursorDecode_cursorEncode]

theorem execAll_pushes (entries : List Entry) (s : State) (valid : s.writeCursor.toNat < 300) :
    execAll (entries.map fun e => .pPush (entryPin e) (entryDt e)) s = .next (s.pushAll entries) := by
  induction entries generalizing s with
  | nil => rfl
  | cons e rest ih =>
    rw [List.map_cons, execAll, exec_push_entry e valid]
    exact ih _ (by rw [State.writeCursor_push]; exact cursorNext_lt _)

theorem State.pushAll_rd (s : State) (entries : List Entry) : (s.pushAll entries).rd = s.rd := by
  induction entries generalizing s with
  | nil => rfl
  | cons e rest ih => exact ih _

theorem State.pushAll_ws (s : State) (entries : List Entry) : (s.pushAll entries).ws = s.ws := by
  induction entries generalizing s with
  | nil => rfl
  | cons e rest ih => exact ih _

/-- Each push moves the write cursor on by one (R80). -/
theorem State.writeCursor_push_cursorAt {s : State} {n : Nat} (cursor : s.writeCursor = cursorAt n) (e : Entry) :
    (s.push s.writeCursor e).writeCursor = cursorAt (n + 1) := by
  rw [State.writeCursor_push, cursor, cursorNext_cursorAt]

theorem State.pushAll_writeCursor {s : State} {n : Nat} (entries : List Entry) (cursor : s.writeCursor = cursorAt n) :
    (s.pushAll entries).writeCursor = cursorAt (n + entries.length) := by
  induction entries generalizing s n with
  | nil => exact cursor
  | cons e rest ih =>
    rw [List.length_cons, Nat.add_comm rest.length, ← Nat.add_assoc]
    exact ih (State.writeCursor_push_cursorAt cursor e)

theorem State.ringRead_pushAll_other {s : State} {n j : Nat} (entries : List Entry)
    (cursor : s.writeCursor = cursorAt n) (other : ∀ i < entries.length, j ≠ (n + i) % 300) :
    ringRead (s.pushAll entries).ring j = ringRead s.ring j := by
  induction entries generalizing s n with
  | nil => rfl
  | cons e rest ih =>
    have here : j ≠ s.writeCursor.toNat := by
      rw [cursor, cursorAt_toNat]
      exact other 0 (Nat.zero_lt_succ _)
    have later : ∀ i < rest.length, j ≠ (n + 1 + i) % 300 := fun i hi => by
      rw [Nat.add_right_comm]
      exact other (i + 1) (Nat.succ_lt_succ hi)
    exact (ih (State.writeCursor_push_cursorAt cursor e) later).trans (ringRead_ringWrite_other _ _ here)

/-- At most a lap of pushes leaves each entry at its place: none replaces an earlier one of them. -/
theorem State.ringRead_pushAll {s : State} {n i : Nat} {entries : List Entry} {e : Entry}
    (cursor : s.writeCursor = cursorAt n) (lap : entries.length ≤ 300) (at_i : entries[i]? = some e) :
    ringRead (s.pushAll entries).ring ((n + i) % 300) = e := by
  induction entries generalizing s n i with
  | nil => cases at_i
  | cons x rest ih =>
    have lap : rest.length + 1 ≤ 300 := lap
    have moved := State.writeCursor_push_cursorAt cursor x
    cases i with
    | zero =>
      cases at_i
      have kept : ringRead ((s.push s.writeCursor e).pushAll rest).ring (n % 300) =
          ringRead (s.push s.writeCursor e).ring (n % 300) :=
        State.ringRead_pushAll_other rest moved fun i hi => by omega
      have here : s.writeCursor.toNat = n % 300 := by rw [cursor, cursorAt_toNat]
      refine kept.trans ?_
      rw [State.push_ring, here, ringRead_ringWrite_same]
    | succ i =>
      have later := ih moved (by omega) at_i
      rwa [show n + 1 + i = n + (i + 1) by omega] at later

/-- Settles O45: the pushes go round the ring, each to its own entry, and end at the cursor where they began. -/
theorem fullLapIsInvisible : Obligations.FullLapIsInvisible := by
  intro s entries lap valid
  have cursor : s.writeCursor = cursorAt s.writeCursor.toNat := (cursorAt_self valid).symm
  have round : (s.pushAll entries).writeCursor = s.writeCursor := by
    rw [State.pushAll_writeCursor entries cursor, lap]
    exact (cursorAt_congr (Nat.add_mod_right _ _)).trans cursor.symm
  have wg : (s.pushAll entries).wg = s.wg := by
    rw [← cursorEncode_cursorDecode (s.pushAll entries).wg, ← cursorEncode_cursorDecode s.wg]
    exact congrArg cursorEncode round
  exact ⟨s.pushAll entries, execAll_pushes entries s valid, wg, s.pushAll_rd entries, s.pushAll_ws entries,
    State.holdReason_congr (s.pushAll_rd entries) (s.pushAll_ws entries),
    fun i e at_i => State.ringRead_pushAll cursor (Nat.le_of_eq lap) at_i⟩

/-! ## The writer of each shared field (R50) -/

/-- The fields that R50 gives to `P`. -/
def State.producerFields (s : State) : Memory × Code := (s.ring, s.wg)

/-- The fields that R50 gives to `C`. -/
def State.consumerFields (s : State) : Cursor × Code × Half × Acc × BitVec 9 × Frame × Bool :=
  (s.rd, s.rg, s.pendingLow, s.acc, s.bitOffset, s.frameOut, s.frameValid)

theorem exec_pSetWr_same {s : State} {v : Cursor} (ignored : BitVec 23) (unchanged : cursorEncode v = s.wg) :
    exec (.pSetWr ignored v) s = .next s := if_pos unchanged

theorem exec_pSetWr_other {s : State} {v : Cursor} (ignored : BitVec 23) (changed : cursorEncode v ≠ s.wg) :
    exec (.pSetWr ignored v) s = .next (s.setWg (cursorEncode v)) := if_neg changed

theorem exec_command_keeps_consumerFields {w : Command} {s t : State} (run : exec (decodeCommand w) s = .next t) :
    t.consumerFields = s.consumerFields := by
  obtain ⟨data, hd⟩ | ⟨pin, dt, hd⟩ | ⟨ignored, v, hd⟩ | ⟨data, hd⟩ := decodeCommand_cases w <;> rw [hd] at run
  · cases run; rfl
  · rcases Nat.lt_or_ge s.writeCursor.toNat 300 with valid | corrupt
    · rw [exec_pPush_valid pin dt valid] at run; cases run; rfl
    · rw [exec_pPush_corrupt pin dt corrupt] at run; cases run; rfl
  · by_cases unchanged : cursorEncode v = s.wg
    · rw [exec_pSetWr_same ignored unchanged] at run; cases run; rfl
    · rw [exec_pSetWr_other ignored unchanged] at run; cases run; rfl
  · cases run

theorem exec_entry_keeps_producerFields {e : Entry} {s t : State} (run : exec (decodeEntry e) s = .next t) :
    t.producerFields = s.producerFields := by
  obtain ⟨u, run', -, -, -, wg, ring, -⟩ := exec_entry_cursors e s
  cases run.symm.trans run'
  exact Prod.ext ring wg

theorem step_consumer_keeps {s t : State} {event : Event} {rest : List Event} (scheduled : s.schedule = event :: rest)
    (edge : event = .c ∨ event = .drain) (taken : step s = .next t) :
    t.producerFields = s.producerFields ∧ t.ws = s.ws ∧ t.rs = s.rs := by
  obtain rfl | rfl | ⟨e, schedule, draws, run⟩ := step_consumer_cases scheduled edge taken
  · exact ⟨rfl, rfl, rfl⟩
  · exact ⟨rfl, rfl, rfl⟩
  · obtain ⟨ws, -, rs, -⟩ := exec_keeps_views run
    exact ⟨exec_entry_keeps_producerFields (s := s.withInputs schedule draws) run, ws, rs⟩

theorem step_command_keeps {s t : State} {w : Command} {rest : List Event} (scheduled : s.schedule = .p w :: rest)
    (taken : step s = .next t) : t.consumerFields = s.consumerFields ∧ t.ws = s.ws ∧ t.rs = s.rs := by
  cases down : s.rstP with
  | true =>
    rw [step_command_lost scheduled down] at taken
    cases taken
    exact ⟨rfl, rfl, rfl⟩
  | false =>
    rw [step_command scheduled down] at taken
    obtain ⟨ws, -, rs, -⟩ := exec_keeps_views taken
    exact ⟨exec_command_keeps_consumerFields (s := s.withSchedule rest) taken, ws, rs⟩

/-- In a step that is no reset, each of the four groups of fields is as before or its agent's line was taken. -/
theorem step_keeps_or_writer {s t : State} (taken : step s = .next t)
    (noReset : ∀ port rest, s.schedule ≠ .reset port :: rest ∧ s.schedule ≠ .rstRise port :: rest) :
    (t.producerFields = s.producerFields ∨ ∃ w rest, s.schedule = .p w :: rest) ∧
    (t.consumerFields = s.consumerFields ∨ ∃ rest, s.schedule = .c :: rest ∨ s.schedule = .drain :: rest) ∧
    (t.ws = s.ws ∨ ∃ choice rest, s.schedule = .sw choice :: rest) ∧
    (t.rs = s.rs ∨ ∃ choice rest, s.schedule = .sr choice :: rest) := by
  cases scheduled : s.schedule with
  | nil =>
    simp only [step, State.fetch, scheduled] at taken
    cases taken
    exact ⟨.inl rfl, .inl rfl, .inl rfl, .inl rfl⟩
  | cons event rest =>
    cases event with
    | p w =>
      obtain ⟨consumer, ws, rs⟩ := step_command_keeps scheduled taken
      exact ⟨.inr ⟨w, rest, rfl⟩, .inl consumer, .inl ws, .inl rs⟩
    | c =>
      obtain ⟨producer, ws, rs⟩ := step_consumer_keeps scheduled (.inl rfl) taken
      exact ⟨.inl producer, .inr ⟨rest, .inl rfl⟩, .inl ws, .inl rs⟩
    | drain =>
      obtain ⟨producer, ws, rs⟩ := step_consumer_keeps scheduled (.inr rfl) taken
      exact ⟨.inl producer, .inr ⟨rest, .inr rfl⟩, .inl ws, .inl rs⟩
    | sw choice =>
      obtain rfl | ⟨g, k, -, rfl⟩ := step_writeSample scheduled taken <;>
        exact ⟨.inl rfl, .inl rfl, .inr ⟨choice, rest, rfl⟩, .inl rfl⟩
    | sr choice =>
      obtain rfl | ⟨g, k, -, rfl⟩ := step_readSample scheduled taken <;>
        exact ⟨.inl rfl, .inl rfl, .inl rfl, .inr ⟨choice, rest, rfl⟩⟩
    | reset port => exact absurd scheduled (noReset port rest).1
    | rstRise port => exact absurd scheduled (noReset port rest).2
    | rstRelease d =>
      rw [step_of_schedule scheduled] at taken
      cases d <;> (cases taken; exact ⟨.inl rfl, .inl rfl, .inl rfl, .inl rfl⟩)
    | resetOne d =>
      rw [step_of_schedule scheduled] at taken
      cases taken

/-- Settles O51: a field that changed belongs to the agent whose line was taken. -/
theorem singleWriterPerField : Obligations.SingleWriterPerField := by
  intro s t taken noReset
  obtain ⟨producer, consumer, ws, rs⟩ := step_keeps_or_writer taken noReset
  refine ⟨fun changed => producer.resolve_left fun same => ?_, fun changed => consumer.resolve_left fun same => ?_,
    ws.resolve_left, rs.resolve_left⟩
  · simp only [State.producerFields, Prod.mk.injEq] at same
    simp [same] at changed
  · simp only [State.consumerFields, Prod.mk.injEq] at same
    simp [same] at changed

/-! ## The ring's bytes (R44, R46) -/

theorem readByte_ringWrite_byte (m : Memory) (i : Nat) (e : Entry) {b : Nat} (hb : b < 4) :
    (ringWrite m i e).readByte (4 * i + b) = entryByte e b := by
  obtain ⟨byte0, byte1, byte2, byte3⟩ := readByte_ringWrite_same m i e
  match b, hb with
  | 0, _ => exact byte0
  | 1, _ => exact byte1
  | 2, _ => exact byte2
  | 3, _ => exact byte3

theorem platformByte_inside (m : Memory) {a : Nat} (inside : a < 1200) :
    platformByte m (Config.ringBase + a) = some (m.readByte a) := by
  have mapped : Config.ringBase ≤ Config.ringBase + a ∧ Config.ringBase + a < Config.ringBase + ringBytes :=
    ⟨Nat.le_add_right _ _, Nat.add_lt_add_left inside _⟩
  rw [platformByte, if_pos mapped, Nat.add_sub_cancel_left]

theorem platformByte_outside (m : Memory) {a : Nat} (outside : a < Config.ringBase ∨ Config.ringBase + 1200 ≤ a) :
    platformByte m a = none := by
  have unmapped : ¬ (Config.ringBase ≤ a ∧ a < Config.ringBase + 1200) := by omega
  exact if_neg unmapped

/-- Settles O55: a byte of the ring is the byte of the entry that was written over it. -/
theorem byteViewIsLittleEndian : Obligations.ByteViewIsLittleEndian := by
  refine ⟨Nat.mul_mod_right 4 Config.ringBaseWord, fun m i e b hi hb => ?_, fun m a => platformByte_outside m⟩
  rw [Nat.add_assoc, platformByte_inside _ (by omega), readByte_ringWrite_byte m i e hb]
  rfl

end Sys2Proof.Machine

/-! The statements of `30_encoding.md`: the encoded words and their bytes, the frame bus and the cursor code. -/

namespace Sys2Proof

/-! ## Words of given fields, in every row of the opcode table (R59 to R66) -/

/-- Every command word is `{op, data}` (R59). -/
theorem exists_commandWord (w : Command) : ∃ op data, w = commandWord op data :=
  ⟨commandOp w, commandData w, (commandWord_fields w).symm⟩

/-- The four command codes (R60). -/
theorem commandCode_cases : ∀ op : BitVec 2, op = 0 ∨ op = 1 ∨ op = 2 ∨ op = 3 := by decide

theorem decodeCommand_commandWord_setWr (ignored : BitVec 23) (v : Cursor) :
    decodeCommand (commandWord 2 (ignored ++ v)) = .pSetWr ignored v := by
  have ignoredField := extractLsb'_append_high ignored v
  have cursorField := extractLsb'_append_low ignored v
  simp [decodeCommand, ignoredField, cursorField]

/-- `data` of `P_PUSH`, taken apart (R61). -/
theorem decodeCommand_push_fields (data : BitVec 32) :
    decodeCommand (commandWord 1 data) = .pPush (entryPin data) (entryDt data) := by
  simpa using decodeCommand_commandWord_push (entryPin data) (entryDt data)

/-- `data` of `P_SET_WR`, taken apart (R62). -/
theorem decodeCommand_setWr_fields (data : BitVec 32) :
    decodeCommand (commandWord 2 data) = .pSetWr (data.extractLsb' 9 23) (data.extractLsb' 0 9) := by
  have apart := append_extractLsb' (m := 23) (n := 9) data
  simpa only [apart] using decodeCommand_commandWord_setWr (data.extractLsb' 9 23) (data.extractLsb' 0 9)

theorem decodeEntry_skip {pin : Half} (dt : Half) (notLow : pin ≠ 1) (notHigh : pin ≠ 0) :
    decodeEntry (entryWord pin dt) = .eSkip dt pin := by
  rw [decodeEntry, entryPin_entryWord, entryDt_entryWord, if_neg notLow, if_neg notHigh]

theorem isSkipPin_iff (pin : Half) : isSkipPin pin = true ↔ pin ≠ 0 ∧ pin ≠ 1 := by
  simp [isSkipPin]

/-- Settles O2: a command word is its code and its data, and each of the four codes has its row. -/
theorem commandCodeSelectsRow : Obligations.CommandCodeSelectsRow :=
  ⟨exists_commandWord, fun data => ⟨decodeCommand_commandWord_nop data, decodeCommand_push_fields data,
    decodeCommand_setWr_fields data, decodeCommand_commandWord_reserved data⟩⟩

/-- Settles O3: the three classes are the two exact values of `pin_value` and everything else. -/
theorem entryClassByWholePin : Obligations.EntryClassByWholePin := by
  intro pin dt
  refine ⟨?_, ?_, decodeEntry_skip dt⟩
  · rintro rfl
    exact decodeEntry_low dt
  · rintro rfl
    exact decodeEntry_high dt

/-! ## Decode and encode are inverse (R64, R70) -/

theorem decode_encode {i : Instr} (wf : i.wellFormed = true) : decode (encode i) = i := by
  cases i with
  | pNop data => exact decodeCommand_commandWord_nop data
  | pPush pin dt => exact decodeCommand_commandWord_push pin dt
  | pSetWr ignored v => exact decodeCommand_commandWord_setWr ignored v
  | pReserved data => exact decodeCommand_commandWord_reserved data
  | eLow dt => exact decodeEntry_low dt
  | eHigh dt => exact decodeEntry_high dt
  | eSkip ignored pin =>
    obtain ⟨notHigh, notLow⟩ := (isSkipPin_iff pin).mp wf
    exact decodeEntry_skip ignored notLow notHigh

/-- Each command word is the word of an instruction of its row (R60 to R63). -/
theorem exists_encode_command (w : Command) : ∃ i : Instr, i.wellFormed = true ∧ encode i = .pcmd w := by
  obtain ⟨op, data, rfl⟩ := exists_commandWord w
  obtain rfl | rfl | rfl | rfl := commandCode_cases op
  · exact ⟨.pNop data, rfl, rfl⟩
  · exact ⟨.pPush (entryPin data) (entryDt data), rfl, by rw [encode, entryWord_fields]⟩
  · exact ⟨.pSetWr (data.extractLsb' 9 23) (data.extractLsb' 0 9), rfl, by
      rw [encode, append_extractLsb' (m := 23) (n := 9) data]⟩
  · exact ⟨.pReserved data, rfl, rfl⟩

/-- Each ring entry is the word of an instruction of its class (R66). -/
theorem exists_encode_entry (e : Entry) : ∃ i : Instr, i.wellFormed = true ∧ encode i = .entry e := by
  rw [← entryWord_fields e]
  generalize entryPin e = pin, entryDt e = dt
  obtain rfl | notLow := eq_or_ne pin 1
  · exact ⟨.eLow dt, rfl, rfl⟩
  obtain rfl | notHigh := eq_or_ne pin 0
  · exact ⟨.eHigh dt, rfl, rfl⟩
  · exact ⟨.eSkip dt pin, (isSkipPin_iff pin).mpr ⟨notHigh, notLow⟩, rfl⟩

/-- Every word of either format is the word of a well-formed instruction (R70). -/
theorem exists_encode (w : EncodedWord) : ∃ i : Instr, i.wellFormed = true ∧ encode i = w := by
  cases w with
  | pcmd w => exact exists_encode_command w
  | entry e => exact exists_encode_entry e

/-- The bytes of an instruction hold its word (R58, log entry 12). -/
theorem takeWord_encode (i : Instr) (rest : List Byte) :
    takeWord i.format ((encode i).bytes ++ rest) = .ok (encode i, rest) := by
  cases i with
  | pNop | pPush | pSetWr | pReserved => exact takeWord_pcmd _ rest
  | eLow | eHigh | eSkip => exact takeWord_entry _ rest

theorem decodeBytes_encode {i : Instr} (wf : i.wellFormed = true) (rest : List Byte) :
    decodeBytes i.format ((encode i).bytes ++ rest) = .ok (i, rest) := by
  simp only [decodeBytes, takeWord_encode, decode_encode wf]

/-- Settles O1: `decode` undoes `encode`, on words and on bytes, and since every word is the word of some well-formed
instruction, `encode` undoes `decode` too. -/
theorem decodeEncodeRoundTrip : Obligations.DecodeEncodeRoundTrip := by
  refine ⟨fun i rest wf => ⟨decode_encode wf, decodeBytes_encode wf rest⟩, fun w => ?_⟩
  obtain ⟨i, wf, rfl⟩ := exists_encode w
  rw [decode_encode wf]
  exact ⟨wf, rfl⟩

/-! ## The frame bus (R68) -/

/-- Bit `8 i + k` of the number that some bytes spell is bit `k` of byte `i`. -/
theorem testBit_natOfBytes {bs : List Byte} {i k : Nat} (hi : i < bs.length) (hk : k < 8) :
    (natOfBytes bs).testBit (8 * i + k) = bs[i].getLsbD k := by
  induction bs generalizing i with
  | nil => exact absurd hi (Nat.not_lt_zero i)
  | cons b bs ih =>
    have headLow : natOfBytes (b :: bs) = 2 ^ 8 * natOfBytes bs + b.toNat := Nat.add_comm _ _
    rw [headLow, Nat.testBit_two_pow_mul_add _ b.isLt]
    cases i with
    | zero => simp [hk, BitVec.getLsbD]
    | succ i =>
      have later : 8 * (i + 1) + k - 8 = 8 * i + k := by omega
      rw [if_neg (by omega), later]
      exact ih (Nat.lt_of_succ_lt_succ hi)

/-- Settles O26: the bus is the number that the 25 bytes spell, which has bit `8 i + k` below bit 200. -/
theorem frameBusCarriesBytes : Obligations.FrameBusCarriesBytes := by
  intro f i hi k hk
  have onBus : 8 * i + k < 200 := by omega
  have byteBit := testBit_natOfBytes (bs := f.toList) (i := i) (by simpa using hi) hk
  rw [Machine.frameBus, BitVec.getLsbD_ofNat, byteBit]
  simp [onBus]

end Sys2Proof

namespace Sys2Proof.Machine

/-! ## The cursor code (R72 to R76) -/

/-- `D(g) = (ungray(g) + 406) mod 512` (R74). -/
theorem cursorDecode_toNat (g : Code) : (cursorDecode g).toNat = ((ungray g).toNat + 406) % 512 := by
  rw [cursorDecode, BitVec.toNat_sub, Nat.add_comm]
  rfl

theorem cursorDecode_injective {g h : Code} (same : cursorDecode g = cursorDecode h) : g = h := by
  simpa only [cursorEncode_cursorDecode] using congrArg cursorEncode same

/-- The cursor value that the code `n` decodes to, as a number. -/
def decodedValue (n : Nat) : Nat := (cursorDecode (BitVec.ofNat 9 n)).toNat

theorem decodedValue_lt (n : Nat) : decodedValue n < 512 := (cursorDecode _).isLt

theorem decodedValue_inj {m n : Nat} (hm : m < 512) (hn : n < 512) (same : decodedValue m = decodedValue n) :
    m = n := by
  have codes := congrArg BitVec.toNat (cursorDecode_injective (BitVec.eq_of_toNat_eq same))
  simpa [Nat.mod_eq_of_lt hm, Nat.mod_eq_of_lt hn] using codes

/-- The codes 0 to 511 decode to the cursor values 0 to 511, each once. -/
theorem map_decodedValue_perm : ((List.range 512).map decodedValue).Perm (List.range 512) := by
  have distinct : ((List.range 512).map decodedValue).Nodup :=
    List.nodup_range.map_on fun m hm n hn => decodedValue_inj (List.mem_range.mp hm) (List.mem_range.mp hn)
  have inside : (List.range 512).map decodedValue ⊆ List.range 512 := by
    intro c hc
    obtain ⟨n, -, rfl⟩ := List.mem_map.mp hc
    exact List.mem_range.mpr (decodedValue_lt n)
  exact (List.subperm_of_subset distinct inside).perm_of_length_le (by simp)

/-- 212 codes decode to no valid cursor (R76): as many as there are 9-bit values from 300 on. -/
theorem countP_decodedValue_invalid : ((List.range 512).countP fun n => decide (300 ≤ decodedValue n)) = 212 := by
  have moved := map_decodedValue_perm.countP_eq fun c => decide (300 ≤ c)
  rw [List.countP_map] at moved
  exact moved.trans (by decide +kernel)

/-- Settles O35: `E` and `D` are inverse, so as many codes are invalid as 9-bit values are no valid cursor. -/
theorem cursorCodeIsBijective : Obligations.CursorCodeIsBijective :=
  ⟨cursorDecode_toNat, cursorDecode_cursorEncode, cursorEncode_cursorDecode, by decide, countP_decodedValue_invalid⟩

theorem cursorNext_ne_self (v : Cursor) : v ≠ cursorNext v := by
  intro same
  have values := congrArg BitVec.toNat same
  rw [cursorNext_toNat] at values
  omega

/-- Settles O36: the codes differ by at most one bit, and they differ, since the cursors do. -/
theorem cursorIncrementChangesOneBit : Obligations.CursorIncrementChangesOneBit := by
  intro v valid
  obtain ⟨k, oneBit⟩ := cursorEncode_next_one_bit valid
  refine ⟨k, ?_, oneBit⟩
  by_contra beyond
  have noBit : BitVec.twoPow 9 k = 0 := BitVec.shiftLeft_eq_zero (by omega)
  have equal : cursorEncode v = cursorEncode (cursorNext v) := BitVec.xor_eq_zero_iff.mp (oneBit.trans noBit)
  exact cursorNext_ne_self v (cursorEncode_injective equal)

end Sys2Proof.Machine

/-! The statements of `40_producer.md`: the instruction that each agent's edge runs, the meanings of the producer
commands, the producer's estimate, and the lines that are lost while a domain is held in reset. -/

namespace Sys2Proof.Machine

/-! ## The step runs the decoded instruction (R78, R97, R103) -/

/-- A line whose agent runs an instruction. -/
theorem step_of_run {s t : State} {event : Event} {rest : List Event} {i : Instr}
    (scheduled : s.schedule = event :: rest) (run : (s.withSchedule rest).takeEvent event = .run i t) :
    step s = exec i t := by
  rw [step_of_schedule scheduled, run]

/-- A line whose agent runs no instruction. -/
theorem step_of_done {s t : State} {event : Event} {rest : List Event} (scheduled : s.schedule = event :: rest)
    (done : (s.withSchedule rest).takeEvent event = .done t) : step s = .next t := by
  rw [step_of_schedule scheduled, done]

/-- In the lapping race a consumer edge runs a draw, which is counted (R103). -/
theorem step_consumer_lapping {s : State} {rest : List Event} (scheduled : s.schedule = .c :: rest)
    (up : s.rstC = false) (ready : s.holdReason = none) (race : s.writeCursor = s.rd) :
    step s = exec (decodeEntry s.drawn) (s.withSchedule rest).afterDraw :=
  step_of_run scheduled ((State.takeEvent_c (s := s.withSchedule rest) up).trans
    (State.consumerEdge_lapping (s := s.withSchedule rest) ready race))

/-- In the lapping race a drain runs a draw and stays scheduled (R103, R109). -/
theorem step_drain_lapping {s : State} {rest : List Event} (scheduled : s.schedule = .drain :: rest)
    (up : s.rstC = false) (ready : s.holdReason = none) (race : s.writeCursor = s.rd) :
    step s = exec (decodeEntry s.drawn) s.afterDraw := by
  have edge := State.takeEvent_drain_run (s := s.withSchedule rest) up
    (State.consumerEdge_lapping (s := s.withSchedule rest) ready race)
  rw [step_of_run scheduled edge, State.afterDraw_schedule, State.withSchedule_schedule, ← scheduled]
  rfl

/-- Settles O5: a command is run from the port, and an edge or a drain runs the ring's entry or, in the race, a draw. -/
theorem stepRunsDecodedInstruction : Obligations.StepRunsDecodedInstruction := by
  intro s rest
  refine ⟨fun w scheduled up => step_command scheduled up, fun scheduled up ready => ⟨?_, ?_⟩,
    fun scheduled up ready => ⟨?_, ?_⟩⟩
  · exact step_consumer_ready scheduled up ready
  · exact step_consumer_lapping scheduled up ready
  · exact step_drain_ready scheduled up ready
  · exact step_drain_lapping scheduled up ready

/-! ## A placed word (log entry 8) -/

/-- A table word that fits its row is laid out whole. -/
theorem tableBytes_of_fits {nbits w : Nat} (fits : w < 2 ^ nbits) :
    tableBytes nbits w = bytesOfNat (tableFormat nbits).byteCount w ++ [] := by
  rw [tableBytes, Nat.mod_eq_of_lt fits, List.append_nil]

theorem withFetchWord_command (s : State) (w : Command) : s.withFetchWord 40 w.toNat = s.placeCommand w := by
  have fits : w.toNat < 2 ^ 40 := Nat.lt_trans w.isLt (by decide)
  have taken : takeWord (tableFormat 40) (tableBytes 40 w.toNat) = .ok (.pcmd w, []) := by
    rw [tableBytes_of_fits fits]
    exact takeWord_pcmd w []
  rw [State.withFetchWord, taken]

theorem withFetchWord_entry (s : State) (e : Entry) : s.withFetchWord 32 e.toNat = s.placeEntry e := by
  have taken : takeWord (tableFormat 32) (tableBytes 32 e.toNat) = .ok (.entry e, []) := by
    rw [tableBytes_of_fits e.isLt]
    exact takeWord_entry e []
  rw [State.withFetchWord, taken]

/-- Where `placeEntry` puts the entry: at the read cursor, or at 0 where that is corrupt. -/
def State.placedCursor (s : State) : Cursor := if cursorValid s.rd then s.rd else 0

theorem State.placedCursor_of_valid {s : State} (valid : s.rd.toNat < 300) : s.placedCursor = s.rd :=
  if_pos ((cursorValid_iff s.rd).mpr valid)

theorem State.placedCursor_lt (s : State) : s.placedCursor.toNat < 300 := by
  rcases Nat.lt_or_ge s.rd.toNat 300 with valid | corrupt
  · rwa [State.placedCursor_of_valid valid]
  · have invalid : ¬ cursorValid s.rd = true := by rw [cursorValid_iff]; omega
    rw [State.placedCursor, if_neg invalid]
    decide

theorem State.placeWg_eq (s : State) (g : Code) : ∃ hw, s.placeWg g = { s with wg := g, hw := hw } := by
  by_cases same : s.wg = g
  · exact ⟨s.hw, by rw [State.placeWg, if_pos same, ← same]⟩
  · exact ⟨s.hw ++ [g], if_neg same⟩

/-- Placing an entry changes the ring at the entry's place, the cursors with the write history and the consumer's view,
the consumer domain's reset flag and the schedule; nothing else. -/
theorem State.placeEntry_eq (s : State) (e : Entry) :
    ∃ hw jw, s.placeEntry e =
      { s with
        ring := ringWrite s.ring s.placedCursor.toNat e
        rd := s.placedCursor
        rg := cursorEncode s.placedCursor
        wg := cursorEncode (cursorNext s.placedCursor)
        hw := hw
        ws := cursorEncode (cursorNext s.placedCursor)
        jw := jw
        rstC := false
        schedule := .c :: s.schedule } := by
  obtain ⟨hw, placed⟩ := State.placeWg_eq
    { s with
      ring := ringWrite s.ring s.placedCursor.toNat e
      rd := s.placedCursor
      rg := cursorEncode s.placedCursor }
    (cursorEncode (cursorNext s.placedCursor))
  refine ⟨hw, hw.length - 1, ?_⟩
  rw [State.placedCursor] at placed ⊢
  simp only [State.placeEntry, placed]

/-- The next step of a state with an entry placed in it: the cursors are apart, and the ring holds the entry at `rd`. -/
theorem step_placeEntry (s : State) (e : Entry) :
    step (s.placeEntry e) = exec (decodeEntry e) ((s.placeEntry e).withSchedule s.schedule) := by
  obtain ⟨hw, jw, placed⟩ := s.placeEntry_eq e
  generalize s.placeEntry e = u at placed
  have seen : u.wcSeen = cursorNext s.placedCursor := by rw [placed]; exact cursorDecode_cursorEncode _
  have written : u.writeCursor = cursorNext s.placedCursor := by rw [placed]; exact cursorDecode_cursorEncode _
  have rd : u.rd = s.placedCursor := by rw [placed]
  have ready : u.holdReason = none := by
    rw [State.holdReason_none_iff, seen, rd]
    exact ⟨cursorNext_ne_self _, cursorNext_lt _, s.placedCursor_lt⟩
  have apart : u.writeCursor ≠ u.rd := by
    rw [written, rd]
    exact (cursorNext_ne_self _).symm
  have entry : ringRead u.ring u.rd.toNat = e := by rw [placed]; exact ringRead_ringWrite_same _ _ _
  have scheduled : u.schedule = .c :: s.schedule := by rw [placed]
  have up : u.rstC = false := by rw [placed]
  rw [step_consumer_ready scheduled up ready apart, entry]

/-- Settles O6: the table word is placed whole, and the step after it runs it. -/
theorem placedWordRunsNext : Obligations.PlacedWordRunsNext := by
  refine ⟨fun s w => ?_, fun s e => ⟨(s.placeEntry e).withSchedule s.schedule, ?_, ?_⟩⟩
  · rw [withFetchWord_command]
    exact step_command (s := s.placeCommand w) rfl rfl
  · rw [withFetchWord_entry]
    exact step_placeEntry s e
  · obtain ⟨hw, jw, placed⟩ := s.placeEntry_eq e
    rw [placed]
    exact ⟨rfl, rfl, rfl, rfl, rfl, rfl, rfl, rfl, rfl, rfl, rfl, State.placedCursor_of_valid⟩

/-! ## The producer commands (R79 to R82) -/

/-- Settles O7: the meaning of `P_NOP`. -/
theorem nopChangesNothing : Obligations.NopChangesNothing := exec_pNop

/-- Settles O8: the push writes its entry's four bytes and moves the write cursor on, which changes one bit of the
code; at a corrupt cursor it is dropped. -/
theorem pushWritesThenPublishes : Obligations.PushWritesThenPublishes := by
  intro pin dt s
  refine ⟨fun valid => ?_, fun corrupt => exec_pPush_corrupt pin dt corrupt⟩
  have oneBit := cursorIncrementChangesOneBit (cursorDecode s.wg) valid
  rw [cursorEncode_cursorDecode] at oneBit
  exact ⟨ringWrite s.ring (cursorDecode s.wg).toNat (entryWord pin dt), exec_pPush_valid pin dt valid,
    ringRead_ringWrite_same _ _ _, fun a other => readByte_ringWrite_other _ _ other, oneBit⟩

/-- Settles O9: the meaning of `P_SET_WR`, by whether the code is a new one. -/
theorem setWrMovesWriteCursor : Obligations.SetWrMovesWriteCursor :=
  fun ignored _ _ => ⟨exec_pSetWr_same ignored, exec_pSetWr_other ignored⟩

theorem exec_pReserved (data : BitVec 32) (s : State) :
    exec (.pReserved data) s = .refused (.reservedCommand (commandWord 3 data)) := rfl

/-- Settles O10: the meaning of `P_RESERVED`. -/
theorem reservedCommandRefused : Obligations.ReservedCommandRefused := exec_pReserved

/-! ## The producer's estimate (R83) -/

/-- The estimate is how far the write cursor is past the read cursor that the producer sees, up to whole laps. -/
theorem RingQueue.unconsumedEstimate_eq {s : State} {q : List Entry} {stale : Nat} (h : RingQueue s q)
    (recent : stale ≤ 300) (view : s.rs = cursorEncode (cursorAt (s.rd.toNat + 300 - stale))) :
    s.unconsumedEstimate = (q.length + stale) % 300 := by
  have written : s.writeCursor.toNat = (s.rd.toNat + q.length) % 300 := by rw [h.writeCursor_eq, cursorAt_toNat]
  have seen : s.rdSeenP.toNat = (s.rd.toNat + 300 - stale) % 300 := by
    rw [State.rdSeenP, view, cursorDecode_cursorEncode, cursorAt_toNat]
  show (s.writeCursor.toNat + 300 - s.rdSeenP.toNat) % 300 = _
  omega

/-- Settles O46: below a whole lap the estimate is the sum itself. -/
theorem estimateBoundsUnconsumed : Obligations.EstimateBoundsUnconsumed := by
  intro s q stale h bound view
  have estimate : s.unconsumedEstimate = q.length + stale := by
    rw [h.unconsumedEstimate_eq (by omega) view, Nat.mod_eq_of_lt bound]
  exact ⟨estimate, by omega⟩

/-! ## A domain held in reset (R84, R159) -/

/-- Settles O49: the flag of the line's domain is the first thing each line looks at. -/
theorem heldDomainTakesNoStep : Obligations.HeldDomainTakesNoStep := by
  intro s rest
  refine ⟨fun down w choice scheduled => ?_, fun down choice scheduled => ?_⟩
  · obtain command | view := scheduled
    · exact step_command_lost command down
    · exact step_of_done view (if_pos down)
  · obtain edge | drain | view := scheduled
    · exact step_of_done edge (if_pos down)
    · exact step_of_done drain (if_pos down)
    · exact step_of_done view (if_pos down)

end Sys2Proof.Machine

/-! The statements of `41_cdc_sync.md`: the samples that the two views take, and the synchroniser chain that the
abstract samples stand for. -/

namespace Sys2Proof.Machine

/-! ## What each choice samples (R89, R90) -/

theorem sample_settled {h : List Code} {j k : Nat} {g : Code} (from_j : j ≤ k) (at_k : h[k]? = some g) :
    sample h j (.settled k) = some (g, k) := by
  simp only [sample, if_pos from_j, at_k, Option.map_some]

theorem sample_latest {h : List Code} {j : Nat} {g : Code} (from_j : j ≤ h.length - 1) (last : h.getLast? = some g) :
    sample h j .latest = some (g, h.length - 1) := by
  rw [List.getLast?_eq_getElem?] at last
  simp only [sample, if_pos from_j, last, Option.map_some]

theorem sample_mix {h : List Code} {j k : Nat} {old new : Code} (m : Code) (after : j < k)
    (old_at : h[k - 1]? = some old) (new_at : h[k]? = some new) :
    sample h j (.mix k m) = some (mixCodes old new m, k) := by
  simp only [sample, if_pos after, old_at, new_at]

theorem sample_settled_none {h : List Code} {j k : Nat} (outside : k < j ∨ h.length ≤ k) :
    sample h j (.settled k) = none := by
  obtain older | past := outside
  · exact if_neg (Nat.not_le.mpr older)
  · simp only [sample, List.getElem?_eq_none past, Option.map_none, ite_self]

theorem sample_mix_none {h : List Code} {j k : Nat} (m : Code) (outside : k ≤ j ∨ h.length ≤ k) :
    sample h j (.mix k m) = none := by
  obtain notAfter | past := outside
  · exact if_neg (Nat.not_lt.mpr notAfter)
  · simp only [sample, List.getElem?_eq_none past]
    cases h[k - 1]? <;> exact ite_self none

/-- Any view of an element from the last one taken on is some sample of it, a mixture only of a later change (R88). -/
theorem exists_sample_of_viewOf {h : List Code} {j k : Nat} {g : Code} (view : ViewOf h k g) (from_j : j ≤ k)
    (settledOrAfter : h[k]? = some g ∨ j < k) : ∃ choice, sample h j choice = some (g, k) := by
  obtain settled | ⟨-, old, new, m, old_at, new_at, rfl⟩ := view
  · exact ⟨.settled k, sample_settled from_j settled⟩
  · obtain settled | after := settledOrAfter
    · exact ⟨.settled k, sample_settled from_j settled⟩
    · exact ⟨.mix k m, sample_mix m after old_at new_at⟩

/-! ## The synchroniser chain (R85, R86) -/

/-- What a legal chain asks of a stage with the stage `older` after it: a sample that `older` may take at the next
edge. -/
structure StageSample.Follows (h : List Code) (g older : StageSample) : Prop where
  inside : g.index < h.length
  view : ViewOf h g.index g.code
  not_older : older.index ≤ g.index
  settledOrAfter : h[g.index]? = some g.code ∨ older.index < g.index

theorem StageSample.Follows.exists_sample {h : List Code} {g older : StageSample} (follows : g.Follows h older) :
    ∃ choice, sample h older.index choice = some (g.code, g.index) :=
  exists_sample_of_viewOf follows.view follows.not_older follows.settledOrAfter

theorem legalChain_singleton {h : List Code} {g : StageSample} :
    LegalChain h [g] ↔ g.index < h.length ∧ ViewOf h g.index g.code := Iff.rfl

theorem legalChain_cons_cons {h : List Code} {g older : StageSample} {rest : SyncChain} :
    LegalChain h (g :: older :: rest) ↔ g.Follows h older ∧ LegalChain h (older :: rest) :=
  ⟨fun ⟨inside, view, notOlder, after, legal⟩ => ⟨⟨inside, view, notOlder, after⟩, legal⟩,
    fun ⟨⟨inside, view, notOlder, after⟩, legal⟩ => ⟨inside, view, notOlder, after, legal⟩⟩

theorem LegalChain.ne_nil {h : List Code} {c : SyncChain} (legal : LegalChain h c) : c ≠ [] := by
  rintro rfl
  exact legal

theorem LegalChain.head_index_lt {h : List Code} {g : StageSample} {rest : SyncChain}
    (legal : LegalChain h (g :: rest)) : g.index < h.length := by
  cases rest with
  | nil => exact (legalChain_singleton.mp legal).1
  | cons older rest => exact (legalChain_cons_cons.mp legal).1.inside

theorem SyncChain.last_cons {g : StageSample} {c : SyncChain} (stages : c ≠ []) :
    SyncChain.last (g :: c) = SyncChain.last c := by
  rw [SyncChain.last, List.getLast?_cons_of_ne_nil stages, SyncChain.last]

/-- An edge puts a sample of the source before the stages and drops the last of them. -/
theorem SyncChain.edge_eq_dropLast {c : SyncChain} (stages : c ≠ []) (h : List Code) (aperture : Option Code) :
    c.edge h aperture = (firstStage h aperture :: c).dropLast :=
  (List.dropLast_cons_of_ne_nil stages).symm

/-- A legal chain without its last stage is legal, and its last stage follows the one dropped. -/
theorem LegalChain.dropLast {h : List Code} {g : StageSample} {c : SyncChain} (stages : c ≠ [])
    (legal : LegalChain h (g :: c)) :
    LegalChain h (g :: c).dropLast ∧ (SyncChain.last (g :: c).dropLast).Follows h c.last := by
  induction c generalizing g with
  | nil => exact absurd rfl stages
  | cons older rest ih =>
    obtain ⟨follows, tail⟩ := legalChain_cons_cons.mp legal
    cases rest with
    | nil => exact ⟨legalChain_singleton.mpr ⟨follows.inside, follows.view⟩, follows⟩
    | cons oldest rest =>
      obtain ⟨legalTail, lastFollows⟩ := ih (List.cons_ne_nil _ _) tail
      exact ⟨legalChain_cons_cons.mpr ⟨follows, legalTail⟩, lastFollows⟩

/-- What stage 1 samples follows what it held: the source's last element or, where stage 1 has not sampled the last
change yet, a mixture of that change (R90). -/
theorem firstStage_follows {h : List Code} {g : StageSample} {rest : SyncChain} {aperture : Option Code}
    (inside : g.index < h.length) (allowed : ApertureAllowed h (g :: rest) aperture) :
    (firstStage h aperture).Follows h g := by
  have lastInside : h.length - 1 < h.length := by omega
  have last : h[h.length - 1]? = some (h.getLast?.getD resetCode) := by
    rw [List.getLast?_eq_getElem?, List.getElem?_eq_getElem lastInside, Option.getD_some]
  have notOlder : g.index ≤ h.length - 1 := Nat.le_sub_one_of_lt inside
  cases aperture with
  | none => exact ⟨lastInside, .inl last, notOlder, .inl last⟩
  | some m =>
    obtain ⟨head, isHead, after⟩ := allowed
    obtain rfl : g = head := Option.some.inj isHead
    have beforeLast : h[h.length - 1 - 1]? = some (h[h.length - 2]?.getD resetCode) := by
      rw [Nat.sub_sub, List.getElem?_eq_getElem (by omega : h.length - 2 < h.length), Option.getD_some]
    have mixture : ViewOf h (h.length - 1) (firstStage h (some m)).code :=
      .inr ⟨Nat.zero_lt_of_lt after, _, _, m, beforeLast, last, rfl⟩
    exact ⟨lastInside, mixture, notOlder, .inr after⟩

/-- Settles O41: with the new sample before it the chain is still legal, and dropping its last stage leaves the one
that follows it. -/
theorem chainEdgeIsAbstractStep : Obligations.ChainEdgeIsAbstractStep := by
  intro h c aperture legal allowed
  have stages := legal.ne_nil
  obtain ⟨g, rest, rfl⟩ := List.exists_cons_of_ne_nil stages
  have extended : LegalChain h (firstStage h aperture :: g :: rest) :=
    legalChain_cons_cons.mpr ⟨firstStage_follows legal.head_index_lt allowed, legal⟩
  obtain ⟨legalEdge, lastFollows⟩ := extended.dropLast stages
  rw [SyncChain.edge_eq_dropLast stages]
  exact ⟨legalEdge, lastFollows.exists_sample⟩

/-- Edges at which the source is not changing fill the chain from stage 1 on. -/
theorem settledEdges_fill (h : List Code) (stale : SyncChain) (filled : Nat) :
    SyncChain.settledEdges h stale.length (List.replicate filled (firstStage h none) ++ stale) =
      List.replicate (filled + stale.length) (firstStage h none) := by
  induction stale using List.reverseRecOn generalizing filled with
  | nil => exact List.append_nil _
  | append_singleton stale oldest ih =>
    have edge : SyncChain.edge h none (List.replicate filled (firstStage h none) ++ (stale ++ [oldest])) =
        List.replicate (filled + 1) (firstStage h none) ++ stale := by
      rw [SyncChain.edge, ← List.append_assoc, List.dropLast_concat]
      rfl
    rw [List.length_append, List.length_singleton, SyncChain.settledEdges, edge, ih, Nat.add_right_comm, Nat.add_assoc]

/-- Settles O42: every stage then holds the source's last element. -/
theorem chainSettlesInItsDepth : Obligations.ChainSettlesInItsDepth := by
  intro h c g stages last
  have depth : c.length ≠ 0 := mt List.length_eq_zero_iff.mp stages
  have filled : SyncChain.settledEdges h c.length c = List.replicate c.length (firstStage h none) := by
    simpa using settledEdges_fill h c 0
  rw [filled, SyncChain.last, List.getLast?_replicate, if_neg depth, Option.getD_some, firstStage, last,
    Option.getD_some]

/-! ## Mixtures of two codes (R90, R91) -/

/-- Settles O40: the two codes differ in one bit, so a mixture has no other value to take. -/
theorem pushMixtureIsHeldValue : Obligations.PushMixtureIsHeldValue := by
  intro v m valid
  obtain ⟨k, -, oneBit⟩ := cursorIncrementChangesOneBit v valid
  exact mixCodes_of_one_bit oneBit m

theorem mixCodes_getLsbD (old new m : Code) {i : Nat} (hi : i < 9) :
    (mixCodes old new m).getLsbD i = if m.getLsbD i then new.getLsbD i else old.getLsbD i := by
  rw [mixCodes, BitVec.getLsbD_or, BitVec.getLsbD_and, BitVec.getLsbD_and, BitVec.getLsbD_not, decide_eq_true hi]
  cases m.getLsbD i <;> simp

/-! ## The samples as steps (R89, R90, R92) -/

theorem step_readSample_taken {s : State} {choice : SyncChoice} {rest : List Event} {g : Code} {k : Nat}
    (scheduled : s.schedule = .sr choice :: rest) (up : s.rstP = false)
    (sampled : sample s.hr s.jr choice = some (g, k)) :
    step s = .next ((s.withSchedule rest).setReadView g k) :=
  step_of_done scheduled (State.takeEvent_sr (s := s.withSchedule rest) up sampled)

theorem step_writeSample_refused {s : State} {choice : SyncChoice} {rest : List Event}
    (scheduled : s.schedule = .sw choice :: rest) (up : s.rstC = false) (notSampled : sample s.hw s.jw choice = none) :
    step s = .refused (.noSuchSample choice) := by
  have refused : (s.withSchedule rest).takeEvent (.sw choice) = .refuse (.noSuchSample choice) := by
    simp only [State.takeEvent, State.sampleWrite, State.withSchedule, up, notSampled]
    rfl
  rw [step_of_schedule scheduled, refused]

theorem step_readSample_refused {s : State} {choice : SyncChoice} {rest : List Event}
    (scheduled : s.schedule = .sr choice :: rest) (up : s.rstP = false) (notSampled : sample s.hr s.jr choice = none) :
    step s = .refused (.noSuchSample choice) := by
  have refused : (s.withSchedule rest).takeEvent (.sr choice) = .refuse (.noSuchSample choice) := by
    simp only [State.takeEvent, State.sampleRead, State.withSchedule, up, notSampled]
    rfl
  rw [step_of_schedule scheduled, refused]

/-! ## The views' indices (R38, R89, R92) -/

/-- The indices that the two views last took. -/
def State.viewIndices (s : State) : Nat × Nat := (s.jw, s.jr)

theorem exec_keeps_viewIndices {i : Instr} {s t : State} (run : exec i s = .next t) :
    t.viewIndices = s.viewIndices := by
  obtain ⟨-, jw, -, jr⟩ := exec_keeps_views run
  rw [State.viewIndices, jw, jr, State.viewIndices]

theorem step_command_keeps_viewIndices {s t : State} {w : Command} {rest : List Event}
    (scheduled : s.schedule = .p w :: rest) (taken : step s = .next t) : t.viewIndices = s.viewIndices := by
  cases down : s.rstP with
  | true =>
    rw [step_command_lost scheduled down] at taken
    cases taken
    rfl
  | false =>
    rw [step_command scheduled down] at taken
    exact exec_keeps_viewIndices (s := s.withSchedule rest) taken

theorem step_consumer_keeps_viewIndices {s t : State} {event : Event} {rest : List Event}
    (scheduled : s.schedule = event :: rest) (edge : event = .c ∨ event = .drain) (taken : step s = .next t) :
    t.viewIndices = s.viewIndices := by
  obtain rfl | rfl | ⟨e, schedule, draws, run⟩ := step_consumer_cases scheduled edge taken
  · rfl
  · rfl
  · exact exec_keeps_viewIndices (s := s.withInputs schedule draws) run

theorem step_writeSample_indices {s t : State} {choice : SyncChoice} {rest : List Event}
    (scheduled : s.schedule = .sw choice :: rest) (taken : step s = .next t) : s.jw ≤ t.jw ∧ t.jr = s.jr := by
  obtain rfl | ⟨g, k, sampled, rfl⟩ := step_writeSample scheduled taken
  · exact ⟨Nat.le_refl _, rfl⟩
  · exact ⟨(sample_some sampled).1, rfl⟩

theorem step_readSample_indices {s t : State} {choice : SyncChoice} {rest : List Event}
    (scheduled : s.schedule = .sr choice :: rest) (taken : step s = .next t) : t.jw = s.jw ∧ s.jr ≤ t.jr := by
  obtain rfl | ⟨g, k, sampled, rfl⟩ := step_readSample scheduled taken
  · exact ⟨rfl, Nat.le_refl _⟩
  · exact ⟨rfl, (sample_some sampled).1⟩

/-- Only a reset moves a view back. -/
theorem step_viewIndices_le {s t : State} (taken : step s = .next t)
    (noReset : ∀ port rest, s.schedule ≠ .reset port :: rest ∧ s.schedule ≠ .rstRise port :: rest) :
    s.jw ≤ t.jw ∧ s.jr ≤ t.jr := by
  have kept (same : t.viewIndices = s.viewIndices) : s.jw ≤ t.jw ∧ s.jr ≤ t.jr :=
    ⟨(Prod.mk.inj same).1.ge, (Prod.mk.inj same).2.ge⟩
  cases scheduled : s.schedule with
  | nil =>
    simp only [step, State.fetch, scheduled] at taken
    cases taken
    exact kept rfl
  | cons event rest =>
    cases event with
    | p w => exact kept (step_command_keeps_viewIndices scheduled taken)
    | c => exact kept (step_consumer_keeps_viewIndices scheduled (.inl rfl) taken)
    | drain => exact kept (step_consumer_keeps_viewIndices scheduled (.inr rfl) taken)
    | sw choice => exact (step_writeSample_indices scheduled taken).imp_right fun same => same.ge
    | sr choice => exact (step_readSample_indices scheduled taken).imp_left fun same => same.ge
    | reset port => exact absurd scheduled (noReset port rest).1
    | rstRise port => exact absurd scheduled (noReset port rest).2
    | rstRelease d =>
      rw [step_of_schedule scheduled] at taken
      cases d <;> (cases taken; exact kept rfl)
    | resetOne d =>
      rw [step_of_schedule scheduled] at taken
      cases taken

/-- Settles O56: only samples move the indices, and they move them on; an index that is not allowed gives no sample. -/
theorem viewIndexNeverFalls : Obligations.ViewIndexNeverFalls :=
  ⟨fun _ _ => step_viewIndices_le,
    fun _ _ _ up =>
      ⟨fun scheduled outside => step_writeSample_refused scheduled up (sample_settled_none outside),
        fun m scheduled outside => step_writeSample_refused scheduled up (sample_mix_none m outside)⟩,
    fun _ _ _ up =>
      ⟨fun scheduled outside => step_readSample_refused scheduled up (sample_settled_none outside),
        fun m scheduled outside => step_readSample_refused scheduled up (sample_mix_none m outside)⟩⟩

/-- Settles O37: the step takes the settled sample, and no sample lowers the index. -/
theorem settledSampleShowsHistory : Obligations.SettledSampleShowsHistory :=
  ⟨fun _ _ _ _ scheduled taken => (step_writeSample_indices scheduled taken).1,
    fun _ _ up =>
      ⟨fun _ _ scheduled from_j at_k => step_writeSample_taken scheduled up (sample_settled from_j at_k),
        fun _ scheduled from_j last => step_writeSample_taken scheduled up (sample_latest from_j last)⟩⟩

/-- Settles O38: the step takes the mixture, whose bits the mask selects. -/
theorem apertureSampleMixesCodes : Obligations.ApertureSampleMixesCodes :=
  fun _ _ _ m old new up scheduled after old_at new_at =>
    ⟨mixCodes old new m, step_writeSample_taken scheduled up (sample_mix m after old_at new_at),
      fun _ hi => mixCodes_getLsbD old new m hi⟩

/-- Settles O39: the read side takes the same samples of its own history. -/
theorem readViewSamplesAlike : Obligations.ReadViewSamplesAlike :=
  fun _ _ up =>
    ⟨fun _ _ scheduled from_j at_k => step_readSample_taken scheduled up (sample_settled from_j at_k),
      fun _ scheduled from_j last => step_readSample_taken scheduled up (sample_latest from_j last),
      fun _ m _ _ scheduled after old_at new_at =>
        step_readSample_taken scheduled up (sample_mix m after old_at new_at)⟩

end Sys2Proof.Machine

/-! The statements of `42_consumer.md`: the meanings of the entry classes, the holds and what lifts them, and the entry
that a consumer step reads. -/

namespace Sys2Proof.Machine

/-! ## The outputs of a pulse pair (R32, R33, R110) -/

/-- Whatever a pulse pair does, the ghost log only grows. -/
theorem State.applyPulse_causes (s : State) (r : PulseResult) :
    ∃ logged, (s.applyPulse r).causes = s.causes ++ logged := by
  cases r with
  | accumulate acc n => exact ⟨[], (List.append_nil _).symm⟩
  | violation cause => exact ⟨[cause], rfl⟩
  | complete acc =>
    show ∃ logged, (s.completeFrame acc).causes = s.causes ++ logged
    obtain ⟨f, -, emitted⟩ | ⟨word, check, -, discarded⟩ := s.completeFrame_cases acc
    · rw [emitted]; exact ⟨[.complete true], rfl⟩
    · rw [discarded]; exact ⟨[.invalidFrame word check, .complete false], List.append_assoc _ _ _⟩

/-- A pulse pair leaves the frame outputs as they are, or emits one frame, which `frame_out` holds. -/
theorem State.applyPulse_outputs (s : State) (r : PulseResult) :
    ((s.applyPulse r).frameValid = s.frameValid ∧ (s.applyPulse r).frames = s.frames ∧
        (s.applyPulse r).frameOut = s.frameOut) ∨
      ((s.applyPulse r).frameValid = true ∧ (s.applyPulse r).frames = s.frames ++ [(s.applyPulse r).frameOut]) := by
  cases r with
  | accumulate acc n => exact .inl ⟨rfl, rfl, rfl⟩
  | violation cause => exact .inl ⟨rfl, rfl, rfl⟩
  | complete acc =>
    rw [show s.applyPulse (.complete acc) = s.completeFrame acc from rfl]
    obtain ⟨f, -, emitted⟩ | ⟨word, check, -, discarded⟩ := s.completeFrame_cases acc
    · rw [emitted]; exact .inr ⟨rfl, rfl⟩
    · rw [discarded]; exact .inl ⟨rfl, rfl, rfl⟩

/-! ## The meanings of the entry classes (R104 to R107) -/

/-- Settles O13: the pulse pair touches only the decoder, the outputs and the log, and the advance only the cursor. -/
theorem highEntryPairsAndAdvances : Obligations.HighEntryPairsAndAdvances := by
  intro dt s
  have grows := (s.endStrobe.setPendingLow 0#16).applyPulse_causes (pulse s.acc s.bitOffset.toNat s.pendingLow dt)
  have outputs := (s.endStrobe.setPendingLow 0#16).applyPulse_outputs (pulse s.acc s.bitOffset.toNat s.pendingLow dt)
  refine ⟨_, exec_eHigh dt s, ?_⟩
  simpa [State.processPulse, cursorNext, Config.capacity] using And.intro grows outputs

/-- Settles O11: the meaning of `E_LOW`, its updates written out. -/
theorem lowEntryRemembersWidth : Obligations.LowEntryRemembersWidth := exec_eLow

/-- Settles O12: the meaning of `E_SKIP`, its updates written out. -/
theorem skipEntryOnlyAdvances : Obligations.SkipEntryOnlyAdvances := exec_eSkip

/-! ## The holds (R98 to R100) -/

/-- A consumer edge and a drain hold alike. -/
theorem step_edge_hold {s : State} {rest : List Event} (edge : s.schedule = .c :: rest ∨ s.schedule = .drain :: rest)
    (up : s.rstC = false) (held : s.holdReason ≠ none) : step s = .next (s.withSchedule rest).endStrobe :=
  edge.elim (step_consumer_hold · up held) (step_drain_hold · up held)

/-- Settles O30: in both cases a check fails, and the step is the hold. -/
theorem holdChangesNothing : Obligations.HoldChangesNothing := by
  intro s rest edge up blocked
  refine step_edge_hold edge up fun ready => ?_
  obtain ⟨apart, view, rd⟩ := s.holdReason_none_iff.mp ready
  obtain empty | ⟨-, invalidView | invalidRd⟩ := blocked
  · exact apart empty
  · exact Nat.not_le.mpr view invalidView
  · exact Nat.not_le.mpr rd invalidRd

/-- While the consumer holds, its own edges change neither cursor that the checks compare. -/
theorem step_edge_keeps_hold {s t : State} {rest : List Event}
    (edge : s.schedule = .c :: rest ∨ s.schedule = .drain :: rest) (held : s.holdReason ≠ none)
    (taken : step s = .next t) : t.holdReason = s.holdReason := by
  cases down : s.rstC with
  | true =>
    have lost : step s = .next (s.withSchedule rest) :=
      edge.elim (step_of_done · (if_pos down)) (step_of_done · (if_pos down))
    cases lost.symm.trans taken
    rfl
  | false =>
    cases (step_edge_hold edge down held).symm.trans taken
    rfl

/-- At the reset values the read cursor equals the view (R154). -/
theorem State.riseReset_holdReason (s : State) (port : Command) : (s.riseReset port).holdReason = some .empty := by
  obtain ⟨ring, draws, risen, -⟩ := s.riseReset_cases port
  have empty : State.reset.holdReason = some .empty := by decide
  rw [risen, ← empty]
  exact State.holdReason_congr rfl rfl

theorem step_reset_holds {s t : State} {port : Command} {rest : List Event}
    (scheduled : s.schedule = .reset port :: rest ∨ s.schedule = .rstRise port :: rest) (taken : step s = .next t) :
    t.holdReason ≠ none := by
  have empty : t.holdReason = some .empty := by
    obtain pulse | rise := scheduled
    · cases (step_of_done pulse rfl).symm.trans taken
      exact (s.withSchedule rest).riseReset_holdReason port
    · cases (step_of_done rise rfl).symm.trans taken
      exact (s.withSchedule rest).riseReset_holdReason port
  rw [empty]
  exact Option.some_ne_none _

/-- Settles O31: a reset leaves the ring empty to the consumer, and any other step but a sample keeps the view, and the
read cursor too while the consumer holds. -/
theorem holdLiftedOnlyByWriteView : Obligations.HoldLiftedOnlyByWriteView := by
  intro s t held taken lifted
  have noReset (port : Command) (rest : List Event) :
      s.schedule ≠ .reset port :: rest ∧ s.schedule ≠ .rstRise port :: rest :=
    ⟨fun pulse => step_reset_holds (.inl pulse) taken lifted, fun rise => step_reset_holds (.inr rise) taken lifted⟩
  obtain ⟨-, consumer, view, -⟩ := step_keeps_or_writer taken noReset
  refine view.resolve_left fun sameView => held ?_
  rw [← lifted]
  obtain sameConsumer | ⟨rest, edge⟩ := consumer
  · exact (State.holdReason_congr (congrArg Prod.fst sameConsumer) sameView).symm
  · exact (step_edge_keeps_hold edge held taken).symm

/-! ## The entry read (R102, R103, R107) -/

/-- The state with another ring. -/
def State.withRing (s : State) (ring : Memory) : State := { s with ring := ring }

theorem State.applyPulse_withRing (s : State) (ring : Memory) (r : PulseResult) :
    (s.withRing ring).applyPulse r = (s.applyPulse r).withRing ring := by
  cases r with
  | accumulate acc n => rfl
  | violation cause => rfl
  | complete acc => simp only [State.applyPulse, State.completeFrame]; cases validate acc <;> rfl

/-- An entry's meaning does not look at the ring. -/
theorem exec_entry_withRing {e : Entry} {s t : State} (ring : Memory) (run : exec (decodeEntry e) s = .next t) :
    exec (decodeEntry e) (s.withRing ring) = .next (t.withRing ring) := by
  obtain ⟨dt, low⟩ | ⟨dt, high⟩ | ⟨ignored, pin, skip⟩ := decodeEntry_cases e
  · rw [low] at run ⊢
    cases run
    rfl
  · rw [high] at run ⊢
    cases run
    have pair := (s.endStrobe.setPendingLow 0#16).applyPulse_withRing ring
      (pulse s.acc s.bitOffset.toNat s.pendingLow dt)
    exact congrArg (fun u : State => Host.Outcome.next u.advanceRead) pair
  · rw [skip] at run ⊢
    cases run
    rfl

/-- Settles O33: with either ring the race's step is the meaning of the same draw, which does not look at the ring. -/
theorem lappingReadIsDrawn : Obligations.LappingReadIsDrawn := by
  intro s rest ring' scheduled up ready race
  obtain ⟨t, run, -, -, -, -, -, -, -, -, -, -, draws⟩ := exec_entry_cursors s.drawn (s.withSchedule rest).afterDraw
  refine ⟨t, run, ?_, ?_, draws⟩
  · exact (step_consumer_lapping scheduled up ready race).trans run
  · exact (step_consumer_lapping (s := s.withRing ring') scheduled up ready race).trans (exec_entry_withRing ring' run)

/-- A consumer edge or a drain that does not hold runs an entry: the ring's or a draw (R97, R103, R109). -/
theorem step_edge_ready {s : State} {rest : List Event} (edge : s.schedule = .c :: rest ∨ s.schedule = .drain :: rest)
    (up : s.rstC = false) (ready : s.holdReason = none) :
    ∃ e schedule draws, step s = exec (decodeEntry e) (s.withInputs schedule draws) := by
  by_cases race : s.writeCursor = s.rd
  · obtain tick | drain := edge
    · exact ⟨s.drawn, rest, s.draws + 1, step_consumer_lapping tick up ready race⟩
    · exact ⟨s.drawn, s.schedule, s.draws + 1, step_drain_lapping drain up ready race⟩
  · obtain tick | drain := edge
    · exact ⟨_, rest, s.draws, step_consumer_ready tick up ready race⟩
    · exact ⟨_, s.schedule, s.draws, step_drain_ready drain up ready race⟩

/-- Settles O34: the step runs an entry, and every entry's meaning ends with the cursor advance. -/
theorem consumedEntryAdvancesCursor : Obligations.ConsumedEntryAdvancesCursor := by
  intro s rest edge up ready
  obtain ⟨e, schedule, draws, runs⟩ := step_edge_ready edge up ready
  obtain ⟨t, run, rd, rg, hr, -⟩ := exec_entry_cursors e (s.withInputs schedule draws)
  exact ⟨t, runs.trans run, rd, rg, hr⟩

end Sys2Proof.Machine

/-! The statements of `43_bit_decoder.md`: the bit count of a width, the invariants of the decoder, what one pulse pair
does through `E_HIGH`, the saturating arithmetic, and a whole frame on the line. -/

namespace Sys2Proof.Machine

/-! ## The bit count of a width (R112, R127) -/

/-- Settles O19: the count is the quotient of `w + 5` by 10. -/
theorem widthRoundsHalfUp : Obligations.WidthRoundsHalfUp := by
  intro w
  show 10 * ((w.toNat + 5) / 10) ≤ w.toNat + 5 ∧ w.toNat + 5 < 10 * ((w.toNat + 5) / 10) + 10
  omega

/-- Settles O20: in the band of `n` bits the nearest whole number of bit times is `n`. -/
theorem widthInBandCountsItsBits : Obligations.WidthInBandCountsItsBits := by
  intro w n _ low high
  obtain ⟨atLeast, below⟩ := widthRoundsHalfUp w
  omega

/-! ## The pulse pair, one equation for each outcome (R113 to R121) -/

theorem pulse_zeroWidth {lo hi : Half} (acc : Acc) (n : Nat) (zero : bits lo = 0 ∨ bits hi = 0) :
    pulse acc n lo hi = .violation (.zeroWidth lo hi) :=
  if_pos zero

theorem pulse_lowOverrun {n : Nat} {lo hi : Half} (acc : Acc) (hl : 1 ≤ bits lo) (hh : 1 ≤ bits hi)
    (past : 10 < n % 12 + bits lo) : pulse acc n lo hi = .violation (.lowOverrun n (bits lo)) :=
  (if_neg (by omega)).trans (if_pos past)

/-- A low phase that fits is stored, and the high phase follows. -/
theorem pulse_lowStored {n : Nat} {lo hi : Half} (acc : Acc) (hl : 1 ≤ bits lo) (hh : 1 ≤ bits hi)
    (fits : n % 12 + bits lo ≤ 10) :
    pulse acc n lo hi =
      highPhase (orLow acc (n / 12) (n % 12) (bits lo)) (n / 12) (n % 12 + bits lo) (bits hi) :=
  (if_neg (by omega)).trans (if_neg (Nat.not_lt.mpr fits))

theorem highPhase_inside {bw2 h : Nat} (acc : Acc) (bi : Nat) (started : 1 ≤ bw2) (inside : bw2 + h < 12) :
    highPhase acc bi bw2 h = .accumulate acc (12 * bi + bw2 + h) :=
  have notEnd : 12 * bi + bw2 + h ≠ 300 := by omega
  (if_pos inside).trans ((if_neg notEnd).trans (if_neg (Nat.not_lt_zero _)))

/-- A high phase past the word's end is capped there. -/
theorem highPhase_past {bw2 h : Nat} (acc : Acc) (bi : Nat) (past : 12 ≤ bw2 + h) :
    highPhase acc bi bw2 h = afterHigh acc (12 * (bi + 1)) (bw2 + h - 12) :=
  if_neg (Nat.not_lt.mpr past)

theorem afterHigh_gap {n rem : Nat} (acc : Acc) (before : n ≠ 300) (short : rem ≤ 12) :
    afterHigh acc n rem = .accumulate acc n :=
  (if_neg before).trans (if_neg (Nat.not_lt.mpr short))

theorem afterHigh_midframeBreak {n rem : Nat} (acc : Acc) (before : n ≠ 300) (long : 12 < rem) :
    afterHigh acc n rem = .violation (.midframeBreak n rem) :=
  (if_neg before).trans (if_pos long)

theorem afterHigh_frameOverrun {rem : Nat} (acc : Acc) (short : rem ≤ 12) :
    afterHigh acc 300 rem = .violation (.frameOverrun rem) :=
  (if_pos rfl).trans (if_neg (Nat.not_lt.mpr short))

theorem afterHigh_complete {rem : Nat} (acc : Acc) (long : 12 < rem) : afterHigh acc 300 rem = .complete acc :=
  (if_pos rfl).trans (if_pos long)

/-- A stored low phase whose high phase runs past the word's end. -/
theorem pulse_past {n : Nat} {lo hi : Half} (acc : Acc) (hl : 1 ≤ bits lo) (hh : 1 ≤ bits hi)
    (fits : n % 12 + bits lo ≤ 10) (past : 12 ≤ n % 12 + bits lo + bits hi) :
    pulse acc n lo hi =
      afterHigh (orLow acc (n / 12) (n % 12) (bits lo)) (12 * (n / 12 + 1)) (n % 12 + bits lo + bits hi - 12) :=
  (pulse_lowStored acc hl hh fits).trans (highPhase_past _ _ past)

/-- A stored low phase whose high phase ends inside the word. -/
theorem pulse_inside {n : Nat} {lo hi : Half} (acc : Acc) (hl : 1 ≤ bits lo) (hh : 1 ≤ bits hi)
    (fits : n % 12 + bits lo ≤ 10) (inside : n % 12 + bits lo + bits hi < 12) :
    pulse acc n lo hi =
      .accumulate (orLow acc (n / 12) (n % 12) (bits lo)) (n + bits lo + bits hi) := by
  have offset : 12 * (n / 12) + (n % 12 + bits lo) + bits hi = n + bits lo + bits hi := by omega
  rw [pulse_lowStored acc hl hh fits, highPhase_inside _ _ (by omega) inside, offset]

/-! ## The decoder's invariants (R125) -/

/-- Settles O22: every effect of a step keeps the invariants, and a pair that neither resets for a zero count nor for
its low phase has stored at least one slot, none past slot 9. -/
theorem decoderInvariantsKept : Obligations.DecoderInvariantsKept := by
  refine ⟨decoderInv_zero, ?_, ?_, ?_⟩
  · intro s t inv taken
    obtain ⟨schedule, draws, effect⟩ := step_effect taken
    exact effect.keeps_decoderInv inv
  · intro s inv
    have lt : s.bitOffset.toNat < 300 := inv.offset_lt
    omega
  · intro acc n lo hi _ notZero notOverrun
    obtain ⟨-, zero⟩ | ⟨-, -, -, overrun⟩ | ⟨hl, -, fits, -⟩ := pulse_cases acc n lo hi
    · exact absurd zero notZero
    · exact absurd overrun notOverrun
    · exact ⟨by omega, fits⟩

/-! ## `E_HIGH`, by what its pulse pair does (R105, R121, R122) -/

theorem accZero_getElem (i : Nat) (h : i < 25) : accZero[i] = 0 := Vector.getElem_replicate h

/-- `E_HIGH` in every state: the decoder takes what the pair does, and the cursor advances. -/
theorem exec_eHigh_pulse {dt : Half} {s : State} {r : PulseResult}
    (pair : pulse s.acc s.bitOffset.toNat s.pendingLow dt = r) :
    exec (.eHigh dt) s = .next ((s.endStrobe.setPendingLow 0#16).applyPulse r).advanceRead := by
  rw [← pair, exec_eHigh]
  rfl

/-- A pair that violates the timing resets the decoder, logs its cause and emits nothing. -/
theorem exec_eHigh_violation {dt : Half} {s : State} {cause : Cause}
    (pair : pulse s.acc s.bitOffset.toNat s.pendingLow dt = .violation cause) :
    ∃ t : State, exec (.eHigh dt) s = .next t ∧
      (∀ i, (h : i < 25) → t.acc[i] = 0) ∧ t.bitOffset = 0 ∧ t.causes = s.causes ++ [cause] ∧
      t.frames = s.frames ∧ t.frameOut = s.frameOut ∧ t.frameValid = false :=
  ⟨_, exec_eHigh_pulse pair, accZero_getElem, rfl, rfl, rfl, rfl, rfl⟩

/-- A pair that stays in the accumulator sets its low phase's slots, moves `bit_offset`, and logs and emits nothing. -/
theorem exec_eHigh_accumulate {dt : Half} {s : State} {bi bw l n : Nat}
    (pair : pulse s.acc s.bitOffset.toNat s.pendingLow dt = .accumulate (orLow s.acc bi bw l) n) (lt : n < 300) :
    ∃ t : State, exec (.eHigh dt) s = .next t ∧ LowPhaseOr s.acc t.acc bi bw l ∧ t.bitOffset.toNat = n ∧
      t.causes = s.causes ∧ t.frames = s.frames ∧ t.frameOut = s.frameOut ∧ t.frameValid = false :=
  ⟨_, exec_eHigh_pulse pair, orLow_slots _ _ _ _, Nat.mod_eq_of_lt (by omega), rfl, rfl, rfl, rfl⟩

/-- Settles O14: a zero count is the first test, and its violation stores nothing. -/
theorem zeroCountResetsDecoder : Obligations.ZeroCountResetsDecoder :=
  fun _ _ zero => exec_eHigh_violation (pulse_zeroWidth _ _ zero)

/-- Settles O15: the overrun is the second test. -/
theorem lowOverrunResetsDecoder : Obligations.LowOverrunResetsDecoder :=
  fun _ _ hl hh past => exec_eHigh_violation (pulse_lowOverrun _ hl hh past)

/-- Settles O16: the high phase ends inside the word, or past it with a short remainder before slot 300. -/
theorem pairAccumulatesSlots : Obligations.PairAccumulatesSlots := by
  rintro dt s _ _ l h lt rfl rfl (rfl : l = bits s.pendingLow) (rfl : h = bits dt) hl hh fits
  refine ⟨fun inside => ?_, fun past short notLast => ?_⟩
  · exact exec_eHigh_accumulate (pulse_inside s.acc hl hh fits inside) (by omega)
  · have pair := (pulse_past s.acc hl hh fits past).trans (afterHigh_gap _ (by omega) short)
    exact exec_eHigh_accumulate pair (by omega)

/-- Settles O17: the high phase runs past its word, and its remainder does not fit the place. -/
theorem misplacedBreakResetsDecoder : Obligations.MisplacedBreakResetsDecoder := by
  rintro dt s _ _ l h lt rfl rfl (rfl : l = bits s.pendingLow) (rfl : h = bits dt) hl hh fits past
  have pair := pulse_past s.acc hl hh fits past
  refine ⟨fun notLast long => ?_, fun last short => ?_⟩
  · exact exec_eHigh_violation (pair.trans (afterHigh_midframeBreak _ (by omega) long))
  · rw [last] at pair
    exact exec_eHigh_violation (pair.trans (afterHigh_frameOverrun _ short))

/-! ## Completion (R118, R129 to R136) -/

/-- The validator gives a frame exactly where every word passes, and then the bytes it extracts (R134, R135). -/
theorem validate_ok_iff (acc : Acc) (f : Frame) :
    validate acc = .ok f ↔ (∀ i, (h : i < 25) → WordPasses acc[i]) ∧ frameBytes acc = f := by
  have passes : firstFailure 0 acc.toList = none ↔ ∀ i, (h : i < 25) → WordPasses acc[i] := by
    rw [firstFailure_none_iff]
    simp only [wordFailure_none_iff, Vector.mem_toList_iff]
    exact Vector.forall_mem_iff_forall_getElem
  rw [← passes]
  unfold validate
  cases firstFailure 0 acc.toList <;> simp

theorem frameBytes_frameOf (acc : Acc) : FrameOf acc (frameBytes acc) := by
  intro i hi k hk
  rw [frameBytes_getElem acc i hi, dataByte_getLsbD _ k hk]

/-- A completed frame is emitted, or its failure logged, and the decoder resets either way. -/
theorem exec_eHigh_complete {dt : Half} {s : State} {acc : Acc}
    (pair : pulse s.acc s.bitOffset.toNat s.pendingLow dt = .complete acc) :
    (∃ f, validate acc = .ok f ∧
      exec (.eHigh dt) s =
        .next (((s.endStrobe.setPendingLow 0#16).emit f).resetDecoder (.complete true)).advanceRead) ∨
    (∃ word check, validate acc = .error (word, check) ∧
      exec (.eHigh dt) s =
        .next (((s.endStrobe.setPendingLow 0#16).log (.invalidFrame word check)).resetDecoder
          (.complete false)).advanceRead) := by
  have run : exec (.eHigh dt) s = .next ((s.endStrobe.setPendingLow 0#16).completeFrame acc).advanceRead :=
    exec_eHigh_pulse pair
  obtain ⟨f, valid, emitted⟩ | ⟨word, check, invalid, discarded⟩ :=
    (s.endStrobe.setPendingLow 0#16).completeFrame_cases acc
  · exact .inl ⟨f, valid, emitted ▸ run⟩
  · exact .inr ⟨word, check, invalid, discarded ▸ run⟩

/-- Settles O18: the last word's high phase reaches slot 300 with a break, and the completion takes one of its two
forms, whatever the validator finds. -/
theorem completionValidatesThenResets : Obligations.CompletionValidatesThenResets := by
  rintro dt s _ l h lt last rfl (rfl : l = bits s.pendingLow) (rfl : h = bits dt) hl hh fits past long
  have pair := pulse_past s.acc hl hh fits past
  rw [last] at pair
  have slots := orLow_slots s.acc 24 (s.bitOffset.toNat % 12) (bits s.pendingLow)
  obtain ⟨f, valid, run⟩ | ⟨word, check, invalid, run⟩ :=
    exec_eHigh_complete (pair.trans (afterHigh_complete _ long))
  · obtain ⟨passes, rfl⟩ := (validate_ok_iff _ f).mp valid
    exact ⟨_, _, run, slots, accZero_getElem, rfl, fun _ => ⟨frameBytes_frameOf _, rfl, rfl, rfl⟩,
      fun ⟨i, hi, fails⟩ => absurd (passes i hi) fails⟩
  · refine ⟨_, _, run, slots, accZero_getElem, rfl, fun passes => ?_, fun _ => ?_⟩
    · cases invalid.symm.trans ((validate_ok_iff _ _).mpr ⟨passes, rfl⟩)
    · exact ⟨rfl, rfl, rfl, word, check, invalid, List.append_assoc _ _ _⟩

/-! ## Saturating arithmetic (R126) -/

/-- The remainder is tested against 12 alone. -/
theorem afterHigh_effect_min (acc : Acc) (n rem : Nat) :
    (afterHigh acc n (min rem 13)).effect = (afterHigh acc n rem).effect := by
  rcases Nat.lt_or_ge 12 rem with long | short
  · by_cases last : n = 300
    · rw [last, afterHigh_complete acc long, afterHigh_complete acc (by omega)]
    · rw [afterHigh_midframeBreak acc last long, afterHigh_midframeBreak acc last (by omega)]
      rfl
  · rw [Nat.min_eq_left (by omega)]

/-- With `bw2` at least 1, a high phase of 24 slots already leaves the longest remainder that is told apart. -/
theorem highPhaseSaturated_effect {bw2 : Nat} (acc : Acc) (bi h : Nat) (started : 1 ≤ bw2) :
    (highPhaseSaturated acc bi bw2 (min h 24)).effect = (highPhase acc bi bw2 h).effect := by
  rcases Nat.lt_or_ge (bw2 + h) 12 with inside | past
  · have same : highPhaseSaturated acc bi bw2 h = highPhase acc bi bw2 h := (if_pos inside).trans (if_pos inside).symm
    rw [Nat.min_eq_left (by omega), same]
  · have rem : min (bw2 + min h 24 - 12) 13 = min (bw2 + h - 12) 13 := by omega
    have capped : highPhaseSaturated acc bi bw2 (min h 24) =
        afterHigh acc (12 * (bi + 1)) (min (bw2 + min h 24 - 12) 13) :=
      if_neg (show ¬ bw2 + min h 24 < 12 by omega)
    rw [capped, rem, afterHigh_effect_min, highPhase_past acc bi past]

/-- Settles O21: each test comes out the same on the saturated values, and where the low phase is stored its count is
not saturated at all. -/
theorem saturatedDecoderAgrees : Obligations.SaturatedDecoderAgrees := by
  intro acc n lo hi
  unfold pulseSaturated
  obtain ⟨zero, pair⟩ | ⟨hl, hh, past, pair⟩ | ⟨hl, hh, fits, pair⟩ := pulse_cases acc n lo hi
  · rw [pair, if_pos (by omega)]
  · have past' : Config.lowLimit < slotIndex n + min (bits lo) 11 := by
      show 10 < n % 12 + min (bits lo) 11
      omega
    rw [pair, if_neg (by omega), if_pos past']
    rfl
  · have unsaturated : min (bits lo) 11 = bits lo := by omega
    have fits' : ¬ Config.lowLimit < slotIndex n + bits lo := Nat.not_lt.mpr fits
    rw [unsaturated, pair, if_neg (by omega), if_neg fits']
    exact highPhaseSaturated_effect _ _ _ (by omega)

/-! ## The last byte of a frame (R118, R119, R128) -/

theorem pairsWord_nil {bw : Nat} {w w' : AccWord} (h : pairsWord [] bw w = some w') : bw = 12 ∧ w = w' := by
  simpa [pairsWord] using h

theorem pairsWord_cons {lo hi bw : Nat} {rest : List (Nat × Nat)} {w w' : AccWord}
    (h : pairsWord ((lo, hi) :: rest) bw w = some w') :
    (1 ≤ lo ∧ 1 ≤ hi ∧ bw + lo ≤ 10 ∧ bw + lo + hi ≤ 12) ∧
      pairsWord rest (bw + lo + hi) (w ||| lowMask bw lo) = some w' := by
  simpa [pairsWord] using h

/-- The state in which the `E_HIGH` of a pair hands the two widths to the decoder. -/
def State.beforePulse (s : State) (lo : Half) : State :=
  (s.endStrobe.setPendingLow lo).advanceRead.endStrobe.setPendingLow 0#16

theorem execAll_pair_pulse {lo hi : Half} {s : State} {r : PulseResult} (rest : List Instr)
    (pair : pulse s.acc s.bitOffset.toNat lo hi = r) :
    execAll (.eLow lo :: .eHigh hi :: rest) s = execAll rest ((s.beforePulse lo).applyPulse r).advanceRead := by
  rw [execAll_pair, ← pair]
  rfl

/-- A pair that stays in the accumulator, as the first of a run. -/
theorem execAll_pair_accumulate {lo hi : Half} {s : State} {acc : Acc} {n : Nat} (rest : List Instr)
    (pair : pulse s.acc s.bitOffset.toNat lo hi = .accumulate acc n) (lt : n < 300) :
    ∃ t : State, execAll (.eLow lo :: .eHigh hi :: rest) s = execAll rest t ∧ t.acc = acc ∧
      t.bitOffset.toNat = n ∧ t.frames = s.frames ∧ t.frameOut = s.frameOut ∧ t.causes = s.causes := by
  refine ⟨_, execAll_pair_pulse rest pair, ?_⟩
  simpa [State.applyPulse, State.beforePulse] using Nat.mod_eq_of_lt (show n < 512 by omega)

/-- Running these entries from `s` ends with what a high phase does at slot 300, on this accumulator and with this
remainder, in a state that has emitted and logged nothing since `s`. -/
def EndsFrame (instrs : List Instr) (s : State) (acc : Acc) (rem : Nat) : Prop :=
  ∃ u : State, execAll instrs s = .next (u.applyPulse (afterHigh acc 300 rem)).advanceRead ∧
    u.frames = s.frames ∧ u.frameOut = s.frameOut ∧ u.causes = s.causes

/-- Pairs that make up the rest of the last word, with the gap in the last high phase, end the frame. -/
theorem pairsWord_endsFrame {widths : List (Half × Half)} {pairs : List (Nat × Nat)} {bw gap : Nat} {w w' : AccWord}
    {s : State} (counts : widths.map (fun p => (bits p.1, bits p.2)) = lengthenLast gap pairs)
    (word : pairsWord pairs bw w = some w') (offset : s.bitOffset.toNat = 288 + bw) (inside : bw < 12)
    (stored : s.acc[24] = w) : EndsFrame (pairInstrs widths) s (s.acc.set 24 w') gap := by
  induction pairs generalizing widths bw w s with
  | nil =>
    obtain ⟨full, -⟩ := pairsWord_nil word
    omega
  | cons p pairs ih =>
    obtain ⟨l, h⟩ := p
    obtain ⟨⟨hl, hh, fits, ends⟩, later⟩ := pairsWord_cons word
    have index : s.bitOffset.toNat / 12 = 24 := by omega
    have slot : s.bitOffset.toNat % 12 = bw := by omega
    have low : orLow s.acc 24 bw l = s.acc.set 24 (w ||| lowMask bw l) := by
      rw [orLow_set _ _ _ _ (by decide), stored]
    cases pairs with
    | nil =>
      obtain ⟨full, rfl⟩ := pairsWord_nil later
      obtain ⟨⟨lo, hi⟩, after, rfl, count, noCounts⟩ := List.map_eq_cons_iff.mp counts
      obtain rfl := List.map_eq_nil_iff.mp noCounts
      obtain ⟨(rfl : bits lo = l), (high : bits hi = h + gap)⟩ := Prod.mk.inj count
      have pair := pulse_past (n := s.bitOffset.toNat) (hi := hi) s.acc hl (by omega) (by omega) (by omega)
      have rem : bw + bits lo + bits hi - 12 = gap := by omega
      rw [index, slot, rem, low] at pair
      exact ⟨_, execAll_pair_pulse [] pair, rfl, rfl, rfl⟩
    | cons q pairs =>
      obtain ⟨⟨-, -, fitsNext, -⟩, -⟩ := pairsWord_cons later
      obtain ⟨⟨lo, hi⟩, widths, rfl, count, countsLater⟩ := List.map_eq_cons_iff.mp counts
      obtain ⟨(rfl : bits lo = l), (rfl : bits hi = h)⟩ := Prod.mk.inj count
      have pair := pulse_inside (n := s.bitOffset.toNat) s.acc hl hh (by omega) (by omega)
      rw [index, slot, low] at pair
      obtain ⟨t, run, acc, next, frames, out, causes⟩ := execAll_pair_accumulate (pairInstrs widths) pair (by omega)
      have stored' : t.acc[24] = w ||| lowMask bw (bits lo) := by rw [acc, Vector.getElem_set_self]
      obtain ⟨u, ran, frames', out', causes'⟩ := ih countsLater later (by omega) (by omega) stored'
      rw [acc, Vector.set_set] at ran
      exact ⟨u, run.trans ran, frames'.trans frames, out'.trans out, causes'.trans causes⟩

/-! ## A frame on the line (R127, R137, R164) -/

/-- The accumulator that holds the first `i` bytes of a frame. -/
def accOfBytes (f : Frame) (i : Nat) : Acc := Vector.ofFn fun j : Fin 25 => if j.val < i then byteWord f[j] else 0

theorem accOfBytes_getElem {f : Frame} {i j : Nat} (hj : j < 25) :
    (accOfBytes f i)[j] = if j < i then byteWord f[j] else 0 :=
  Vector.getElem_ofFn hj

theorem accOfBytes_zero (f : Frame) : accOfBytes f 0 = accZero := by
  ext j hj : 1
  rw [accOfBytes_getElem, accZero_getElem, if_neg (Nat.not_lt_zero j)]

/-- One more byte is one more word. -/
theorem accOfBytes_set {f : Frame} {i : Nat} (hi : i < 25) :
    (accOfBytes f i).set i (byteWord f[i]) = accOfBytes f (i + 1) := by
  ext j hj : 1
  rw [Vector.getElem_set, accOfBytes_getElem, accOfBytes_getElem]
  split
  · next same => subst same; rw [if_pos (Nat.lt_succ_self i)]
  · next other =>
    have upTo : j < i ↔ j < i + 1 := by omega
    simp only [upTo]

/-- The validator accepts a frame's 25 words and gives its bytes back (R137). -/
theorem validate_accOfBytes (f : Frame) : validate (accOfBytes f 25) = .ok f := by
  have word (i : Nat) (hi : i < 25) : (accOfBytes f 25)[i] = byteWord f[i] := by
    rw [accOfBytes_getElem, if_pos hi]
  refine (validate_ok_iff _ _).mpr ⟨fun i hi => ?_, ?_⟩
  · obtain ⟨-, passes, -⟩ := byte_decodes f[i]
    rw [word i hi]
    exact (wordFailure_none_iff _).mp passes
  · ext i hi : 1
    obtain ⟨-, -, byte⟩ := byte_decodes f[i]
    rw [frameBytes_getElem _ i hi, word i hi, byte]

theorem frame_drop (f : Frame) {i : Nat} (hi : i < 25) : f.toList.drop i = f[i] :: f.toList.drop (i + 1) := by
  rw [List.drop_eq_getElem_cons (by simpa using hi), Vector.getElem_toList]

theorem pairInstrs_append (ps qs : List (Half × Half)) : pairInstrs (ps ++ qs) = pairInstrs ps ++ pairInstrs qs :=
  List.flatMap_append

/-- While bytes are to come, the decoder is at the start of a word, with the bytes so far in the accumulator and nothing
emitted or logged. -/
theorem execAll_bytes {f : Frame} {gap : Nat} {widths : List (Half × Half)} {s : State} (clear : s.acc = accZero)
    (start : s.bitOffset = 0) (counts : widths.map (fun p => (bits p.1, bits p.2)) = framePairs f.toList gap)
    (i : Nat) (hi : i < 25) :
    ∃ later t, later.map (fun p : Half × Half => (bits p.1, bits p.2)) = framePairs (f.toList.drop i) gap ∧
      execAll (pairInstrs widths) s = execAll (pairInstrs later) t ∧ t.acc = accOfBytes f i ∧
      t.bitOffset.toNat = 12 * i ∧ t.frames = s.frames ∧ t.frameOut = s.frameOut ∧ t.causes = s.causes := by
  induction i with
  | zero => exact ⟨widths, s, counts, rfl, clear.trans (accOfBytes_zero f).symm, by rw [start]; rfl, rfl, rfl, rfl⟩
  | succ i ih =>
    obtain ⟨widths', t, counts', run, acc, offset, frames, out, causes⟩ := ih (by omega)
    rw [frame_drop f (by omega), frame_drop f hi, framePairs_cons, ← frame_drop f hi] at counts'
    obtain ⟨now, later, rfl, countsNow, countsLater⟩ := List.map_eq_append_iff.mp counts'
    have fresh : t.acc[i] = 0 := by rw [acc, accOfBytes_getElem, if_neg (Nat.lt_irrefl i)]
    obtain ⟨u, ran, acc', offset', frames', out', causes'⟩ :=
      execAll_pairs_in_word (bw := 0) t (pairInstrs later) countsNow (byte_decodes f[i]).1 (by omega) offset fresh
    refine ⟨later, u, countsLater, ?_, ?_, offset', frames'.trans frames, out'.trans out, causes'.trans causes⟩
    · rw [run, pairInstrs_append, ran]
    · rw [acc', acc, accOfBytes_set]

/-- The pulse pairs of a frame end it with the whole frame in the accumulator and the gap as the remainder. -/
theorem frame_endsFrame {f : Frame} {gap : Nat} {widths : List (Half × Half)} {s : State} (clear : s.acc = accZero)
    (start : s.bitOffset = 0) (counts : widths.map (fun p => (bits p.1, bits p.2)) = framePairs f.toList gap) :
    EndsFrame (pairInstrs widths) s (accOfBytes f 25) gap := by
  obtain ⟨last, t, countsLast, run, acc, offset, frames, out, causes⟩ :=
    execAll_bytes clear start counts 24 (by decide)
  have lastByte : f.toList.drop 24 = [f[24]] := by
    rw [frame_drop f (by decide), List.drop_of_length_le (by simp)]
  rw [lastByte, framePairs_last] at countsLast
  have fresh : t.acc[24] = 0 := by rw [acc, accOfBytes_getElem, if_neg (Nat.lt_irrefl 24)]
  obtain ⟨u, ran, frames', out', causes'⟩ :=
    pairsWord_endsFrame countsLast (byte_decodes f[24]).1 offset (by decide) fresh
  rw [acc, accOfBytes_set] at ran
  exact ⟨u, run.trans ran, frames'.trans frames, out'.trans out, causes'.trans causes⟩

/-- Settles O27: the gap is a break at slot 300, and the validator accepts the frame's own words. -/
theorem transmittedFrameIsEmitted : Obligations.TransmittedFrameIsEmitted := by
  intro f gap widths s long clear start counts
  obtain ⟨u, run, frames, -, causes⟩ := frame_endsFrame clear start counts
  have emitted : u.applyPulse (afterHigh (accOfBytes f 25) 300 gap) = (u.emit f).resetDecoder (.complete true) := by
    rw [afterHigh_complete _ long, State.applyPulse, State.completeFrame, validate_accOfBytes]
  rw [emitted] at run
  exact ⟨_, run, congrArg (· ++ [f]) frames, rfl, rfl, congrArg (· ++ [Cause.complete true]) causes, rfl, rfl⟩

end Sys2Proof.Machine

/-! The statements of `44_frame_validator.md`: the accumulators that the validator accepts, and the one check that an
accumulator of the decoder can fail. -/

namespace Sys2Proof.Machine

/-! ## Acceptance (R130 to R135) -/

/-- The 25 bytes that the validator extracts are the only frame that the data slots hold (R134). -/
theorem frameOf_iff (acc : Acc) (f : Frame) : FrameOf acc f ↔ frameBytes acc = f := by
  constructor
  · intro holds
    ext i hi : 1
    refine BitVec.eq_of_getLsbD_eq fun k hk => ?_
    rw [frameBytes_frameOf acc i hi k hk, holds i hi k hk]
  · rintro rfl
    exact frameBytes_frameOf acc

/-- Settles O23: the validator gives the bytes it extracts, and they are the frame that the slots hold. -/
theorem validatorAcceptsExactlyPassingWords : Obligations.ValidatorAcceptsExactlyPassingWords := by
  intro acc f
  rw [frameOf_iff]
  exact validate_ok_iff acc f

/-! ## Rejection of a decoded frame (R138) -/

/-- A word whose start slot is set and whose stop slots are clear can fail only the last check (R131 to R133). -/
theorem wordFailure_parity {w : AccWord} {check : WordCheck} (start : w.getLsbD 0 = true)
    (stops : w.getLsbD 10 = false ∧ w.getLsbD 11 = false) (fails : wordFailure w = some check) : check = .parity := by
  have startOk : startPasses (invert w) = true := (startPasses_iff w).mpr start
  have stopOk : stopPasses (invert w) = true := (stopPasses_iff w).mpr stops
  cases parity : parityPasses (invert w) with
  | false =>
    have parityFails : some WordCheck.parity = some check := by simpa [wordFailure, startOk, stopOk, parity] using fails
    exact (Option.some.inj parityFails).symm
  | true => simp [wordFailure, startOk, stopOk, parity] at fails

/-- Only a high phase of the last word completes a frame, and it hands over the accumulator it found (R118). -/
theorem highPhase_complete {acc acc' : Acc} {bi bw2 h : Nat} (started : 1 ≤ bw2)
    (done : highPhase acc bi bw2 h = .complete acc') : bi = 24 ∧ acc' = acc := by
  obtain ⟨-, r⟩ | ⟨-, -, -, r⟩ | ⟨-, -, -, r⟩ | ⟨-, -, r⟩ | ⟨-, last, r⟩ := highPhase_cases acc bi bw2 h started <;>
    cases r.symm.trans done
  exact ⟨last, rfl⟩

/-- The accumulator that a completion hands to the validator has a low phase stored in its last word, so every word has
started and no stop slot is set (R125 with `bit_offset` at 300). -/
theorem DecoderInv.lowStored_of_complete {acc acc' : Acc} {n : Nat} {lo hi : Half} (inv : DecoderInv acc n)
    (done : pulse acc n lo hi = .complete acc') : LowStored acc' 24 := by
  obtain ⟨-, r⟩ | ⟨-, -, -, r⟩ | ⟨hl, -, fits, r⟩ := pulse_cases acc n lo hi
  · cases r.symm.trans done
  · cases r.symm.trans done
  · obtain ⟨last, rfl⟩ := highPhase_complete (by omega) (r.symm.trans done)
    rw [← last]
    exact inv.lowStored hl fits

/-- An `E_HIGH` that logs `INVALID_FRAME` has completed an accumulator, and the validator has named that failure
(R118, R135). -/
theorem exec_eHigh_invalidFrame {dt : Half} {s t : State} {word : Nat} {check : WordCheck}
    (run : exec (.eHigh dt) s = .next t)
    (logged : t.causes = s.causes ++ [.invalidFrame word check, .complete false]) :
    ∃ acc, pulse s.acc s.bitOffset.toNat s.pendingLow dt = .complete acc ∧ validate acc = .error (word, check) := by
  cases pair : pulse s.acc s.bitOffset.toNat s.pendingLow dt with
  | accumulate acc n =>
    cases (exec_eHigh_pulse pair).symm.trans run
    have noCause : s.causes = s.causes ++ [.invalidFrame word check, .complete false] := logged
    simp at noCause
  | violation cause =>
    cases (exec_eHigh_pulse pair).symm.trans run
    have oneCause : s.causes ++ [cause] = s.causes ++ [.invalidFrame word check, .complete false] := logged
    simp at oneCause
  | complete acc =>
    refine ⟨acc, rfl, ?_⟩
    obtain ⟨f, -, emitted⟩ | ⟨word', check', invalid, discarded⟩ := exec_eHigh_complete pair
    · cases emitted.symm.trans run
      have oneCause : s.causes ++ [.complete true] = s.causes ++ [.invalidFrame word check, .complete false] := logged
      simp at oneCause
    · cases discarded.symm.trans run
      have twoCauses : s.causes ++ [.invalidFrame word' check'] ++ [.complete false] =
          s.causes ++ [.invalidFrame word check, .complete false] := logged
      obtain ⟨rfl, rfl⟩ : word' = word ∧ check' = check := by simpa using twoCauses
      exact invalid

/-- Settles O25: the rejected word is one of an accumulator whose words have all started and keep their stop slots. -/
theorem onlyParityRejectsDecodedFrame : Obligations.OnlyParityRejectsDecodedFrame := by
  intro dt s t word check inv run logged
  obtain ⟨acc, done, invalid⟩ := exec_eHigh_invalidFrame run logged
  obtain ⟨lt, fails, -⟩ := validate_error invalid
  have stored := inv.lowStored_of_complete done
  exact wordFailure_parity (stored.started word lt (by omega)) (stored.stops_clear word lt) fails

end Sys2Proof.Machine

/-! The statements of `60_exceptions.md`: the cause that a rejected frame records, and the reasons for which a step is
refused. -/

namespace Sys2Proof.Machine

/-! ## The first failing check of a word (R131 to R133, R144) -/

theorem wordFailure_start_iff (w : AccWord) : wordFailure w = some .start ↔ w.getLsbD 0 = false := by
  rw [← Bool.not_eq_true, ← startPasses_iff]
  by_cases start : startPasses (invert w) = true
  · by_cases stop : stopPasses (invert w) = true <;> simp [wordFailure, start, stop]
  · simp [wordFailure, start]

theorem wordFailure_stop_iff (w : AccWord) :
    wordFailure w = some .stop ↔ w.getLsbD 0 = true ∧ ¬ (w.getLsbD 10 = false ∧ w.getLsbD 11 = false) := by
  rw [← startPasses_iff, ← stopPasses_iff]
  by_cases start : startPasses (invert w) = true
  · by_cases stop : stopPasses (invert w) = true <;> simp [wordFailure, start, stop]
  · simp [wordFailure, start]

theorem not_wordPasses_of_wordFailure {w : AccWord} {check : WordCheck} (fails : wordFailure w = some check) :
    ¬ WordPasses w := by
  rw [← wordFailure_none_iff, fails]
  exact Option.some_ne_none check

/-! ## The failure that a rejection names (R144) -/

theorem firstFailureOf_of_validate_error {acc : Acc} {word : Nat} {check : WordCheck}
    (invalid : validate acc = .error (word, check)) : FirstFailureOf acc word check := by
  obtain ⟨lt, fails, earlier⟩ := validate_error invalid
  exact {
    word_lt := lt
    earlier_pass := fun i hi => (wordFailure_none_iff _).mp (earlier i hi)
    start_iff := by rw [← wordFailure_start_iff, fails, Option.some_inj]
    stop_iff := by rw [← wordFailure_stop_iff, fails, Option.some_inj]
    parity_fails := fun _ => not_wordPasses_of_wordFailure fails }

/-- The slots that a low phase leaves set fix the accumulator (R116). -/
theorem LowPhaseOr.unique {acc a b : Acc} {bi bw l : Nat} (ha : LowPhaseOr acc a bi bw l)
    (hb : LowPhaseOr acc b bi bw l) : a = b := by
  ext i hi : 1
  exact BitVec.eq_of_getLsbD_eq fun k hk => (ha i hi k hk).trans (hb i hi k hk).symm

/-- Settles O24: a completion logs the failure that the validator names for the accumulator with the pair's low phase
in it, and that is the first failure in the order of R144. -/
theorem rejectionNamesFirstFailure : Obligations.RejectionNamesFirstFailure := by
  refine ⟨fun _ _ _ => firstFailureOf_of_validate_error, ?_⟩
  intro dt s acc' bw l h lt last hbw hl hh l_pos h_pos fits past long slots failing
  obtain ⟨t, acc, run, slots', -, -, -, rejected⟩ :=
    completionValidatesThenResets dt s bw l h lt last hbw hl hh l_pos h_pos fits past long
  obtain rfl := slots.unique slots'
  obtain ⟨-, -, -, word, check, invalid, logged⟩ := rejected failing
  exact ⟨t, word, check, run, logged, firstFailureOf_of_validate_error invalid⟩

/-! ## The lines that are never refused (R139, R152) -/

/-- Every entry class has a meaning in every state (R70, R97). -/
theorem exec_entry_next (e : Entry) (s : State) : ∃ t, exec (decodeEntry e) s = .next t := by
  obtain ⟨dt, low⟩ | ⟨dt, high⟩ | ⟨ignored, pin, skip⟩ := decodeEntry_cases e
  · exact ⟨_, low ▸ exec_eLow dt s⟩
  · exact ⟨_, high ▸ exec_eHigh dt s⟩
  · exact ⟨_, skip ▸ exec_eSkip ignored pin s⟩

/-- A consumer edge or a drain runs no instruction, or runs an entry. -/
theorem State.takeEvent_edge_cases (s : State) {event : Event} (edge : event = .c ∨ event = .drain) :
    (∃ t, s.takeEvent event = .done t) ∨ ∃ e t, s.takeEvent event = .run (decodeEntry e) t := by
  cases down : s.rstC with
  | true => obtain rfl | rfl := edge <;> exact .inl ⟨s, if_pos down⟩
  | false =>
    obtain held | ⟨e, draws, run⟩ := s.consumerEdge_cases
    · obtain rfl | rfl := edge
      · exact .inl ⟨_, (State.takeEvent_c down).trans held⟩
      · exact .inl ⟨_, State.takeEvent_drain_done down held⟩
    · obtain rfl | rfl := edge
      · exact .inr ⟨e, _, (State.takeEvent_c down).trans run⟩
      · exact .inr ⟨e, _, State.takeEvent_drain_run down run⟩

theorem step_edge_next {s : State} {event : Event} {rest : List Event} (scheduled : s.schedule = event :: rest)
    (edge : event = .c ∨ event = .drain) : ∃ t, step s = .next t := by
  obtain ⟨t, done⟩ | ⟨e, t, run⟩ := (s.withSchedule rest).takeEvent_edge_cases edge
  · exact ⟨t, step_of_done scheduled done⟩
  · rw [step_of_run scheduled run]
    exact exec_entry_next e t

/-! ## The lines that can be refused (R69, R89, R90, R92) -/

/-- Of the four commands, the model refuses the reserved one alone, with its word (R69, R82). -/
theorem exec_command_refused {w : Command} {s : State} {r : Refusal}
    (refused : exec (decodeCommand w) s = .refused r) :
    ∃ data, w = commandWord 3 data ∧ r = .reservedCommand (commandWord 3 data) := by
  obtain ⟨op, data, rfl⟩ := exists_commandWord w
  obtain rfl | rfl | rfl | rfl := commandCode_cases op
  · rw [decodeCommand_commandWord_nop, exec_pNop] at refused
    cases refused
  · rw [decodeCommand_push_fields] at refused
    obtain valid | corrupt := Nat.lt_or_ge s.writeCursor.toNat 300
    · rw [exec_pPush_valid _ _ valid] at refused
      cases refused
    · rw [exec_pPush_corrupt _ _ corrupt] at refused
      cases refused
  · rw [decodeCommand_setWr_fields] at refused
    obtain unchanged | changed := eq_or_ne (cursorEncode (data.extractLsb' 0 9)) s.wg
    · rw [exec_pSetWr_same _ unchanged] at refused
      cases refused
    · rw [exec_pSetWr_other _ changed] at refused
      cases refused
  · rw [decodeCommand_commandWord_reserved, exec_pReserved] at refused
    cases refused
    exact ⟨data, rfl, rfl⟩

theorem step_command_refused {s : State} {w : Command} {rest : List Event} {r : Refusal}
    (scheduled : s.schedule = .p w :: rest) (refused : step s = .refused r) :
    ∃ data, w = commandWord 3 data ∧ r = .reservedCommand (commandWord 3 data) := by
  cases down : s.rstP with
  | true => cases (step_command_lost scheduled down).symm.trans refused
  | false => exact exec_command_refused ((step_command scheduled down).symm.trans refused)

/-- An `SW` line is refused only where its choice gives no sample (log entry 10). -/
theorem step_writeSample_refusal {s : State} {choice : SyncChoice} {rest : List Event} {r : Refusal}
    (scheduled : s.schedule = .sw choice :: rest) (refused : step s = .refused r) :
    r = .noSuchSample choice ∧ sample s.hw s.jw choice = none := by
  cases down : s.rstC with
  | true => cases (step_of_done scheduled (if_pos down)).symm.trans refused
  | false =>
    cases sampled : sample s.hw s.jw choice with
    | some taken => cases (step_writeSample_taken scheduled down sampled).symm.trans refused
    | none =>
      cases (step_writeSample_refused scheduled down sampled).symm.trans refused
      exact ⟨rfl, rfl⟩

/-- An `SR` line is refused only where its choice gives no sample (log entry 10). -/
theorem step_readSample_refusal {s : State} {choice : SyncChoice} {rest : List Event} {r : Refusal}
    (scheduled : s.schedule = .sr choice :: rest) (refused : step s = .refused r) :
    r = .noSuchSample choice ∧ sample s.hr s.jr choice = none := by
  cases down : s.rstP with
  | true => cases (step_of_done scheduled (if_pos down)).symm.trans refused
  | false =>
    cases sampled : sample s.hr s.jr choice with
    | some taken => cases (step_readSample_taken scheduled down sampled).symm.trans refused
    | none =>
      cases (step_readSample_refused scheduled down sampled).symm.trans refused
      exact ⟨rfl, rfl⟩

/-- Settles O50: there is no fault to answer, and of the lines of a schedule only a command, a sample and a reset of
one domain can be refused. -/
theorem stopsAreOnlyNamedRefusals : Obligations.StopsAreOnlyNamedRefusals := by
  refine fun s => ⟨nofun, fun r refused => ?_⟩
  cases scheduled : s.schedule with
  | nil =>
    simp only [step, State.fetch, scheduled] at refused
    cases refused
  | cons event rest =>
    cases event with
    | p w =>
      obtain ⟨data, rfl, reserved⟩ := step_command_refused scheduled refused
      exact .inl ⟨data, rest, rfl, reserved⟩
    | sw choice =>
      obtain ⟨noSample, notAllowed⟩ := step_writeSample_refusal scheduled refused
      exact .inr (.inl ⟨choice, rest, rfl, noSample, notAllowed⟩)
    | sr choice =>
      obtain ⟨noSample, notAllowed⟩ := step_readSample_refusal scheduled refused
      exact .inr (.inr (.inl ⟨choice, rest, rfl, noSample, notAllowed⟩))
    | c =>
      obtain ⟨t, taken⟩ := step_edge_next scheduled (.inl rfl)
      cases taken.symm.trans refused
    | drain =>
      obtain ⟨t, taken⟩ := step_edge_next scheduled (.inr rfl)
      cases taken.symm.trans refused
    | reset port => cases (step_of_done scheduled rfl).symm.trans refused
    | rstRise port => cases (step_of_done scheduled rfl).symm.trans refused
    | rstRelease d => cases (step_of_done scheduled rfl).symm.trans refused
    | resetOne d =>
      rw [step_of_schedule scheduled] at refused
      cases refused
      exact .inr (.inr (.inr ⟨d, rest, rfl, rfl⟩))

end Sys2Proof.Machine

/-! The statements of `70_reset_and_hazards.md`: what a reset does to the registers and to the ring, and the frames that
the line loses or the ring holds. -/

namespace Sys2Proof.Machine

/-! ## The push that a reset cuts (R155) -/

/-- No write is cut by another command, at a corrupt cursor, or in a producer domain held in reset. -/
theorem State.cutIndex_none {s : State} {port : Command}
    (noWrite : commandOp port ≠ 1 ∨ 300 ≤ s.writeCursor.toNat ∨ s.rstP = true) : s.cutIndex port = none := by
  obtain ⟨op, data, rfl⟩ := exists_commandWord port
  rw [commandOp_commandWord] at noWrite
  unfold State.cutIndex
  obtain rfl | rfl | rfl | rfl := commandCode_cases op
  · rw [decodeCommand_commandWord_nop]
  · have blocked : ¬ (!s.rstP && cursorValid s.writeCursor) = true := by
      rw [Bool.and_eq_true, cursorValid_iff, Bool.not_eq_true']
      rintro ⟨up, valid⟩
      obtain other | corrupt | down := noWrite
      · exact other rfl
      · omega
      · cases up.symm.trans down
    rw [decodeCommand_push_fields]
    exact if_neg blocked
  · rw [decodeCommand_setWr_fields]
  · rw [decodeCommand_commandWord_reserved]

theorem State.cutIndex_push {s : State} {port : Command} (push : commandOp port = 1)
    (valid : s.writeCursor.toNat < 300) (up : s.rstP = false) : s.cutIndex port = some s.writeCursor.toNat := by
  have writes : (!s.rstP && cursorValid s.writeCursor) = true := by
    rw [up, (cursorValid_iff _).mpr valid]
    rfl
  rw [← commandWord_fields port, push, State.cutIndex, decodeCommand_push_fields]
  exact if_pos writes

theorem State.riseReset_noCut {s : State} {port : Command}
    (noWrite : commandOp port ≠ 1 ∨ 300 ≤ s.writeCursor.toNat ∨ s.rstP = true) :
    s.riseReset port = s.resetRegisters := by
  rw [State.riseReset, State.cutIndex_none noWrite]

/-- The entry whose write is cut becomes a draw. -/
theorem State.riseReset_cut {s : State} {port : Command} (push : commandOp port = 1)
    (valid : s.writeCursor.toNat < 300) (up : s.rstP = false) :
    s.riseReset port =
      ({ s with ring := ringWrite s.ring s.writeCursor.toNat s.drawn }.afterDraw).resetRegisters := by
  rw [State.riseReset, State.cutIndex_push push valid up]

/-! ## The three reset lines (R153, R154, R156) -/

theorem State.reset_holdReason : State.reset.holdReason = some .empty := by decide

theorem State.wcInvalid_of_empty {s : State} (empty : s.holdReason = some .empty) : s.wcInvalid = false := by
  obtain ⟨-, invalid⟩ := wcInvalidShowsCursorHold s
  rw [← Bool.not_eq_true, invalid, empty]
  decide

/-- Settles O47: with no write to cut, the step answers the reset state with the old ring, and at the reset values the
read cursor equals the view. -/
theorem resetGivesResetValues : Obligations.ResetGivesResetValues := by
  intro s rest port scheduled noWrite
  have taken : step s = .next ((s.withSchedule rest).pulseReset port) := step_of_done scheduled rfl
  rw [State.pulseReset, State.riseReset_noCut (s := s.withSchedule rest) noWrite] at taken
  have empty : ({ (s.withSchedule rest).resetRegisters with rstP := false, rstC := false } : State).holdReason =
      some .empty := (State.holdReason_congr rfl rfl).trans State.reset_holdReason
  exact ⟨_, taken, rfl, rfl, rfl, rfl, rfl, rfl, accZero_getElem, rfl, fun _ => Vector.getElem_replicate,
    rfl, rfl, rfl, rfl, rfl, rfl, rfl, rfl, rfl, rfl, rfl, empty, State.wcInvalid_of_empty empty⟩

/-- Settles O48: the step writes the draw where the push would have written its entry. -/
theorem resetCutsPushIntoDraw : Obligations.ResetCutsPushIntoDraw := by
  intro s rest e scheduled up valid
  have taken : step s = .next ((s.withSchedule rest).pulseReset (commandWord 1 e)) := step_of_done scheduled rfl
  rw [State.pulseReset, State.riseReset_cut (s := s.withSchedule rest) (commandOp_commandWord 1 e) valid up] at taken
  exact ⟨_, taken, ringRead_ringWrite_same _ _ _, fun _ => readByte_ringWrite_other _ _⟩

/-- Settles O57: a rise resets the registers whether or not it cuts a push, and only a cut touches the ring; a release
is the update of one flag. -/
theorem riseHoldsDomainsUntilReleased : Obligations.RiseHoldsDomainsUntilReleased := by
  refine ⟨fun s rest port scheduled => ?_, fun s rest => ⟨(step_of_done · rfl), (step_of_done · rfl)⟩⟩
  obtain ⟨ring, draws, risen, -⟩ := (s.withSchedule rest).riseReset_cases port
  have taken : step s = .next ((s.withSchedule rest).holdReset port) := step_of_done scheduled rfl
  rw [State.holdReset, risen] at taken
  refine ⟨_, taken, rfl, rfl, rfl, rfl, rfl, rfl, accZero_getElem, rfl, fun _ => Vector.getElem_replicate,
    rfl, rfl, rfl, rfl, rfl, rfl, rfl, rfl, rfl, rfl, fun noWrite => ?_, fun push valid up => ?_⟩
  · rw [State.riseReset_noCut (s := s.withSchedule rest) noWrite] at risen
    exact ⟨(congrArg State.ring risen).symm, (congrArg State.draws risen).symm⟩
  · rw [State.riseReset_cut (s := s.withSchedule rest) push valid up] at risen
    obtain rfl : ringWrite s.ring s.writeCursor.toNat s.drawn = ring := congrArg State.ring risen
    exact ⟨ringRead_ringWrite_same _ _ _, (congrArg State.draws risen).symm,
      fun _ => readByte_ringWrite_other _ _⟩

/-- Settles O58: the line is refused whatever the state. -/
theorem partialResetRefused : Obligations.PartialResetRefused :=
  fun _ _ _ => step_of_schedule

/-- Settles O54: each history holds its register's reset code alone, the decoder is in its initial state, and no domain
is held. -/
theorem resetMeetsInvariants : Obligations.ResetMeetsInvariants where
  ring_wf := rfl
  cursor := ⟨by decide, cursorEncode_zero.symm⟩
  history := ⟨rfl, rfl, .inl rfl, rfl, rfl, consecutive_singleton _, .inl rfl, List.mem_singleton_self _⟩
  decoder := decoderInv_zero
  output := ⟨rfl, nofun⟩
  held := ⟨nofun, nofun⟩

/-! ## The frame on the line and in the ring (R164, R172) -/

/-- Settles O28: the gap is too short for a break at slot 300, which is the overrun. -/
theorem shortBreakLosesFrame : Obligations.ShortBreakLosesFrame := by
  intro f gap widths s short clear start counts
  obtain ⟨u, run, frames, out, causes⟩ := frame_endsFrame clear start counts
  rw [afterHigh_frameOverrun _ short] at run
  exact ⟨_, run, frames, out, congrArg (· ++ [Cause.frameOverrun gap]) causes, rfl, rfl⟩

theorem lengthenLast_length (gap : Nat) (pairs : List (Nat × Nat)) :
    (lengthenLast gap pairs).length = pairs.length := by
  induction pairs with
  | nil => rfl
  | cons p rest ih =>
    cases rest with
    | nil => rfl
    | cons q rest => exact congrArg (· + 1) ih

/-- At most five pairs for each byte of a frame, the gap after the last one included. -/
theorem framePairs_length_le (b : Byte) (rest : List Byte) (gap : Nat) :
    (framePairs (b :: rest) gap).length ≤ 5 * (b :: rest).length := by
  have now := bytePairs_length b
  induction rest generalizing b with
  | nil =>
    rw [framePairs_last, lengthenLast_length]
    exact now
  | cons c rest ih =>
    have later := ih c (bytePairs_length c)
    rw [framePairs_cons, List.length_append, List.length_cons]
    omega

/-- Two push commands for each pulse pair. -/
theorem schedFrame_length (f : Frame) (gap : Nat) :
    (schedFrame f gap).length = 2 * (framePairs f.toList gap).length := by
  simp [schedFrame, schedPair, List.length_flatMap, Nat.mul_comm]

/-- Settles O29: 25 bytes of at most five pairs each, and two commands to a pair. -/
theorem frameFitsTheRing : Obligations.FrameFitsTheRing := by
  intro f gap
  have pairs : (framePairs f.toList gap).length ≤ 125 := by
    have bound := framePairs_length_le f[0] (f.toList.drop 1) gap
    rw [← frame_drop f (by decide), List.drop_zero] at bound
    simpa using bound
  rw [schedFrame_length]
  omega

end Sys2Proof.Machine

/-! The written words of `30_encoding.md` section 10 and `95_test_vectors.md` section 3, as rows of the opcode table. -/

namespace Sys2Proof

/-- A row that holds the bytes of an instruction decodes to it (R70). -/
theorem decodeTableWord_of_bytes {i : Instr} {nbits w : Nat} (wf : i.wellFormed = true)
    (format : tableFormat nbits = i.format) (fits : w < 2 ^ nbits)
    (bytes : bytesOfNat i.format.byteCount w = (encode i).bytes) : decodeTableWord nbits w = some i := by
  rw [decodeTableWord, Machine.tableBytes_of_fits fits, format, bytes, decodeBytes_encode wf]

/-- Five bytes with a bit above bit 33 are no command: the port has 34 wires (log entry 12). -/
theorem takeWord_tooWide {w : Nat} (wide : 2 ^ 34 ≤ w) (fits : w < 2 ^ 40) (rest : List Byte) :
    takeWord .pcmd (bytesOfNat 5 w ++ rest) = .error .commandTooWide := by
  have length := bytesOfNat_length 5 w
  have enough : ¬ (bytesOfNat 5 w ++ rest).length < 5 := by rw [List.length_append]; omega
  rw [takeWord, if_neg enough, List.take_left' length, natOfBytes_bytesOfNat 5 w fits]
  exact if_pos wide

theorem decodeTableWord_tooWide {w : Nat} (wide : 2 ^ 34 ≤ w) (fits : w < 2 ^ 40) : decodeTableWord 40 w = none := by
  have format : tableFormat 40 = .pcmd := rfl
  rw [decodeTableWord, Machine.tableBytes_of_fits fits, format, Format.byteCount, decodeBytes,
    takeWord_tooWide wide fits]

/-- Settles O4: each row holds the bytes of its instruction, and the last one has a 35th bit. -/
theorem writtenWordsDecode : Obligations.WrittenWordsDecode :=
  ⟨decodeTableWord_of_bytes rfl rfl (by decide) rfl,
   decodeTableWord_of_bytes rfl rfl (by decide) rfl,
   decodeTableWord_of_bytes rfl rfl (by decide) rfl,
   decodeTableWord_of_bytes rfl rfl (by decide) rfl,
   decodeTableWord_of_bytes rfl rfl (by decide) rfl,
   decodeTableWord_of_bytes rfl rfl (by decide) rfl,
   decodeTableWord_of_bytes rfl rfl (by decide) rfl,
   decodeTableWord_tooWide (by decide) (by decide)⟩

end Sys2Proof
